-- ==== Sys2Proof/Word.lean ====
section
/-! DEFINITION. The word types of the block (spec/00_scope.md R9). -/

namespace Sys2Proof

/-- A register, a digit-buffer entry, one half of a sequence element, a command word (R9, R100). -/
abbrev Word := BitVec 64

/-- The byte of R73. -/
abbrev Byte := BitVec 8

end Sys2Proof
end

