-- ==== Sys2Proof/Config.lean ====
section
/-! DEFINITION. The implementation parameters of spec/00_scope.md R7.
They are arguments of the model: State carries them in a field that no step changes (log 1). -/

namespace Sys2Proof

/-- The parameters of R7 that are not derived from the others. -/
structure Params where
  /-- `LOG2_NMAX`. -/
  log2Nmax : Nat
  /-- `NTT_P`. -/
  nttP : Nat
  /-- `NTT_G`. -/
  nttG : Nat
  /-- `APERTURE_BASE`. -/
  apertureBase : Nat
  deriving DecidableEq, Repr

/-- `N_MAX` of R7. -/
def Params.nMax (p : Params) : Nat := 2 ^ p.log2Nmax

/-- The legal values of R7.
DESIGN CHOICE (log 22): `APERTURE_BASE` is any multiple of `2^30`, with no upper bound.
DESIGN CHOICE (log 23): `NTT_G` is any natural number that meets R7's order condition, with no upper bound. -/
structure Params.Legal (p : Params) : Prop where
  log2Nmax_pos : 1 ≤ p.log2Nmax
  log2Nmax_le : p.log2Nmax ≤ 23
  prime : p.nttP.Prime
  two_lt : 2 < p.nttP
  lt_pow : p.nttP < 2 ^ 32
  generator : p.nttG ^ ((p.nttP - 1) / 2) % p.nttP = p.nttP - 1
  base_aligned : p.apertureBase % 2 ^ 30 = 0

/-- The defaults of R7.
DESIGN CHOICE (log 2), unsafe: `APERTURE_BASE` is OPEN in the spec and 0 here. -/
def Params.standard : Params :=
  { log2Nmax := 20, nttP := 998244353, nttG := 3, apertureBase := 0 }

end Sys2Proof
end

