-- ==== Sys2Proof/Syntax.lean ====
section
/-! DEFINITION. The nine commands of spec/opcode_table.json as syntax (spec/30_encoding.md R101 to R106). -/

namespace Sys2Proof

/-- The domain of a command, field DOM (R103). -/
inductive Dom where
  /-- 0: the complex path `C`. -/
  | c
  /-- 1: the modular path `M`. -/
  | m
  deriving DecidableEq, Repr

/-- A 2-bit buffer index, fields X, Y and Z (R105).
Whether it names a digit or a sequence buffer is fixed by the command. -/
abbrev BufIx := Fin 4

/-- The commands, one constructor per row of the opcode table, operands in the order of R107. -/
inductive Instr where
  /-- NOP (R260). -/
  | nop
  /-- LOADSEQ: sequence buffer `x` from digit buffer `y` (R220). -/
  | loadseq (dom : Dom) (logn : Nat) (x y : BufIx)
  /-- STOREDIG: digit buffer `x` from sequence buffer `y` (R225). -/
  | storedig (dom : Dom) (logn : Nat) (x y : BufIx)
  /-- FWD: forward transform of sequence buffer `x` (R170). -/
  | fwd (dom : Dom) (logn : Nat) (x : BufIx)
  /-- INV: inverse transform of sequence buffer `x` (R172). -/
  | inv (dom : Dom) (logn : Nat) (x : BufIx)
  /-- PMUL: sequence buffer `x` from the product of `y` and `z` (R200). -/
  | pmul (dom : Dom) (logn : Nat) (x y z : BufIx)
  /-- PMAC: the product of `y` and `z` added to sequence buffer `x` (R203). -/
  | pmac (dom : Dom) (logn : Nat) (x y z : BufIx)
  /-- NORM: digit buffer `x` normalized (R133). -/
  | norm (x : BufIx)
  /-- MUL: digit buffer `x` from the product of `y` and `z` (R240). -/
  | mul (dom : Dom) (x y z : BufIx)
  deriving DecidableEq, Repr

end Sys2Proof
end

