-- ==== Sys2Proof/Machine/State.lean ====
section
/-! DEFINITION. The state of the block (spec/10_state.md), its inputs, its faults and its reset. -/

namespace Sys2Proof.Machine

/-- The engine's phase (R45). -/
inductive Phase where
  | idle
  /-- `Busy(w)`: the word `w` is accepted and not yet executed. -/
  | busy (w : Word)
  deriving DecidableEq, Repr

/-- The error codes of spec/60_exceptions.md R270; codes 8 to 15 are never produced. -/
inductive ErrCode where
  | none
  | badcmd
  | size
  | len
  | capacity
  | overflow
  | round
  | residue
  deriving DecidableEq, Repr

/-- One host access: its width in bits, its host address and, for a write, the value.
Only 64-bit accesses are performed (R74).
DESIGN CHOICE (log 22): a host address is any natural number, since the spec gives it no width (R9, R70). -/
inductive HostAccess where
  | read (width addr : Nat)
  | write (width addr : Nat) (value : Word)
  deriving DecidableEq, Repr

/-- What the outside world does next (R45, R262, R310; log 3). -/
inductive Event where
  /-- The host makes an access. -/
  | host (a : HostAccess)
  /-- The engine takes its step. -/
  | engine
  /-- Power-on reset. -/
  | powerOnReset
  deriving DecidableEq, Repr

/-- What the block returned for the last host access (log 5). -/
inductive Response where
  /-- No access since reset. -/
  | noneYet
  /-- A read returned this value. -/
  | data (w : Word)
  /-- A write was taken (performed, or ignored as the rules say). -/
  | ack
  /-- The bus error of R74, a host fault. -/
  | busError
  deriving DecidableEq, Repr

/-- One 128-bit sequence element, two words (R42 to R44). -/
structure Elem where
  lo : Word
  hi : Word
  deriving DecidableEq, Repr

/-- The buffers: cells (aperture byte offset, byte), addresses strictly rising.
An unlisted address is unwritten and has no value (R49). -/
abbrev Memory := List Host.Cell

/-- Why a step stops. -/
inductive Fault where
  /-- Raised by a command or a host read that reads an unwritten buffer word (R49). Safe. -/
  | unwrittenRead
  /-- Raised by a host access outside the aperture, which does not reach the block (R70). Safe. -/
  | outsideAperture
  deriving DecidableEq, Repr

/-- What the model gives no meaning. -/
inductive Refusal where
  /-- Raised by an arm of `exec` that has no meaning yet; no arm is so now. Safe. -/
  | notModelled (mnemonic : String)
  /-- Raised by a host access to a buffer window, DLEN or DSIGN while BUSY (R77, R320):
  "A model refuses a host program that makes such an access". Safe. -/
  | hostHazard
  deriving DecidableEq, Repr

/-- Everything the block holds (R30 to R50), and the model's own `cfg`, `events` and `resp`. -/
structure State where
  /-- The parameters (R7, R47), constant (log 1). -/
  cfg : Params
  /-- The engine phase (R45); STATUS.BUSY is read from it (R37). -/
  phase : Phase
  /-- CTRL.IE (R36). -/
  ie : Bool
  /-- STATUS.DONE (R37). -/
  done : Bool
  /-- STATUS.OVR (R37). -/
  ovr : Bool
  /-- STATUS.ERR (R37, R270). -/
  err : ErrCode
  /-- CUR_CMD (R38). -/
  curCmd : Word
  /-- DLEN[0..3], bits 31:0 (R39). -/
  dlen : Vector (BitVec 32) 4
  /-- DSIGN[0..3], bit 0 (R40). -/
  dsign : Vector Bool 4
  /-- D[0..3] and S[0..3] at their window offsets (R41, R42, R78, R79). -/
  mem : Memory
  /-- The inputs still to come, oldest first (log 3). -/
  events : List Event
  /-- The answer to the last host access (log 5). -/
  resp : Response
  deriving DecidableEq, Repr

/-- The state after power-on reset (R49, R310) of a block with parameters `p` before inputs `es`. -/
def State.resetWith (p : Params) (es : List Event) : State :=
  { cfg := p, phase := .idle, ie := false, done := false, ovr := false, err := .none, curCmd := 0,
    dlen := #v[0, 0, 0, 0], dsign := #v[false, false, false, false],
    mem := [], events := es, resp := .noneYet }

/-- The state after power-on reset with the default parameters of R7 and no input to come. -/
def State.reset : State := State.resetWith Params.standard []

end Sys2Proof.Machine
end

