-- ==== Sys2Proof/Machine/Ops.lean ====
section
/-! DEFINITION. The named operations over memory, buffers and registers; acceptance and completion. -/

namespace Sys2Proof.Machine

/-! ### Lists of readings -/

/-- The readings `f i, ..., f (i + n - 1)`, when every one has a value. -/
def collect {α : Type} (f : Nat → Option α) : Nat → Nat → Option (List α)
  | _, 0 => some []
  | i, n + 1 =>
    match f i, collect f (i + 1) n with
    | some a, some as => some (a :: as)
    | _, _ => none

/-! ### Bytes and words (R73) -/

/-- The bytes of a word, byte `b` holding bits `8b+7 : 8b`. -/
def bytesOfWord (w : Word) : List Byte :=
  (List.range 8).map fun b => BitVec.ofNat 8 (w.toNat / 2 ^ (8 * b))

/-- The number a list of bytes spells, least significant first. -/
def natOfBytes : List Byte → Nat
  | [] => 0
  | b :: bs => b.toNat + 256 * natOfBytes bs

/-! ### Memory -/

/-- One byte of memory; no value where nothing is listed (R49). -/
def Memory.read : Memory → Nat → Option Byte
  | [], _ => none
  | (k, b) :: m, a => if k = a then some b else Memory.read m a

/-- Consecutive cells from address `a`. -/
def cellsFrom : Nat → List Byte → Memory
  | _, [] => []
  | a, b :: bs => (a, b) :: cellsFrom (a + 1) bs

/-- `k` is one of the `len` addresses from `a` up. -/
def inRange (a len k : Nat) : Bool := Nat.ble a k && Nat.blt k (a + len)

/-- The cells of the `len` addresses from `a` up. -/
def Memory.slice (m : Memory) (a len : Nat) : Memory := m.filter fun c => inRange a len c.1

/-- The cells below `a`. -/
def Memory.below (m : Memory) (a : Nat) : Memory := m.filter fun c => Nat.blt c.1 a

/-- The cells at or above `a`. -/
def Memory.atOrAbove (m : Memory) (a : Nat) : Memory := m.filter fun c => Nat.ble a c.1

/-- Write the bytes `bs` from address `a` up. -/
def Memory.write (m : Memory) (a : Nat) (bs : List Byte) : Memory :=
  m.below a ++ cellsFrom a bs ++ m.atOrAbove (a + bs.length)

/-- Make the `len` bytes from address `a` up unwritten (R311). -/
def Memory.erase (m : Memory) (a len : Nat) : Memory := m.below a ++ m.atOrAbove (a + len)

/-- The 64-bit word at `a`, when all its bytes are written (R73). -/
def Memory.readWord (m : Memory) (a : Nat) : Option Word :=
  let cells := m.slice a 8
  if cells.map Prod.fst = List.range' a 8 then
    some (BitVec.ofNat 64 (natOfBytes (cells.map Prod.snd)))
  else none

/-- Write consecutive words from address `a` up (R73). -/
def Memory.writeWords (m : Memory) (a : Nat) (ws : List Word) : Memory :=
  m.write a (ws.flatMap bytesOfWord)

/-- The canonical form: addresses strictly rising.
(An unlisted address has no value, so no entry can equal what it reads as.) -/
abbrev Memory.wf (m : Memory) : Prop := m.Pairwise fun c d => c.1 < d.1

/-! ### Buffers (R41, R42, R78, R79) -/

/-- The window offset of `D[k][i]` (R78). -/
def digitAddr (k : BufIx) (i : Nat) : Nat := 0x10000000 + k.val * 0x04000000 + 8 * i

/-- The window offset of `S[k][i].lo`; `.hi` is 8 above it (R79). -/
def elemAddr (k : BufIx) (i : Nat) : Nat := 0x20000000 + k.val * 0x08000000 + 16 * i

/-- `D[k][i]` as stored. -/
def State.digitWord (s : State) (k : BufIx) (i : Nat) : Option Word :=
  s.mem.readWord (digitAddr k i)

/-- `S[k][i].lo`. -/
def State.elemLo (s : State) (k : BufIx) (i : Nat) : Option Word :=
  s.mem.readWord (elemAddr k i)

/-- `S[k][i].hi`. -/
def State.elemHi (s : State) (k : BufIx) (i : Nat) : Option Word :=
  s.mem.readWord (elemAddr k i + 8)

/-- `D[k][0 ..] <- ds`, each as a 64-bit two's-complement word (R225). -/
def State.writeDigits (s : State) (k : BufIx) (ds : List Int) : State :=
  { s with mem := s.mem.writeWords (digitAddr k 0) (ds.map (BitVec.ofInt 64)) }

/-- `S[k][0 ..] <- es`. -/
def State.writeElems (s : State) (k : BufIx) (es : List Elem) : State :=
  { s with mem := s.mem.writeWords (elemAddr k 0) (es.flatMap fun e => [e.lo, e.hi]) }

/-! ### Registers -/

/-- `DLEN[k]` as a number (R39). -/
def State.len (s : State) (k : BufIx) : Nat := (s.dlen[k]).toNat

/-- `DLEN[k] <- n` (R39). -/
def State.setLen (s : State) (k : BufIx) (n : Nat) : State :=
  { s with dlen := s.dlen.set k.val (BitVec.ofNat 32 n) k.isLt }

/-- `DSIGN[k]` (R40). -/
def State.sign (s : State) (k : BufIx) : Bool := s.dsign[k]

/-- `DSIGN[k] <- b` (R40). -/
def State.setSign (s : State) (k : BufIx) (b : Bool) : State :=
  { s with dsign := s.dsign.set k.val b k.isLt }

/-! ### Acceptance and completion

The block has no trap: an error is reported by completion with its code (R271, R276), and the next
acceptance clears it (R277). These two are the block's exception entry and return. -/

/-- Acceptance of the word `w` (R261). -/
def State.accept (s : State) (w : Word) : State :=
  { s with curCmd := w, err := .none, done := false, phase := .busy w }

/-- `Complete(code)` (R263). -/
def State.complete (s : State) (code : ErrCode) : State :=
  { s with phase := .idle, done := true, err := code }

/-! ### Commands -/

/-- How a command's pseudocode ends: normally, by `raise Error(e)` with the writes made so far (R273),
or at a read of an unwritten entry (R49). -/
inductive CmdResult where
  | ok (s : State)
  | error (e : ErrCode) (s : State)
  | fault (f : Fault)
  deriving DecidableEq, Repr

/-- The statements of `k` after those of `r`; an error of `r` ends both (R273). -/
def CmdResult.andThen (r : CmdResult) (k : State → CmdResult) : CmdResult :=
  match r with
  | .ok s => k s
  | .error e s => .error e s
  | .fault f => .fault f

/-- Completion after a command (R262, R263). -/
def CmdResult.finish : CmdResult → Host.Outcome State Fault Refusal
  | .ok s => .next (s.complete .none)
  | .error e s => .next (s.complete e)
  | .fault f => .fault f

end Sys2Proof.Machine
end

