-- ==== Sys2Proof/Machine/Control.lean ====
section
/-! DEFINITION. NOP (spec/45_control.md R260). -/

namespace Sys2Proof.Machine

/-- `NOP()`: nothing (R260). -/
def cmdNop (s : State) : CmdResult := .ok s

/-- NOP and its completion. -/
def execNop (s : State) : Host.Outcome State Fault Refusal := (cmdNop s).finish

end Sys2Proof.Machine
end

