-- ==== Sys2Proof/Machine/Float.lean ====
section
/-! DEFINITION. IEEE 754 binary64 arithmetic (spec/00_scope.md R13) and the conversions b64 and ROUND.

A finite magnitude is a natural number of units of `2^-1074`, the least subnormal, so every operation
computes an exact quotient of naturals and rounds it once.
The special cases (infinities, zero divided by zero, signs of zero) are those of IEEE 754 (log 12). -/

namespace Sys2Proof.Machine

/-- What a binary64 pattern stands for. -/
inductive FVal where
  | nan
  | inf (neg : Bool)
  /-- `(-1)^neg * units * 2^-1074`. -/
  | fin (neg : Bool) (units : Nat)
  deriving DecidableEq, Repr

/-- How many units of `2^-1074` make 1. -/
def unitsPerOne : Nat := 2 ^ 1074

/-- The canonical NaN (R13). -/
def canonicalNaN : Word := 0x7FF8000000000000

/-- The value of a pattern. -/
def unpack (w : Word) : FVal :=
  let neg := decide (w.toNat / 2 ^ 63 = 1)
  let exponent := w.toNat / 2 ^ 52 % 2 ^ 11
  let fraction := w.toNat % 2 ^ 52
  if exponent = 2047 then
    if fraction = 0 then .inf neg else .nan
  else if exponent = 0 then .fin neg fraction
  else .fin neg ((2 ^ 52 + fraction) * 2 ^ (exponent - 1))

/-- A sign bit over the 63 bits of a magnitude. -/
def packMagnitude (neg : Bool) (magnitude : Nat) : Word :=
  BitVec.ofNat 64 ((if neg then 2 ^ 63 else 0) + magnitude)

/-- The magnitude bits of an infinity. -/
def infMagnitude : Nat := 2047 * 2 ^ 52

/-- `k + 1` or `k`, the integer nearest to `k + r / d`, ties to even, for `r < d`. -/
def nearestEven (k r d : Nat) : Nat :=
  if 2 * r > d ∨ (2 * r = d ∧ k % 2 = 1) then k + 1 else k

/-- The binary64 value nearest to `(-1)^neg * (num / den) * 2^-1074`, ties to even, with gradual
underflow and overflow to infinity (R13).
The significand is rounded at `2^scale` units, where `scale + 1` is the exponent field of a normal result. -/
def roundUnits (neg : Bool) (num den : Nat) : Word :=
  let scale := Nat.log2 (num / den) - 52
  let d := den * 2 ^ scale
  let k := nearestEven (num / d) (num % d) d
  packMagnitude neg (min (scale * 2 ^ 52 + k) infMagnitude)

/-- A signed number of units. -/
def signedUnits (neg : Bool) (u : Nat) : Int := if neg then -(u : Int) else u

/-- `a +f b`. -/
def fadd (a b : Word) : Word :=
  match unpack a, unpack b with
  | .nan, _ => canonicalNaN
  | _, .nan => canonicalNaN
  | .inf s, .inf t => if s = t then packMagnitude s infMagnitude else canonicalNaN
  | .inf s, .fin _ _ => packMagnitude s infMagnitude
  | .fin _ _, .inf t => packMagnitude t infMagnitude
  | .fin s u, .fin t v =>
    let sum := signedUnits s u + signedUnits t v
    if sum = 0 then packMagnitude (s && t) 0
    else roundUnits (decide (sum < 0)) sum.natAbs 1

/-- The pattern with its sign bit inverted. -/
def fneg (a : Word) : Word := a ^^^ 0x8000000000000000

/-- `a -f b`. -/
def fsub (a b : Word) : Word := fadd a (fneg b)

/-- `a *f b`. -/
def fmul (a b : Word) : Word :=
  match unpack a, unpack b with
  | .nan, _ => canonicalNaN
  | _, .nan => canonicalNaN
  | .inf s, .inf t => packMagnitude (s ^^ t) infMagnitude
  | .inf s, .fin t v => if v = 0 then canonicalNaN else packMagnitude (s ^^ t) infMagnitude
  | .fin s u, .inf t => if u = 0 then canonicalNaN else packMagnitude (s ^^ t) infMagnitude
  | .fin s u, .fin t v => roundUnits (s ^^ t) (u * v) unitsPerOne

/-- `a /f b`. -/
def fdiv (a b : Word) : Word :=
  match unpack a, unpack b with
  | .nan, _ => canonicalNaN
  | _, .nan => canonicalNaN
  | .inf _, .inf _ => canonicalNaN
  | .inf s, .fin t _ => packMagnitude (s ^^ t) infMagnitude
  | .fin s _, .inf t => packMagnitude (s ^^ t) 0
  | .fin s u, .fin t v =>
    if v = 0 then
      if u = 0 then canonicalNaN else packMagnitude (s ^^ t) infMagnitude
    else roundUnits (s ^^ t) (u * unitsPerOne) v

/-- `b64(n)` for an integer `n`; zero gives `+0.0` (R13, R221). -/
def floatOfInt (n : Int) : Word := roundUnits (decide (n < 0)) (n.natAbs * unitsPerOne) 1

/-- `n` is in `int64` (R11). -/
def inInt64 (n : Int) : Bool := decide (-(2 ^ 63 : Int) ≤ n ∧ n ≤ 2 ^ 63 - 1)

/-- `ROUND(v)` of R222, `none` for FAIL: the nearest integer, halves away from zero. -/
def roundToDigit (v : Word) : Option Int :=
  match unpack v with
  | .nan => none
  | .inf _ => none
  | .fin neg u =>
    let r := signedUnits neg ((2 * u + unitsPerOne) / (2 * unitsPerOne))
    if inInt64 r then some r else none

end Sys2Proof.Machine
end

