-- ==== Sys2Proof/Machine/Residue.lean ====
section
/-! DEFINITION. Arithmetic modulo `NTT_P` (spec/41_transform.md R163, R165) and the integer operators of R12. -/

namespace Sys2Proof.Machine

/-- `ADD_M` (R165). -/
def addMod (p u v : Nat) : Nat := (u + v) % p

/-- `SUB_M` (R165). -/
def subMod (p u v : Nat) : Nat := (u + p - v) % p

/-- `MUL_M` (R165). -/
def mulMod (p u v : Nat) : Nat := u * v % p

/-- `b^e mod p` by repeated squaring, with fuel at least the number of bits of `e`. -/
def powModFuel (p : Nat) : Nat → Nat → Nat → Nat
  | 0, _, _ => 1 % p
  | fuel + 1, b, e =>
    if e = 0 then 1 % p
    else if e % 2 = 1 then mulMod p b (powModFuel p fuel (mulMod p b b) (e / 2))
    else powModFuel p fuel (mulMod p b b) (e / 2)

/-- `b^e mod p`. -/
def powMod (p b e : Nat) : Nat := powModFuel p (Nat.log2 e + 1) (b % p) e

/-- `NINV(n)` of R165. -/
def invMod (p n : Nat) : Nat := powMod p n (p - 2)

/-- The largest `k` with `2^k` dividing `n`, with fuel at least that `k`. -/
def twosFuel : Nat → Nat → Nat
  | 0, _ => 0
  | fuel + 1, n => if n = 0 then 0 else if n % 2 = 0 then twosFuel fuel (n / 2) + 1 else 0

/-- `NTT_LOG2_MAX` of R7: the largest `k` with `2^k` dividing `NTT_P - 1`. -/
def nttLog2Max (p : Params) : Nat := twosFuel (Nat.log2 (p.nttP - 1) + 1) (p.nttP - 1)

/-- The least `k` with `x <= 2^k`, for `x >= 1` (R12); 0 for 0. -/
def ceilLog2 (x : Nat) : Nat := if x ≤ 1 then 0 else Nat.log2 (x - 1) + 1

/-- `nextpow2(x)` of R12. -/
def nextPow2 (x : Nat) : Nat := 2 ^ ceilLog2 x

end Sys2Proof.Machine
end

