-- ==== Sys2Proof/Machine/Roots.lean ====
section
/-! DEFINITION. The root tables `ROOT_C` and `ROOT_M` (spec/41_transform.md R162, R163): constants of the configuration. -/

namespace Sys2Proof.Machine

/-- The direction of a transform (R166). -/
inductive Dir where
  | fwd
  | inv
  deriving DecidableEq, Repr

/-- `(b64(cos(2*pi/2^j)), b64(sin(2*pi/2^j)))` for `j = 1 .. 8` (R162).
DEDUCED (log 11): computed from the half-angle formulas with 400-bit integers, not by the level above. -/
def rootTableLow : List (Word × Word) :=
  [ (0xBFF0000000000000, 0x0000000000000000),
    (0x0000000000000000, 0x3FF0000000000000),
    (0x3FE6A09E667F3BCD, 0x3FE6A09E667F3BCD),
    (0x3FED906BCF328D46, 0x3FD87DE2A6AEA963),
    (0x3FEF6297CFF75CB0, 0x3FC8F8B83C69A60B),
    (0x3FEFD88DA3D12526, 0x3FB917A6BC29B42C),
    (0x3FEFF621E3796D7E, 0x3FA91F65F10DD814),
    (0x3FEFFD886084CD0D, 0x3F992155F7A3667E) ]

/-- The same for `j = 9 .. 16`. -/
def rootTableMid : List (Word × Word) :=
  [ (0x3FEFFF62169B92DB, 0x3F8921D1FCDEC784),
    (0x3FEFFFD8858E8A92, 0x3F7921F0FE670071),
    (0x3FEFFFF621621D02, 0x3F6921F8BECCA4BA),
    (0x3FEFFFFD88586EE6, 0x3F5921FAAEE6472E),
    (0x3FEFFFFF62161A34, 0x3F4921FB2AECB360),
    (0x3FEFFFFFD8858675, 0x3F3921FB49EE4EA6),
    (0x3FEFFFFFF621619C, 0x3F2921FB51AEB57C),
    (0x3FEFFFFFFD885867, 0x3F1921FB539ECF31) ]

/-- The same for `j = 17 .. 23`. -/
def rootTableHigh : List (Word × Word) :=
  [ (0x3FEFFFFFFF62161A, 0x3F0921FB541AD59E),
    (0x3FEFFFFFFFD88586, 0x3EF921FB5439D73A),
    (0x3FEFFFFFFFF62162, 0x3EE921FB544197A1),
    (0x3FEFFFFFFFFD8858, 0x3ED921FB544387BA),
    (0x3FEFFFFFFFFF6216, 0x3EC921FB544403C1),
    (0x3FEFFFFFFFFFD886, 0x3EB921FB544422C2),
    (0x3FEFFFFFFFFFF621, 0x3EA921FB54442A83) ]

/-- The complex root table, entry `j - 1` for level `m = 2^j` (R162). -/
def rootTable : List (Word × Word) := rootTableLow ++ rootTableMid ++ rootTableHigh

/-- `ROOT_C(dir, 2^j)` (R162): the inverse negates the sine, an exact zero staying `+0.0`. -/
def rootComplex (dir : Dir) (j : Nat) : Elem :=
  let e := rootTable.getD (j - 1) (0, 0)
  match dir with
  | .fwd => { lo := e.1, hi := e.2 }
  | .inv => { lo := e.1, hi := if e.2 = 0 then 0 else fneg e.2 }

/-- `ROOT_M(dir, 2^j)` (R163). -/
def rootModular (p : Params) (dir : Dir) (j : Nat) : Nat :=
  let r := powMod p.nttP p.nttG ((p.nttP - 1) / 2 ^ j)
  match dir with
  | .fwd => r
  | .inv => invMod p.nttP r

end Sys2Proof.Machine
end

