-- ==== Sys2Proof/Machine/Operands.lean ====
section
/-! DEFINITION. Operands of commands: digits and sequence elements read in a domain (spec/10_state.md R41 to R44),
the arithmetic of the two domains (spec/41_transform.md R161, R165), conversions (spec/43_convert.md R221 to R223),
the length limit (spec/30_encoding.md R104) and the residue check (R164). -/

namespace Sys2Proof.Machine

/-- `LIMIT(dom)` of R104. -/
def limit (p : Params) : Dom → Nat
  | .c => p.log2Nmax
  | .m => min p.log2Nmax (nttLog2Max p)

/-! ### Reading operands -/

/-- `D[k][i]` in a memory, read as `sint64` (R41). -/
def digitIn (m : Memory) (k : BufIx) (i : Nat) : Option Int :=
  (m.readWord (digitAddr k i)).map BitVec.toInt

/-- `S[k][i]` in a memory, read in a domain: both words in the complex domain (R43), the low word
alone in the modular domain, where the high word is not read (R44, R164). -/
def elemIn (m : Memory) (dom : Dom) (k : BufIx) (i : Nat) : Option Elem :=
  match dom with
  | .c =>
    match m.readWord (elemAddr k i), m.readWord (elemAddr k i + 8) with
    | some lo, some hi => some { lo := lo, hi := hi }
    | _, _ => none
  | .m => (m.readWord (elemAddr k i)).map fun lo => { lo := lo, hi := 0 }

/-- `D[k][i]` read as `sint64` (R41). -/
def State.digit (s : State) (k : BufIx) (i : Nat) : Option Int := digitIn s.mem k i

/-- `S[k][i]` read in a domain (R43, R44). -/
def State.elem (s : State) (dom : Dom) (k : BufIx) (i : Nat) : Option Elem := elemIn s.mem dom k i

/-- `D[k][0 .. n-1]`, when every entry is written. -/
def State.digits (s : State) (k : BufIx) (n : Nat) : Option (List Int) :=
  collect (digitIn (s.mem.slice (digitAddr k 0) (8 * n)) k) 0 n

/-- `S[k][0 .. n-1]` read in a domain, when every word it reads is written. -/
def State.elems (s : State) (dom : Dom) (k : BufIx) (n : Nat) : Option (List Elem) :=
  collect (elemIn (s.mem.slice (elemAddr k 0) (16 * n)) dom k) 0 n

/-- The residue of a modular element (R44). -/
def Elem.residue (e : Elem) : Nat := e.lo.toNat

/-- A residue as an element, high word 0 (R44, R164). -/
def elemOfResidue (u : Nat) : Elem := { lo := BitVec.ofNat 64 u, hi := 0 }

/-- Every element may be read in the domain: the residue check of R164; complex elements all pass (R43). -/
def residuesLegal (p : Params) (dom : Dom) (es : List Elem) : Bool :=
  match dom with
  | .c => true
  | .m => es.all fun e => decide (e.residue < p.nttP)

/-! ### Arithmetic (R161, R165) -/

/-- `ONE`. -/
def oneElem : Dom → Elem
  | .c => { lo := 0x3FF0000000000000, hi := 0 }
  | .m => elemOfResidue 1

/-- `ADD`. -/
def addElem (p : Params) (dom : Dom) (x y : Elem) : Elem :=
  match dom with
  | .c => { lo := fadd x.lo y.lo, hi := fadd x.hi y.hi }
  | .m => elemOfResidue (addMod p.nttP x.residue y.residue)

/-- `SUB`. -/
def subElem (p : Params) (dom : Dom) (x y : Elem) : Elem :=
  match dom with
  | .c => { lo := fsub x.lo y.lo, hi := fsub x.hi y.hi }
  | .m => elemOfResidue (subMod p.nttP x.residue y.residue)

/-- `MUL`: in the complex domain each product is rounded before the sum (R161). -/
def mulElem (p : Params) (dom : Dom) (x y : Elem) : Elem :=
  match dom with
  | .c => { lo := fsub (fmul x.lo y.lo) (fmul x.hi y.hi), hi := fadd (fmul x.lo y.hi) (fmul x.hi y.lo) }
  | .m => elemOfResidue (mulMod p.nttP x.residue y.residue)

/-- `SCALE` by `1/n` (R161, R165, R173). -/
def scaleElem (p : Params) (dom : Dom) (x : Elem) (n : Nat) : Elem :=
  match dom with
  | .c => { lo := fdiv x.lo (floatOfInt n), hi := fdiv x.hi (floatOfInt n) }
  | .m => elemOfResidue (mulMod p.nttP x.residue (invMod p.nttP n))

/-- `ROOT(dir, 2^j)` (R162, R163). -/
def rootElem (p : Params) (dom : Dom) (dir : Dir) (j : Nat) : Elem :=
  match dom with
  | .c => rootComplex dir j
  | .m => elemOfResidue (rootModular p dir j)

/-! ### Conversions -/

/-- `TOSEQ(dom, d)` of R221. -/
def toSeq (p : Params) (dom : Dom) (d : Int) : Elem :=
  match dom with
  | .c => { lo := floatOfInt d, hi := 0 }
  | .m => elemOfResidue (Int.fmod d p.nttP).toNat

/-- A sequence element as a digit: `ROUND` of the real part (R222), or the residue (R223). -/
def toDigit (dom : Dom) (lo : Word) : Option Int :=
  match dom with
  | .c => roundToDigit lo
  | .m => some (lo.toNat : Int)

end Sys2Proof.Machine
end

