-- ==== Sys2Proof/Machine/Convert.lean ====
section
/-! DEFINITION. LOADSEQ and STOREDIG (spec/43_convert.md R220, R225, R226). -/

namespace Sys2Proof.Machine

/-- `LOADSEQ(dom, logn, x, y)` of R220. -/
def cmdLoadseq (dom : Dom) (logn : Nat) (x y : BufIx) (s : State) : CmdResult :=
  let len := s.len y
  let n := 2 ^ logn
  if s.cfg.nMax < len then .error .len s
  else if limit s.cfg dom < logn then .error .size s
  else if n < len then .error .size s
  else
    match s.digits y len with
    | none => .fault .unwrittenRead
    | some ds => .ok (s.writeElems x ((ds ++ List.replicate (n - len) 0).map (toSeq s.cfg dom)))

/-- `ROUND` or the residue of every element, when none fails (R225). -/
def storedDigits (dom : Dom) : List Elem → Option (List Int)
  | [] => some []
  | e :: es =>
    match toDigit dom e.lo, storedDigits dom es with
    | some d, some ds => some (d :: ds)
    | _, _ => none

/-- `STOREDIG(dom, logn, x, y)` of R225.
Only the low words are read: the imaginary part and the modular high word are ignored. -/
def cmdStoredig (dom : Dom) (logn : Nat) (x y : BufIx) (s : State) : CmdResult :=
  let n := 2 ^ logn
  if limit s.cfg dom < logn then .error .size s
  else
    match s.elems .m y n with
    | none => .fault .unwrittenRead
    | some es =>
      if residuesLegal s.cfg dom es then
        match storedDigits dom es with
        | none => .error .round s
        | some ds => .ok ((s.writeDigits x ds).setLen x n)
      else .error .residue s

/-- LOADSEQ and its completion. -/
def execLoadseq (dom : Dom) (logn : Nat) (x y : BufIx) (s : State) : Host.Outcome State Fault Refusal :=
  (cmdLoadseq dom logn x y s).finish

/-- STOREDIG and its completion. -/
def execStoredig (dom : Dom) (logn : Nat) (x y : BufIx) (s : State) : Host.Outcome State Fault Refusal :=
  (cmdStoredig dom logn x y s).finish

end Sys2Proof.Machine
end

