-- ==== Sys2Proof/Machine/Flags.lean ====
section
/-! DEFINITION. The flags: STATUS, CTRL, IRQ (spec/10_state.md R36, R37, R46) and the sign rule of NORM (spec/40_normalize.md R134). -/

namespace Sys2Proof.Machine

/-- The number of an error code (R270). -/
def ErrCode.number : ErrCode → Nat
  | .none => 0
  | .badcmd => 1
  | .size => 2
  | .len => 3
  | .capacity => 4
  | .overflow => 5
  | .round => 6
  | .residue => 7

/-- A flag as a bit. -/
def bitOf (b : Bool) : Nat := if b then 1 else 0

/-- `STATUS.BUSY`: 1 exactly when the phase is `Busy(w)` (R37). -/
def State.busy (s : State) : Bool :=
  match s.phase with
  | .idle => false
  | .busy _ => true

/-- What a read of STATUS returns (R37). -/
def State.statusWord (s : State) : Word :=
  BitVec.ofNat 64 (bitOf s.busy + 2 * bitOf s.done + 4 * bitOf s.ovr + 16 * s.err.number)

/-- What a read of CTRL returns: `IE` alone; SRST reads 0 (R36). -/
def State.ctrlWord (s : State) : Word := BitVec.ofNat 64 (bitOf s.ie)

/-- The interrupt output (R46). -/
def State.irq (s : State) : Bool := s.ie && s.done

/-- A write of STATUS clears DONE and OVR where a 1 is written (R37). -/
def State.writeStatus (s : State) (v : Word) : State :=
  { s with done := s.done && !v.getLsbD 1, ovr := s.ovr && !v.getLsbD 2 }

/-- The sign NORM leaves: non-negative for zero, else flipped when the raw digits were negative (R134). -/
def normSign (zero old neg : Bool) : Bool := if zero then false else old ^^ neg

end Sys2Proof.Machine
end

