-- ==== Sys2Proof/Machine/Normalize.lean ====
section
/-! DEFINITION. NORM (spec/40_normalize.md R130 to R139). Digits are listed least significant first. -/

namespace Sys2Proof.Machine

/-- The linear pass of phase 1 (R131) with the carry into the first digit; `none` when a carry sum
leaves `int64`. The last digit keeps its sum. -/
def carryPass : Int → List Int → Option (List Int)
  | _, [] => some []
  | c, [d] => if inInt64 (d + c) then some [d + c] else none
  | c, d :: e :: ds =>
    if inInt64 (d + c) then
      match carryPass (Int.tdiv (d + c) 10) (e :: ds) with
      | some t => some (Int.tmod (d + c) 10 :: t)
      | none => none
    else none

/-- The overflow extension of phase 1 (R131) of a top digit with `room` entries left above it: the
digits that replace it, `none` where another entry is needed and none is left.
The fuel 20 of `phase1` is enough for every `int64` (R137; log 13). -/
def extendTop : Nat → Nat → Int → Option (List Int)
  | 0, _, top => some [top]
  | fuel + 1, room, top =>
    if 9 < top.natAbs then
      match room with
      | 0 => none
      | room' + 1 =>
        match extendTop fuel room' (Int.tdiv top 10) with
        | some t => some (Int.tmod top 10 :: t)
        | none => none
    else some [top]

/-- How phase 1 ends. -/
inductive Phase1Result where
  | ok (t : List Int)
  | overflow
  | capacity
  deriving DecidableEq, Repr

/-- `Phase1(t, L)` of R131 for a nonempty `t`, with `nMax` the capacity. -/
def phase1 (nMax : Nat) (t : List Int) : Phase1Result :=
  match carryPass 0 t with
  | none => .overflow
  | some u =>
    match extendTop 20 (nMax - t.length) (u.getLastD 0) with
    | none => .capacity
    | some top => .ok (u.dropLast ++ top)

/-- The most significant nonzero digit, 0 if there is none (R132). -/
def topDigit : List Int → Int
  | [] => 0
  | d :: ds => if topDigit ds = 0 then d else topDigit ds

/-- The borrow pass of phase 2 (R132) with the carry `c`. -/
def borrowPass : Int → List Int → List Int
  | _, [] => []
  | c, d :: ds => Int.fmod (d + c) 10 :: borrowPass (Int.fdiv (d + c) 10) ds

/-- `neg` of R132: the value of the digits is negative. -/
def rawNegative (t : List Int) : Bool := decide (topDigit t < 0)

/-- `Phase2(t, L)` of R132, the digits. -/
def phase2 (t : List Int) : List Int :=
  borrowPass 0 (if rawNegative t then t.map fun d => -d else t)

/-- How many entries reach up to the last nonzero one. -/
def significant : List Int → Nat
  | [] => 0
  | d :: ds => if significant ds = 0 then (if d = 0 then 0 else 1) else significant ds + 1

/-- `Ls` of R130 and R133: the significant length, at least 1. -/
def sigLength (t : List Int) : Nat := max 1 (significant t)

/-- The digits NORM works on: an empty buffer is the single digit 0 (R133, R137). -/
def normInput (ds : List Int) : List Int := if ds = [] then [0] else ds

/-- The commit of R133 for the digits `t` of phase 2: the significant digits, zeros up to
`max(cap, Lext)`, the length and the sign. -/
def commitNorm (x : BufIx) (t : List Int) (neg : Bool) (s : State) : State :=
  let ls := sigLength t
  let cap := nextPow2 ls
  let zero := decide (significant t = 0)
  ((s.writeDigits x (t.take ls ++ List.replicate (max cap t.length - ls) 0)).setLen x cap).setSign x
    (normSign zero (s.sign x) neg)

/-- `NORM(x)` of R133: nothing is written on an error (R136). -/
def cmdNorm (x : BufIx) (s : State) : CmdResult :=
  let len := s.len x
  if s.cfg.nMax < len then .error .len s
  else
    match s.digits x len with
    | none => .fault .unwrittenRead
    | some ds =>
      match phase1 s.cfg.nMax (normInput ds) with
      | .overflow => .error .overflow s
      | .capacity => .error .capacity s
      | .ok t => .ok (commitNorm x (phase2 t) (rawNegative t) s)

/-- NORM and its completion. -/
def execNorm (x : BufIx) (s : State) : Host.Outcome State Fault Refusal := (cmdNorm x s).finish

end Sys2Proof.Machine
end

