-- ==== Sys2Proof/Machine/Pointwise.lean ====
section
/-! DEFINITION. PMUL and PMAC (spec/42_pointwise.md R200 to R203). -/

namespace Sys2Proof.Machine

/-- `PMUL(dom, logn, x, y, z)` of R200; every element is read before any is written (R201). -/
def cmdPmul (dom : Dom) (logn : Nat) (x y z : BufIx) (s : State) : CmdResult :=
  let n := 2 ^ logn
  if limit s.cfg dom < logn then .error .size s
  else
    match s.elems dom y n, s.elems dom z n with
    | some as, some bs =>
      if residuesLegal s.cfg dom as && residuesLegal s.cfg dom bs then
        .ok (s.writeElems x (List.zipWith (mulElem s.cfg dom) as bs))
      else .error .residue s
    | _, _ => .fault .unwrittenRead

/-- `PMAC(dom, logn, x, y, z)` of R203: the product is rounded before it is added. -/
def cmdPmac (dom : Dom) (logn : Nat) (x y z : BufIx) (s : State) : CmdResult :=
  let n := 2 ^ logn
  if limit s.cfg dom < logn then .error .size s
  else
    match s.elems dom x n, s.elems dom y n, s.elems dom z n with
    | some accs, some as, some bs =>
      if residuesLegal s.cfg dom accs && residuesLegal s.cfg dom as && residuesLegal s.cfg dom bs then
        .ok (s.writeElems x
          (List.zipWith (addElem s.cfg dom) accs (List.zipWith (mulElem s.cfg dom) as bs)))
      else .error .residue s
    | _, _, _ => .fault .unwrittenRead

/-- PMUL and its completion. -/
def execPmul (dom : Dom) (logn : Nat) (x y z : BufIx) (s : State) : Host.Outcome State Fault Refusal :=
  (cmdPmul dom logn x y z s).finish

/-- PMAC and its completion. -/
def execPmac (dom : Dom) (logn : Nat) (x y z : BufIx) (s : State) : Host.Outcome State Fault Refusal :=
  (cmdPmac dom logn x y z s).finish

end Sys2Proof.Machine
end

