-- ==== Sys2Proof/Machine/Transform.lean ====
section
/-! DEFINITION. FWD and INV (spec/41_transform.md R160 to R173). -/

namespace Sys2Proof.Machine

/-- The even-indexed entries (R166). -/
def evens {α : Type} : List α → List α
  | [] => []
  | [a] => [a]
  | a :: _ :: as => a :: evens as

/-- The odd-indexed entries (R166). -/
def odds {α : Type} : List α → List α
  | [] => []
  | [_] => []
  | _ :: b :: as => b :: odds as

/-- The butterfly pass from twiddle `w` on (R166, R167): the pairs `(y[j], y[j + m/2])`. -/
def butterflies (p : Params) (dom : Dom) (r : Elem) : Elem → List Elem → List Elem → List (Elem × Elem)
  | w, a :: as, b :: bs =>
    let t := mulElem p dom w b
    (addElem p dom a t, subElem p dom a t) :: butterflies p dom r (mulElem p dom w r) as bs
  | _, _, _ => []

/-- `T(a, 2^j, dom, dir)` of R166. -/
def transform (p : Params) (dom : Dom) (dir : Dir) : Nat → List Elem → List Elem
  | 0, a => a
  | j + 1, a =>
    let y0 := transform p dom dir j (evens a)
    let y1 := transform p dom dir j (odds a)
    let pairs := butterflies p dom (rootElem p dom dir (j + 1)) (oneElem dom) y0 y1
    pairs.map Prod.fst ++ pairs.map Prod.snd

/-- `FWD(dom, logn, x)` of R170. -/
def cmdFwd (dom : Dom) (logn : Nat) (x : BufIx) (s : State) : CmdResult :=
  if limit s.cfg dom < logn then .error .size s
  else
    match s.elems dom x (2 ^ logn) with
    | none => .fault .unwrittenRead
    | some a =>
      if residuesLegal s.cfg dom a then .ok (s.writeElems x (transform s.cfg dom .fwd logn a))
      else .error .residue s

/-- `INV(dom, logn, x)` of R172, scaled once at the end (R173). -/
def cmdInv (dom : Dom) (logn : Nat) (x : BufIx) (s : State) : CmdResult :=
  let n := 2 ^ logn
  if limit s.cfg dom < logn then .error .size s
  else
    match s.elems dom x n with
    | none => .fault .unwrittenRead
    | some a =>
      if residuesLegal s.cfg dom a then
        .ok (s.writeElems x ((transform s.cfg dom .inv logn a).map fun y => scaleElem s.cfg dom y n))
      else .error .residue s

/-- FWD and its completion. -/
def execFwd (dom : Dom) (logn : Nat) (x : BufIx) (s : State) : Host.Outcome State Fault Refusal :=
  (cmdFwd dom logn x s).finish

/-- INV and its completion. -/
def execInv (dom : Dom) (logn : Nat) (x : BufIx) (s : State) : Host.Outcome State Fault Refusal :=
  (cmdInv dom logn x s).finish

end Sys2Proof.Machine
end

