-- ==== Sys2Proof/Machine/Multiply.lean ====
section
/-! DEFINITION. MUL (spec/44_multiply.md R240 to R243), by its expansion into the other commands. -/

namespace Sys2Proof.Machine

/-- `k = log2(n)` of R240, `n = nextpow2(DLEN[y] + DLEN[z] + 1)`. -/
def mulLogn (s : State) (y z : BufIx) : Nat := ceilLog2 (s.len y + s.len z + 1)

/-- The product sequence of R240, up to INV: `S0` holds the inverse transform of the product. -/
def mulSequence (dom : Dom) (k : Nat) (y z : BufIx) (s : State) : CmdResult :=
  ((((((cmdLoadseq dom k 0 y s).andThen (cmdLoadseq dom k 1 z)).andThen
    (cmdFwd dom k 0)).andThen (cmdFwd dom k 1)).andThen
    (cmdPmul dom k 0 0 1)).andThen (cmdInv dom k 0))

/-- `MUL(dom, x, y, z)` of R240; an error inside the expansion keeps the writes before it (R242). -/
def cmdMul (dom : Dom) (x y z : BufIx) (s : State) : CmdResult :=
  let k := mulLogn s y z
  if s.cfg.nMax < s.len y ∨ s.cfg.nMax < s.len z then .error .len s
  else if limit s.cfg dom < k then .error .size s
  else
    let sign := s.sign y ^^ s.sign z
    (((mulSequence dom k y z s).andThen (cmdStoredig dom k x 0)).andThen
      fun t => .ok (t.setSign x sign)).andThen (cmdNorm x)

/-- MUL and its completion. -/
def execMul (dom : Dom) (x y z : BufIx) (s : State) : Host.Outcome State Fault Refusal :=
  (cmdMul dom x y z s).finish

end Sys2Proof.Machine
end

