-- ==== Sys2Proof/Machine/Dispatch.lean ====
section
/-! DEFINITION. The one dispatch from commands to their meanings (spec/45_control.md R262). -/

namespace Sys2Proof.Machine

def exec (i : Instr) (s : State) : Host.Outcome State Fault Refusal :=
  match i with
  | .nop => Sys2Proof.Machine.execNop s
  | .loadseq dom logn x y => Sys2Proof.Machine.execLoadseq dom logn x y s
  | .storedig dom logn x y => Sys2Proof.Machine.execStoredig dom logn x y s
  | .fwd dom logn x => Sys2Proof.Machine.execFwd dom logn x s
  | .inv dom logn x => Sys2Proof.Machine.execInv dom logn x s
  | .pmul dom logn x y z => Sys2Proof.Machine.execPmul dom logn x y z s
  | .pmac dom logn x y z => Sys2Proof.Machine.execPmac dom logn x y z s
  | .norm x => Sys2Proof.Machine.execNorm x s
  | .mul dom x y z => Sys2Proof.Machine.execMul dom x y z s

end Sys2Proof.Machine
end

