-- ==== Sys2Proof/WellFormed.lean ====
section
/-! DEFINITION. Which syntax terms have an encoding (spec/30_encoding.md R104, R110). -/

namespace Sys2Proof

/-- LOGN is a 5-bit field (R104). -/
def lognFits (logn : Nat) : Bool := decide (logn < 32)

/-- A command is well formed when its LOGN fits the field.
Buffer indices and the domain are bounded by their types. -/
def Instr.wf : Instr → Bool
  | .nop => true
  | .loadseq _ logn _ _ => lognFits logn
  | .storedig _ logn _ _ => lognFits logn
  | .fwd _ logn _ => lognFits logn
  | .inv _ logn _ => lognFits logn
  | .pmul _ logn _ _ _ => lognFits logn
  | .pmac _ logn _ _ _ => lognFits logn
  | .norm _ => true
  | .mul _ _ _ _ => true

end Sys2Proof
end

