-- ==== Sys2Proof/Decode.lean ====
section
/-! DEFINITION. Decoding and encoding of command words (spec/30_encoding.md R101 to R109). -/

namespace Sys2Proof

/-- Why a word is illegal (R108). Every reason completes with `ERR_BADCMD`. -/
inductive DecodeReject where
  /-- A reserved bit of R101 is set. -/
  | reservedBit
  /-- OPC is 0x09 to 0xFF. -/
  | reservedOpcode
  /-- A field that R105 shows as 0 for the opcode is not 0. -/
  | nonzeroField
  deriving DecidableEq, Repr

/-- What the decoder answers. -/
inductive Decoded where
  | ok (i : Instr)
  | reject (r : DecodeReject)
  deriving DecidableEq, Repr

/-- The field of `len` bits from bit `lo` of a word, as an unsigned number (R101, R106). -/
def field (w : Word) (lo len : Nat) : Nat := w.toNat / 2 ^ lo % 2 ^ len

/-- DOM: 0 is the complex path, 1 the modular path (R103). -/
def domOfBit (b : Nat) : Dom := if b = 0 then .c else .m

/-- The DOM bit of a domain (R103). -/
def Dom.bit : Dom → Nat
  | .c => 0
  | .m => 1

/-- A 2-bit field as a buffer index (R105). -/
def bufIxOf (n : Nat) : BufIx := Fin.ofNat 4 n

/-- The check of R107 that the fields an opcode reserves are 0. -/
def requireZero (fields : List Nat) (i : Instr) : Decoded :=
  if fields.all (· == 0) then .ok i else .reject .nonzeroField

/-- `Decode(w)` of R107. -/
def decode (w : Word) : Decoded :=
  let dom := domOfBit (field w 8 1)
  let logn := field w 16 5
  let x := bufIxOf (field w 24 2)
  let y := bufIxOf (field w 26 2)
  let z := bufIxOf (field w 28 2)
  if field w 9 7 ≠ 0 ∨ field w 21 3 ≠ 0 ∨ field w 30 34 ≠ 0 then .reject .reservedBit
  else match field w 0 8 with
    | 0 => requireZero [field w 8 1, field w 16 5, field w 24 2, field w 26 2, field w 28 2] .nop
    | 1 => requireZero [field w 28 2] (.loadseq dom logn x y)
    | 2 => requireZero [field w 28 2] (.storedig dom logn x y)
    | 3 => requireZero [field w 26 2, field w 28 2] (.fwd dom logn x)
    | 4 => requireZero [field w 26 2, field w 28 2] (.inv dom logn x)
    | 5 => requireZero [] (.pmul dom logn x y z)
    | 6 => requireZero [] (.pmac dom logn x y z)
    | 7 => requireZero [field w 8 1, field w 16 5, field w 26 2, field w 28 2] (.norm x)
    | 8 => requireZero [field w 16 5] (.mul dom x y z)
    | _ => .reject .reservedOpcode

/-- `OPC` of a command (R102). -/
def Instr.opcode : Instr → Nat
  | .nop => 0
  | .loadseq .. => 1
  | .storedig .. => 2
  | .fwd .. => 3
  | .inv .. => 4
  | .pmul .. => 5
  | .pmac .. => 6
  | .norm .. => 7
  | .mul .. => 8

/-- The word of R109 from its fields, each below the width of its field (so the sum is their OR). -/
def packFields (opc dom logn x y z : Nat) : Word :=
  BitVec.ofNat 64 (opc + dom * 2 ^ 8 + logn * 2 ^ 16 + x * 2 ^ 24 + y * 2 ^ 26 + z * 2 ^ 28)

/-- The encoding of a well-formed command (R109), unused fields 0 (R105). -/
def encode : Instr → Word
  | .nop => packFields 0 0 0 0 0 0
  | .loadseq d n x y => packFields 1 d.bit n x y 0
  | .storedig d n x y => packFields 2 d.bit n x y 0
  | .fwd d n x => packFields 3 d.bit n x 0 0
  | .inv d n x => packFields 4 d.bit n x 0 0
  | .pmul d n x y z => packFields 5 d.bit n x y z
  | .pmac d n x y z => packFields 6 d.bit n x y z
  | .norm x => packFields 7 0 0 x 0 0
  | .mul d x y z => packFields 8 d.bit 0 x y z

/-- The (mask, match) columns of spec/opcode_table.json, row by row. -/
def opcodeRows : List (Word × Word) :=
  [ (0xFFFFFFFFFFFFFFFF, 0x0000000000000000),
    (0xFFFFFFFFF0E0FEFF, 0x0000000000000001),
    (0xFFFFFFFFF0E0FEFF, 0x0000000000000002),
    (0xFFFFFFFFFCE0FEFF, 0x0000000000000003),
    (0xFFFFFFFFFCE0FEFF, 0x0000000000000004),
    (0xFFFFFFFFC0E0FEFF, 0x0000000000000005),
    (0xFFFFFFFFC0E0FEFF, 0x0000000000000006),
    (0xFFFFFFFFFCFFFFFF, 0x0000000000000007),
    (0xFFFFFFFFC0FFFEFF, 0x0000000000000008) ]

/-- The command word whose low `nbits` bits are `w`, every bit above them 0. -/
def tableWord (nbits w : Nat) : Word := BitVec.ofNat 64 (w % 2 ^ nbits)

/-- The instruction of a decoder's answer, if it gives one. -/
def Decoded.instr? : Decoded → Option Instr
  | .ok i => some i
  | .reject _ => none

/-- What the decoder reads from an opcode-table word. -/
def decodeTableWord (nbits w : Nat) : Option Instr := (decode (tableWord nbits w)).instr?

end Sys2Proof
end

