-- ==== Sys2Proof/Machine/HostPort.lean ====
section
/-! DEFINITION. The host's port: the address map, reads, writes and the resets
(spec/20_memory.md R70 to R79, spec/10_state.md R32 to R40, spec/70_reset_and_hazards.md R310 to R320). -/

namespace Sys2Proof.Machine

/-- What an aligned offset of the aperture names (R71 and the register map of spec/10_state.md). -/
inductive Target where
  | id
  | param
  | nttP
  | nttG
  | ctrl
  | status
  | cmd
  | dlen (k : BufIx)
  | dsign (k : BufIx)
  /-- Entry `i` of the window of `Dk`, `i` any number that fits the window. -/
  | digit (k : BufIx) (i : Nat)
  /-- Element `i` of the window of `Sk`, its high word or its low word. -/
  | elem (k : BufIx) (i : Nat) (high : Bool)
  | reserved
  deriving DecidableEq, Repr

/-- The register at an offset below 0x1000. -/
def locateRegister (off : Nat) : Target :=
  match off / 8 with
  | 0 => .id
  | 1 => .param
  | 2 => .nttP
  | 3 => .nttG
  | 4 => .ctrl
  | 5 => .status
  | 6 => .cmd
  | 8 => .dlen 0
  | 9 => .dlen 1
  | 10 => .dlen 2
  | 11 => .dlen 3
  | 12 => .dsign 0
  | 13 => .dsign 1
  | 14 => .dsign 2
  | 15 => .dsign 3
  | _ => .reserved

/-- The address map (R71, with spec/90_conflicts.md C6). -/
def locate (off : Nat) : Target :=
  if off < 0x1000 then locateRegister off
  else if off < 0x10000000 then .reserved
  else if off < 0x20000000 then
    .digit (bufIxOf ((off - 0x10000000) / 0x04000000)) ((off - 0x10000000) % 0x04000000 / 8)
  else if off < 0x40000000 then
    .elem (bufIxOf ((off - 0x20000000) / 0x08000000)) ((off - 0x20000000) % 0x08000000 / 16)
      (decide (off % 16 / 8 = 1))
  else .reserved

/-- The accesses R77 and R320 forbid while BUSY: buffer windows, DLEN and DSIGN (log 10). -/
def Target.guarded : Target → Bool
  | .dlen _ => true
  | .dsign _ => true
  | .digit _ _ => true
  | .elem _ _ _ => true
  | _ => false

/-- ID (R32). -/
def idWord : Word := 0x4646544700000001

/-- PARAM (R33). -/
def paramWord (p : Params) : Word :=
  BitVec.ofNat 64 (p.log2Nmax % 2 ^ 5 + nttLog2Max p % 2 ^ 5 * 2 ^ 8 + 4 * 2 ^ 16 + 4 * 2 ^ 20)

/-- What an aligned 64-bit read returns; no value where the entry is unwritten (R49, R72).
DESIGN CHOICE (log 23): the NTT_G register holds the low 64 bits of a generator of `2^64` or more. -/
def readTarget (s : State) : Target → Option Word
  | .id => some idWord
  | .param => some (paramWord s.cfg)
  | .nttP => some (BitVec.ofNat 64 s.cfg.nttP)
  | .nttG => some (BitVec.ofNat 64 s.cfg.nttG)
  | .ctrl => some s.ctrlWord
  | .status => some s.statusWord
  | .cmd => some s.curCmd
  | .dlen k => some (BitVec.ofNat 64 (s.len k))
  | .dsign k => some (BitVec.ofNat 64 (bitOf (s.sign k)))
  | .digit k i => if i < s.cfg.nMax then s.digitWord k i else some 0
  | .elem k i high =>
    if i < s.cfg.nMax then (if high then s.elemHi k i else s.elemLo k i) else some 0
  | .reserved => some 0

/-- The bytes of a digit buffer: first address and length (R78). -/
def digitBytes (p : Params) (k : BufIx) : Nat × Nat := (digitAddr k 0, 8 * p.nMax)

/-- The bytes of a sequence buffer: first address and length (R79). -/
def elemBytes (p : Params) (k : BufIx) : Nat × Nat := (elemAddr k 0, 16 * p.nMax)

/-- The write set of a command (R312). -/
def writeSet (p : Params) : Instr → List (Nat × Nat)
  | .nop => []
  | .loadseq _ _ x _ => [elemBytes p x]
  | .storedig _ _ x _ => [digitBytes p x]
  | .fwd _ _ x => [elemBytes p x]
  | .inv _ _ x => [elemBytes p x]
  | .pmul _ _ x _ _ => [elemBytes p x]
  | .pmac _ _ x _ _ => [elemBytes p x]
  | .norm x => [digitBytes p x]
  | .mul _ x _ _ => [elemBytes p 0, elemBytes p 1, digitBytes p x]

/-- The write set of the command in flight (R311, R312); an illegal word has none. -/
def abandonedBytes (s : State) : List (Nat × Nat) :=
  match s.phase with
  | .idle => []
  | .busy w =>
    match decode w with
    | .ok i => writeSet s.cfg i
    | .reject _ => []

/-- Make every range of a list unwritten. -/
def eraseAll (m : Memory) (ranges : List (Nat × Nat)) : Memory :=
  ranges.foldl (fun m r => m.erase r.1 r.2) m

/-- Soft reset (R311). -/
def State.softReset (s : State) : State :=
  { s with phase := .idle, ie := false, done := false, ovr := false, err := .none, curCmd := 0,
           dlen := #v[0, 0, 0, 0], dsign := #v[false, false, false, false],
           mem := eraseAll s.mem (abandonedBytes s) }

/-- Power-on reset (R310) with the inputs that follow it. -/
def State.powerOn (s : State) : State := State.resetWith s.cfg s.events

/-- A write of CMD: acceptance when idle (R261), an overrun when busy (R38). -/
def State.writeCmd (s : State) (v : Word) : State :=
  match s.phase with
  | .idle => s.accept v
  | .busy _ => { s with ovr := true }

/-- A write of CTRL (R36). -/
def State.writeCtrl (s : State) (v : Word) : State :=
  if v.getLsbD 1 then s.softReset else { s with ie := v.getLsbD 0 }

/-- What an aligned 64-bit write does (R36 to R40, R72, R76, R78, R79). -/
def writeTarget (s : State) (v : Word) : Target → State
  | .id => s
  | .param => s
  | .nttP => s
  | .nttG => s
  | .ctrl => s.writeCtrl v
  | .status => s.writeStatus v
  | .cmd => s.writeCmd v
  | .dlen k => s.setLen k v.toNat
  | .dsign k => s.setSign k (v.getLsbD 0)
  | .digit k i =>
    if i < s.cfg.nMax then { s with mem := s.mem.writeWords (digitAddr k i) [v] } else s
  | .elem k i high =>
    if i < s.cfg.nMax then
      { s with mem := s.mem.writeWords (elemAddr k i + if high then 8 else 0) [v] }
    else s
  | .reserved => s

/-- Where a host access goes (R70, R74). -/
inductive Route where
  /-- The address is outside the aperture. -/
  | outside
  /-- Wrong width or misaligned. -/
  | busError
  /-- An aligned 64-bit access. -/
  | reaches (t : Target)
  deriving DecidableEq, Repr

/-- The route of an access of a width in bits to a host address: the aperture is the `2^30` bytes from its base
(R70; log 22 on the width of a host address). -/
def route (p : Params) (width addr : Nat) : Route :=
  if addr < p.apertureBase ∨ p.apertureBase + 2 ^ 30 ≤ addr then .outside
  else if width ≠ 64 ∨ (addr - p.apertureBase) % 8 ≠ 0 then .busError
  else .reaches (locate (addr - p.apertureBase))

/-- A host read: no side effect on the block (R76). -/
def hostRead (s : State) (width addr : Nat) : Host.Outcome State Fault Refusal :=
  match route s.cfg width addr with
  | .outside => .fault .outsideAperture
  | .busError => .next { s with resp := .busError }
  | .reaches t =>
    if s.busy && t.guarded then .refused .hostHazard
    else
      match readTarget s t with
      | none => .fault .unwrittenRead
      | some w => .next { s with resp := .data w }

/-- A host write. -/
def hostWrite (s : State) (width addr : Nat) (v : Word) : Host.Outcome State Fault Refusal :=
  match route s.cfg width addr with
  | .outside => .fault .outsideAperture
  | .busError => .next { s with resp := .busError }
  | .reaches t =>
    if s.busy && t.guarded then .refused .hostHazard
    else .next { writeTarget s v t with resp := .ack }

/-- One host access (R45). -/
def hostAccess (a : HostAccess) (s : State) : Host.Outcome State Fault Refusal :=
  match a with
  | .read width addr => hostRead s width addr
  | .write width addr v => hostWrite s width addr v

end Sys2Proof.Machine
end

