-- ==== Sys2Proof/Machine/Engine.lean ====
section
/-! DEFINITION. The engine's step and the step on one input (spec/45_control.md R262). -/

namespace Sys2Proof.Machine

/-- `EngineStep(Busy(w))` of R262. -/
def engineStep (w : Word) (s : State) : Host.Outcome State Fault Refusal :=
  match decode w with
  | .ok i => exec i s
  | .reject _ => .next (s.complete .badcmd)

/-- The engine's turn: its step is enabled only in phase `Busy` (R45); in `Idle` nothing changes (R284). -/
def engineTurn (s : State) : Host.Outcome State Fault Refusal :=
  match s.phase with
  | .idle => .next s
  | .busy w => engineStep w s

/-- What one input does to a state it has been taken from. -/
def takeEvent (e : Event) (s : State) : Host.Outcome State Fault Refusal :=
  match e with
  | .host a => hostAccess a s
  | .engine => engineTurn s
  | .powerOnReset => .next s.powerOn

/-- The first input taken from the list. -/
def State.dropEvent (s : State) : State := { s with events := s.events.tail }

/-- The state whose next step executes the command word `w`, the word just accepted (R261, R262; log 4). -/
def State.withCommand (s : State) (w : Word) : State :=
  { s.accept w with events := .engine :: s.events }

end Sys2Proof.Machine
end

