-- ==== Sys2Proof/Machine/Step.lean ====
section
/-! DEFINITION. One step of the block and its host (spec/10_state.md R45). -/

namespace Sys2Proof.Machine

/-- The next input is taken; with none left the engine has its turn (log 3). -/
def step (s : State) : Host.Outcome State Fault Refusal :=
  match s.events with
  | [] => engineTurn s
  | e :: _ => takeEvent e s.dropEvent

/-- The state whose next step runs the opcode-table word `w` of `nbits` bits (log 4). -/
def State.withFetchWord (s : State) (nbits w : Nat) : State := s.withCommand (tableWord nbits w)

end Sys2Proof.Machine
end

