-- ==== Sys2Proof/Safety.lean ====
section
/-! DEFINITION. The terms claims are made in: the invariant, frames, canonical digit buffers and their values,
the transform as the spec indexes it, and correct rounding.
Where they can they repeat the spec's own words, not the model's functions. -/

namespace Sys2Proof.Machine

/-! ### The invariant of every step -/

/-- `a` is a byte of a buffer entry below the capacity (R78, R79). -/
def inBuffers (p : Params) (a : Nat) : Prop :=
  ∃ k : BufIx, (digitAddr k 0 ≤ a ∧ a < digitAddr k 0 + 8 * p.nMax) ∨
    (elemAddr k 0 ≤ a ∧ a < elemAddr k 0 + 16 * p.nMax)

/-- What holds at reset and is kept by every step. -/
structure State.Inv (s : State) : Prop where
  /-- The capacity is legal (R7). -/
  capacity : 1 ≤ s.cfg.log2Nmax ∧ s.cfg.log2Nmax ≤ 23
  /-- Memory has its canonical form. -/
  memory : s.mem.wf
  /-- Only buffer entries hold anything. -/
  buffers : ∀ c ∈ s.mem, inBuffers s.cfg c.1
  /-- While BUSY, CUR_CMD is the word in flight, DONE and ERR are 0 (R37, R38, R261). -/
  inFlight : ∀ w, s.phase = .busy w → s.curCmd = w ∧ s.done = false ∧ s.err = .none

/-! ### Frames -/

/-- `t` is a completion of a command issued in `s` with the code `e` (R263): the phase, DONE and ERR
as completion sets them, and every field but DLEN, DSIGN and memory as it was. -/
structure Completed (s t : State) (e : ErrCode) : Prop where
  phase : t.phase = .idle
  done : t.done = true
  err : t.err = e
  cfg : t.cfg = s.cfg
  ie : t.ie = s.ie
  ovr : t.ovr = s.ovr
  curCmd : t.curCmd = s.curCmd
  events : t.events = s.events
  resp : t.resp = s.resp

/-- Every DLEN and DSIGN is as it was. -/
def SameLengths (s t : State) : Prop := t.dlen = s.dlen ∧ t.dsign = s.dsign

/-- Every DLEN and DSIGN but those of `Dx` is as it was. -/
def SameOtherLengths (s t : State) (x : BufIx) : Prop :=
  ∀ k, k ≠ x → t.len k = s.len k ∧ t.sign k = s.sign k

/-- Every byte reads as it did. -/
def SameMemory (s t : State) : Prop := ∀ b, t.mem.read b = s.mem.read b

/-- Every byte outside the `len` addresses from `a` up reads as it did. -/
def SameOutside (s t : State) (a len : Nat) : Prop :=
  ∀ b, b < a ∨ a + len ≤ b → t.mem.read b = s.mem.read b

/-- `b` is a byte of `Sx`. -/
def inSequence (p : Params) (x : BufIx) (b : Nat) : Prop := elemAddr x 0 ≤ b ∧ b < elemAddr x p.nMax

/-- `b` is a byte of `Dx`. -/
def inDigits (p : Params) (x : BufIx) (b : Nat) : Prop := digitAddr x 0 ≤ b ∧ b < digitAddr x p.nMax

/-- `b` is a byte of the write set of a command, as R312 lists it. -/
def inWriteSet (p : Params) (i : Instr) (b : Nat) : Prop :=
  match i with
  | .nop => False
  | .loadseq _ _ x _ => inSequence p x b
  | .storedig _ _ x _ => inDigits p x b
  | .fwd _ _ x => inSequence p x b
  | .inv _ _ x => inSequence p x b
  | .pmul _ _ x _ _ => inSequence p x b
  | .pmac _ _ x _ _ => inSequence p x b
  | .norm x => inDigits p x b
  | .mul _ x _ _ => inSequence p 0 b ∨ inSequence p 1 b ∨ inDigits p x b

/-! ### Digit buffers (R41, R130) -/

/-- `sum d[i] * 10^i`. -/
def digitsValue : List Int → Int
  | [] => 0
  | d :: ds => d + 10 * digitsValue ds

/-- The sum the linear pass of phase 1 forms at position `i` (R131), without its check. -/
def carrySum (d : Nat → Int) : Nat → Int
  | 0 => d 0
  | i + 1 => d (i + 1) + Int.tdiv (carrySum d i) 10

/-- `(-1)^DSIGN[k] * sum D[k][i] * 10^i` over `i < DLEN[k]` (R41), when the entries are written. -/
def State.value (s : State) (k : BufIx) : Option Int :=
  (s.digits k (s.len k)).map fun ds => if s.sign k then -digitsValue ds else digitsValue ds

/-- `ls` is the significant length of `ds` (R130). -/
def IsSigLength (ds : List Int) (ls : Nat) : Prop :=
  ((∀ d ∈ ds, d = 0) ∧ ls = 1) ∨
    (1 ≤ ls ∧ ls ≤ ds.length ∧ ds.getD (ls - 1) 0 ≠ 0 ∧ ∀ i, ls ≤ i → ds.getD i 0 = 0)

/-- `y` is the least power of two that is at least `x` (R12). -/
def IsNextPow2 (x y : Nat) : Prop := (∃ j, y = 2 ^ j) ∧ x ≤ y ∧ ∀ j, x ≤ 2 ^ j → y ≤ 2 ^ j

/-- `Dk` is canonical (R130). -/
def State.canonical (s : State) (k : BufIx) : Prop :=
  ∃ ds, s.digits k (s.len k) = some ds ∧
    (∃ j, s.len k = 2 ^ j) ∧ 1 ≤ s.len k ∧ s.len k ≤ s.cfg.nMax ∧
    (∀ d ∈ ds, 0 ≤ d ∧ d ≤ 9) ∧
    (∃ ls, IsSigLength ds ls ∧ IsNextPow2 ls (s.len k)) ∧
    ((∀ d ∈ ds, d = 0) → s.sign k = false)

/-! ### The transform, indexed as in R166, and the iterative network of R176 -/

/-- `w_j` of R167. -/
def twiddle (p : Params) (dom : Dom) (r : Elem) : Nat → Elem
  | 0 => oneElem dom
  | j + 1 => mulElem p dom (twiddle p dom r j) r

/-- `y[i]` of `T(a, 2^j, dom, dir)` as R166 writes it. -/
def indexTransform (p : Params) (dom : Dom) (dir : Dir) : Nat → (Nat → Elem) → Nat → Elem
  | 0, a, i => a i
  | j + 1, a, i =>
    let h := 2 ^ j
    let y0 := indexTransform p dom dir j fun i => a (2 * i)
    let y1 := indexTransform p dom dir j fun i => a (2 * i + 1)
    let w := twiddle p dom (rootElem p dom dir (j + 1))
    if i < h then addElem p dom (y0 i) (mulElem p dom (w i) (y1 i))
    else subElem p dom (y0 (i - h)) (mulElem p dom (w (i - h)) (y1 (i - h)))

/-- The reversal of the low `k` bits of `i`. -/
def bitReverse : Nat → Nat → Nat
  | 0, _ => 0
  | k + 1, i => i % 2 * 2 ^ k + bitReverse k (i / 2)

/-- One stage of butterflies of size `2^(j+1)` (R176). -/
def butterflyStage (p : Params) (dom : Dom) (dir : Dir) (j : Nat) (b : Nat → Elem) (i : Nat) : Elem :=
  let h := 2 ^ j
  let q := i % (2 * h)
  let w := twiddle p dom (rootElem p dom dir (j + 1))
  if q < h then addElem p dom (b i) (mulElem p dom (w q) (b (i + h)))
  else subElem p dom (b (i - h)) (mulElem p dom (w (q - h)) (b i))

/-- The first `k` stages of the network. -/
def butterflyStages (p : Params) (dom : Dom) (dir : Dir) : Nat → (Nat → Elem) → Nat → Elem
  | 0, b => b
  | j + 1, b => butterflyStage p dom dir j (butterflyStages p dom dir j b)

/-- The iterative transform of R176: bit reversal, then `k` stages. -/
def iterativeTransform (p : Params) (dom : Dom) (dir : Dir) (k : Nat) (a : Nat → Elem) (i : Nat) : Elem :=
  butterflyStages p dom dir k (fun i => a (bitReverse k i)) i

/-! ### Correct rounding (R13) -/

/-- The pattern is neither an infinity nor a NaN. -/
def isFiniteFloat (w : Word) : Prop := w.toNat / 2 ^ 52 % 2 ^ 11 ≠ 2047

/-- The pattern is a NaN. -/
def isNaNFloat (w : Word) : Prop := w.toNat / 2 ^ 52 % 2 ^ 11 = 2047 ∧ w.toNat % 2 ^ 52 ≠ 0

/-- The infinity of a sign. -/
def infinity (neg : Bool) : Word := if neg then 0xFFF0000000000000 else 0x7FF0000000000000

/-- The zero of a sign. -/
def signedZero (neg : Bool) : Word := if neg then 0x8000000000000000 else 0

/-- The sign bit. -/
def floatSign (w : Word) : Bool := w.getLsbD 63

/-- The real number a finite binary64 pattern stands for. -/
def floatValue (w : Word) : ℚ :=
  let exponent := w.toNat / 2 ^ 52 % 2 ^ 11
  let fraction := w.toNat % 2 ^ 52
  let significand : Nat := if exponent = 0 then fraction else 2 ^ 52 + fraction
  (if floatSign w then -1 else 1) * (significand : ℚ) * (2 : ℚ) ^ (((max exponent 1 : Nat) : ℤ) - 1075)

/-- `w` is `x` rounded to binary64, nearest, ties to even: below the overflow threshold a finite value
no other is nearer than, even where another is as near; from the threshold on the infinity of the sign of `x`. -/
def RoundsTo (x : ℝ) (w : Word) : Prop :=
  if |x| < 2 ^ 1024 - 2 ^ 970 then
    isFiniteFloat w ∧
      (∀ v, isFiniteFloat v → |(floatValue w : ℝ) - x| ≤ |(floatValue v : ℝ) - x|) ∧
      (∀ v, isFiniteFloat v → |(floatValue v : ℝ) - x| = |(floatValue w : ℝ) - x| →
        floatValue v = floatValue w ∨ w.toNat % 2 = 0)
  else w = if x < 0 then 0xFFF0000000000000 else 0x7FF0000000000000

/-- `w = b64(x)` (R13): `x` rounded, an exact zero giving `+0.0`. -/
def IsB64 (x : ℝ) (w : Word) : Prop := RoundsTo x w ∧ (x = 0 → w = 0)

end Sys2Proof.Machine
end

