-- ==== Sys2Proof/Certificates/Slice0/Obligations.lean ====
section
/-! DEFINITION. The statements about the block, for the provers. -/

open Sys2Proof Sys2Proof.Machine

/-! ### Encoding (spec/30_encoding.md) -/

/-- R109 with R107: decoding the encoding of a command gives the command back, for every operand. -/
def Obligations.DecodeOfEncode : Prop :=
  ∀ i : Instr, i.wf = true → decode (encode i) = .ok i

/-- R107, R109: a word that decodes is the encoding of what it decodes to. -/
def Obligations.EncodeOfDecode : Prop :=
  ∀ (w : Word) (i : Instr), decode w = .ok i → i.wf = true ∧ encode i = w

/-- R107, last sentence: a word decodes exactly when one row of the opcode table matches it, and no two rows match. -/
def Obligations.DecodesExactlyTheTableRows : Prop :=
  ∀ w : Word,
    ((∃ i, decode w = .ok i) ↔ ∃ r ∈ opcodeRows, w &&& r.1 = r.2) ∧
    ∀ r ∈ opcodeRows, ∀ q ∈ opcodeRows, w &&& r.1 = r.2 → w &&& q.1 = q.2 → r = q

/-- Words written out bit by bit from R101 and R105, and the commands they stand for. -/
def Obligations.SpecWordsDecode : Prop :=
  decode 0x0000000000000000 = .ok .nop ∧
  decode 0x000000000D020101 = .ok (.loadseq .m 2 1 3) ∧
  decode 0x0000000002030002 = .ok (.storedig .c 3 2 0) ∧
  decode 0x0000000001030003 = .ok (.fwd .c 3 1) ∧
  decode 0x0000000002020104 = .ok (.inv .m 2 2) ∧
  decode 0x0000000010030005 = .ok (.pmul .c 3 0 0 1) ∧
  decode 0x0000000024000006 = .ok (.pmac .c 0 0 1 2) ∧
  decode 0x0000000002000007 = .ok (.norm 2) ∧
  decode 0x0000000012000108 = .ok (.mul .m 2 0 1)

/-! ### Issue, execution and completion (spec/45_control.md) -/

/-- R261: a CMD write when `Idle` is accepted whatever the word, and a CMD write when `Busy` changes nothing but OVR
(the response to the host, a field of the model, may be anything). -/
def Obligations.CommandWriteIsAcceptedOrOverruns : Prop :=
  ∀ (s : State) (v : Word),
    (s.phase = .idle →
      ∃ r, hostAccess (.write 64 (s.cfg.apertureBase + 0x030) v) s =
        .next { s with curCmd := v, err := .none, done := false, phase := .busy v, resp := r }) ∧
    ∀ w, s.phase = .busy w →
      ∃ r, hostAccess (.write 64 (s.cfg.apertureBase + 0x030) v) s = .next { s with ovr := true, resp := r }

/-- R262: in phase `Busy(w)` the engine's step runs the command `w` decodes to, whether the engine is the
next input or no input is left; a host input runs first and the engine waits.
The list of inputs is the model's own (log 3), and so is the form of issue of the last clause (log 4): the step after
`withFetchWord` runs the table word's command on the state as acceptance leaves it, with the inputs of `s` to come. -/
def Obligations.StepRunsDecodedCommand : Prop :=
  (∀ (s : State) (w : Word) (i : Instr), s.phase = .busy w → decode w = .ok i →
    (s.events = [] → step s = exec i s) ∧
    (∀ es, s.events = .engine :: es → step s = exec i { s with events := es }) ∧
    (∀ a es, s.events = .host a :: es → step s = hostAccess a { s with events := es })) ∧
  ∀ (s : State) (nbits w : Nat) (i : Instr), decodeTableWord nbits w = some i →
    step (s.withFetchWord nbits w) = exec i (s.accept (tableWord nbits w))

/-- R108: a word that matches no row of the opcode table is accepted, and the engine completes it with
`ERR_BADCMD` and writes no buffer, DLEN or DSIGN. -/
def Obligations.IllegalWordCompletesWithBadcmd : Prop :=
  ∀ (s : State) (w : Word), (∀ r ∈ opcodeRows, w &&& r.1 ≠ r.2) → s.phase = .idle →
    ∃ t, hostAccess (.write 64 (s.cfg.apertureBase + 0x030) w) s = .next t ∧ t.phase = .busy w ∧
      engineTurn t = .next { t with phase := .idle, done := true, err := .badcmd } ∧
      t.mem = s.mem ∧ t.dlen = s.dlen ∧ t.dsign = s.dsign

/-- R260: NOP does nothing but complete with DONE 1 and ERR 0; its word is 0 only, and any other word whose OPC is 0
completes with `ERR_BADCMD` and does nothing else. -/
def Obligations.NopOnlyCompletes : Prop :=
  (∀ s : State, exec .nop s = .next { s with phase := .idle, done := true, err := .none }) ∧
  (∀ w : Word, decode w = .ok .nop ↔ w = 0) ∧
  ∀ (s : State) (w : Word), w.toNat % 2 ^ 8 = 0 → w ≠ 0 →
    engineStep w s = .next { s with phase := .idle, done := true, err := .badcmd }

/-- R263, R48, R276: a command that answers a next state has completed: `Idle`, DONE, the parameters, IE, OVR,
CUR_CMD, the inputs and the response as they were, and IRQ raised when IE is set. -/
def Obligations.CompletionKeepsControlState : Prop :=
  ∀ (i : Instr) (s t : State), exec i s = .next t →
    Completed s t t.err ∧ (s.ie = true → t.irq = true)

/-- R271: except for MUL, a command that completes with an error changes nothing but the phase, DONE and ERR. -/
def Obligations.ErrorWritesNothingExceptMul : Prop :=
  ∀ (i : Instr) (s t : State), (∀ dom x y z, i ≠ .mul dom x y z) → exec i s = .next t → t.err ≠ .none →
    t = { s with phase := .idle, done := true, err := t.err }

/-- R312: a command changes no byte outside its write set. -/
def Obligations.CommandWritesOnlyItsWriteSet : Prop :=
  ∀ (i : Instr) (s t : State) (b : Nat), exec i s = .next t → ¬inWriteSet s.cfg i b →
    t.mem.read b = s.mem.read b

/-- R49, R314: when every buffer entry is written, every command completes; and a command never ends but by
completing or by reading an unwritten entry. -/
def Obligations.WrittenBuffersNeverFault : Prop :=
  (∀ (i : Instr) (s : State), s.cfg.log2Nmax ≤ 23 →
    (∀ k j, j < s.cfg.nMax →
      (s.digitWord k j).isSome ∧ (s.elemLo k j).isSome ∧ (s.elemHi k j).isSome) →
    ∃ t, exec i s = .next t) ∧
  ∀ (i : Instr) (s : State), (∃ t, exec i s = .next t) ∨ exec i s = .fault .unwrittenRead

/-! ### LOADSEQ and STOREDIG (spec/43_convert.md) -/

/-- R220: LOADSEQ completes, converts every digit, pads with zeros to `n`, and changes nothing else. -/
def Obligations.LoadseqFillsTheSequence : Prop :=
  ∀ (dom : Dom) (logn : Nat) (x y : BufIx) (s : State) (d : Nat → Int),
    s.len y ≤ s.cfg.nMax → logn ≤ limit s.cfg dom → s.len y ≤ 2 ^ logn →
    (∀ i, i < s.len y → s.digit y i = some (d i)) →
    ∃ t, exec (.loadseq dom logn x y) s = .next t ∧ Completed s t .none ∧ SameLengths s t ∧
      (∀ i, i < 2 ^ logn →
        t.elemLo x i = some (toSeq s.cfg dom (if i < s.len y then d i else 0)).lo ∧
        t.elemHi x i = some (toSeq s.cfg dom (if i < s.len y then d i else 0)).hi) ∧
      SameOutside s t (elemAddr x 0) (16 * 2 ^ logn)

/-- R221: TOSEQ is `(b64(d), +0.0)`, exact up to `2^53`, in the complex domain, and `mod(d, NTT_P)` with
high word 0 in the modular domain. -/
def Obligations.DigitConversionIsRoundedOrReduced : Prop :=
  ∀ (p : Params) (d : Int), -(2 ^ 63) ≤ d → d ≤ 2 ^ 63 - 1 →
    IsB64 (d : ℝ) (toSeq p .c d).lo ∧ (toSeq p .c d).hi = 0 ∧
    (|d| ≤ 2 ^ 53 → isFiniteFloat (toSeq p .c d).lo ∧ floatValue (toSeq p .c d).lo = (d : ℚ)) ∧
    (0 < p.nttP → p.nttP < 2 ^ 32 →
      ((toSeq p .m d).residue : Int) = d % (p.nttP : Int) ∧ (toSeq p .m d).hi = 0)

/-- R225, R226: STOREDIG completes when every low word has a digit, stores the digits, sets `DLEN[x] = n`,
keeps `DSIGN[x]`, and changes nothing else. -/
def Obligations.StoredigStoresTheDigits : Prop :=
  ∀ (dom : Dom) (logn : Nat) (x y : BufIx) (s : State) (lo : Nat → Word) (d : Nat → Int),
    s.cfg.log2Nmax ≤ 23 → logn ≤ limit s.cfg dom →
    (∀ i, i < 2 ^ logn → s.elemLo y i = some (lo i)) →
    (dom = .m → ∀ i, i < 2 ^ logn → (lo i).toNat < s.cfg.nttP) →
    (∀ i, i < 2 ^ logn → toDigit dom (lo i) = some (d i)) →
    ∃ t, exec (.storedig dom logn x y) s = .next t ∧ Completed s t .none ∧
      (∀ i, i < 2 ^ logn → t.digitWord x i = some (BitVec.ofInt 64 (d i))) ∧
      t.len x = 2 ^ logn ∧ t.dsign = s.dsign ∧ SameOtherLengths s t x ∧
      SameOutside s t (digitAddr x 0) (8 * 2 ^ logn)

/-- R222: ROUND is the nearest integer, halves away from zero, and fails for NaN, infinities and results
outside `int64`. -/
def Obligations.RoundIsNearestHalfAway : Prop :=
  ∀ (v : Word) (r : Int),
    roundToDigit v = some r ↔
      isFiniteFloat v ∧ -(2 ^ 63) ≤ r ∧ r ≤ 2 ^ 63 - 1 ∧
        |floatValue v - (r : ℚ)| ≤ 1 / 2 ∧
        (|floatValue v - (r : ℚ)| = 1 / 2 → |floatValue v| < |(r : ℚ)|)

/-! ### FWD and INV (spec/41_transform.md) -/

/-- R170 with R166 and R167: FWD completes and leaves the transform as R166 indexes it, in both domains,
and changes nothing else. -/
def Obligations.FwdLeavesTheIndexedTransform : Prop :=
  ∀ (dom : Dom) (logn : Nat) (x : BufIx) (s : State) (a : Nat → Elem),
    logn ≤ limit s.cfg dom → (∀ i, i < 2 ^ logn → s.elem dom x i = some (a i)) →
    (dom = .m → ∀ i, i < 2 ^ logn → (a i).residue < s.cfg.nttP) →
    ∃ t, exec (.fwd dom logn x) s = .next t ∧ Completed s t .none ∧ SameLengths s t ∧
      (∀ i, i < 2 ^ logn →
        t.elemLo x i = some (indexTransform s.cfg dom .fwd logn a i).lo ∧
        t.elemHi x i = some (indexTransform s.cfg dom .fwd logn a i).hi) ∧
      SameOutside s t (elemAddr x 0) (16 * 2 ^ logn)

/-- R172, R173: INV completes and leaves the inverse transform scaled once by `1/n`, and changes nothing else. -/
def Obligations.InvLeavesTheScaledTransform : Prop :=
  ∀ (dom : Dom) (logn : Nat) (x : BufIx) (s : State) (a : Nat → Elem),
    logn ≤ limit s.cfg dom → (∀ i, i < 2 ^ logn → s.elem dom x i = some (a i)) →
    (dom = .m → ∀ i, i < 2 ^ logn → (a i).residue < s.cfg.nttP) →
    ∃ t, exec (.inv dom logn x) s = .next t ∧ Completed s t .none ∧ SameLengths s t ∧
      (∀ i, i < 2 ^ logn →
        t.elemLo x i = some (scaleElem s.cfg dom (indexTransform s.cfg dom .inv logn a i) (2 ^ logn)).lo ∧
        t.elemHi x i = some (scaleElem s.cfg dom (indexTransform s.cfg dom .inv logn a i) (2 ^ logn)).hi) ∧
      SameOutside s t (elemAddr x 0) (16 * 2 ^ logn)

/-- R176: the iterative network, bit reversal and then stages of butterflies, gives the same bits as the
recursive transform. -/
def Obligations.IterativeTransformGivesTheSameBits : Prop :=
  ∀ (p : Params) (dom : Dom) (dir : Dir) (k : Nat) (a : List Elem), a.length = 2 ^ k →
    ∀ i, i < 2 ^ k →
      (transform p dom dir k a)[i]? =
        some (iterativeTransform p dom dir k (fun j => a.getD j { lo := 0, hi := 0 }) i)

/-- R170, mathematical meaning: FWD.M computes `y[k] = sum a[j] * omega^(j*k) mod NTT_P`. -/
def Obligations.ForwardModularIsTheDft : Prop :=
  ∀ (logn : Nat) (x : BufIx) (s : State) (u : Nat → Nat), s.cfg.Legal → logn ≤ limit s.cfg .m →
    (∀ i, i < 2 ^ logn → s.elemLo x i = some (BitVec.ofNat 64 (u i)) ∧ u i < s.cfg.nttP) →
    ∃ t, exec (.fwd .m logn x) s = .next t ∧ t.err = .none ∧
      ∀ k, k < 2 ^ logn →
        t.elemLo x k = some (BitVec.ofNat 64
          ((∑ j ∈ Finset.range (2 ^ logn), u j * rootModular s.cfg .fwd logn ^ (j * k)) % s.cfg.nttP)) ∧
        t.elemHi x k = some 0

/-- R172, mathematical meaning: INV.M after FWD.M of the same length restores the residues exactly. -/
def Obligations.InverseModularRestoresTheInput : Prop :=
  ∀ (logn : Nat) (x : BufIx) (s : State) (u : Nat → Nat), s.cfg.Legal → logn ≤ limit s.cfg .m →
    (∀ i, i < 2 ^ logn → s.elemLo x i = some (BitVec.ofNat 64 (u i)) ∧ u i < s.cfg.nttP) →
    ∃ t v, exec (.fwd .m logn x) s = .next t ∧ exec (.inv .m logn x) t = .next v ∧ v.err = .none ∧
      ∀ i, i < 2 ^ logn → v.elemLo x i = some (BitVec.ofNat 64 (u i)) ∧ v.elemHi x i = some 0

/-- R163: the modular root table, its inverses, their order, the squaring of levels and the values it lists. -/
def Obligations.ModularRootsHaveExactOrder : Prop :=
  ∀ (p : Params) (j : Nat), p.Legal → 1 ≤ j → j ≤ nttLog2Max p →
    rootModular p .fwd j = p.nttG ^ ((p.nttP - 1) / 2 ^ j) % p.nttP ∧
    rootModular p .inv j = rootModular p .fwd j ^ (p.nttP - 2) % p.nttP ∧
    rootModular p .fwd j * rootModular p .inv j % p.nttP = 1 ∧
    orderOf ((rootModular p .fwd j : ℕ) : ZMod p.nttP) = 2 ^ j ∧
    (∀ dir, 2 ≤ j → rootModular p dir (j - 1) = rootModular p dir j ^ 2 % p.nttP) ∧
    (p = Params.standard →
      rootModular p .fwd 1 = 998244352 ∧ rootModular p .fwd 2 = 911660635 ∧ rootModular p .fwd 3 = 372528824)

/-- R162: every entry of the complex root table is the correctly rounded cosine, sine or negated sine. -/
def Obligations.ComplexRootsAreCorrectlyRounded : Prop :=
  ∀ j : Nat, 1 ≤ j → j ≤ 23 →
    IsB64 (Real.cos (2 * Real.pi / 2 ^ j)) (rootComplex .fwd j).lo ∧
    IsB64 (Real.sin (2 * Real.pi / 2 ^ j)) (rootComplex .fwd j).hi ∧
    IsB64 (Real.cos (2 * Real.pi / 2 ^ j)) (rootComplex .inv j).lo ∧
    IsB64 (-Real.sin (2 * Real.pi / 2 ^ j)) (rootComplex .inv j).hi

/-- R165: the modular primitives on residues, products below `2^64`, and `NINV(n)` the inverse of `n`. -/
def Obligations.ModularPrimitivesAreResidueArithmetic : Prop :=
  ∀ (p : Params) (x y : Elem) (n : Nat), p.Legal → x.residue < p.nttP → y.residue < p.nttP →
    oneElem .m = { lo := 1, hi := 0 } ∧
    addElem p .m x y = { lo := BitVec.ofNat 64 ((x.residue + y.residue) % p.nttP), hi := 0 } ∧
    subElem p .m x y = { lo := BitVec.ofNat 64 ((x.residue + p.nttP - y.residue) % p.nttP), hi := 0 } ∧
    mulElem p .m x y = { lo := BitVec.ofNat 64 (x.residue * y.residue % p.nttP), hi := 0 } ∧
    scaleElem p .m x n =
      { lo := BitVec.ofNat 64 (x.residue * (n ^ (p.nttP - 2) % p.nttP) % p.nttP), hi := 0 } ∧
    x.residue * y.residue < 2 ^ 64 ∧
    (0 < n → n < p.nttP → n * (n ^ (p.nttP - 2) % p.nttP) % p.nttP = 1)

/-! ### PMUL and PMAC (spec/42_pointwise.md) -/

/-- R200, R201: PMUL completes with the element-wise product of the values before it, for any aliasing, and
changes nothing else. -/
def Obligations.PmulIsElementwise : Prop :=
  ∀ (dom : Dom) (logn : Nat) (x y z : BufIx) (s : State) (a b : Nat → Elem),
    logn ≤ limit s.cfg dom →
    (∀ i, i < 2 ^ logn → s.elem dom y i = some (a i) ∧ s.elem dom z i = some (b i)) →
    (dom = .m → ∀ i, i < 2 ^ logn → (a i).residue < s.cfg.nttP ∧ (b i).residue < s.cfg.nttP) →
    ∃ t, exec (.pmul dom logn x y z) s = .next t ∧ Completed s t .none ∧ SameLengths s t ∧
      (∀ i, i < 2 ^ logn →
        t.elemLo x i = some (mulElem s.cfg dom (a i) (b i)).lo ∧
        t.elemHi x i = some (mulElem s.cfg dom (a i) (b i)).hi) ∧
      SameOutside s t (elemAddr x 0) (16 * 2 ^ logn)

/-- R203, R201: PMAC completes with the old destination plus the product, for any aliasing, and changes
nothing else. -/
def Obligations.PmacIsElementwise : Prop :=
  ∀ (dom : Dom) (logn : Nat) (x y z : BufIx) (s : State) (c a b : Nat → Elem),
    logn ≤ limit s.cfg dom →
    (∀ i, i < 2 ^ logn →
      s.elem dom x i = some (c i) ∧ s.elem dom y i = some (a i) ∧ s.elem dom z i = some (b i)) →
    (dom = .m → ∀ i, i < 2 ^ logn →
      (c i).residue < s.cfg.nttP ∧ (a i).residue < s.cfg.nttP ∧ (b i).residue < s.cfg.nttP) →
    ∃ t, exec (.pmac dom logn x y z) s = .next t ∧ Completed s t .none ∧ SameLengths s t ∧
      (∀ i, i < 2 ^ logn →
        t.elemLo x i = some (addElem s.cfg dom (c i) (mulElem s.cfg dom (a i) (b i))).lo ∧
        t.elemHi x i = some (addElem s.cfg dom (c i) (mulElem s.cfg dom (a i) (b i))).hi) ∧
      SameOutside s t (elemAddr x 0) (16 * 2 ^ logn)

/-- R202, in the modular domain: FWD of both sequences, PMUL into the first and INV leave the cyclic convolution of
the residues (the expansion of CONV, R111). -/
def Obligations.ConvolutionIsCyclic : Prop :=
  ∀ (logn : Nat) (x y : BufIx) (s : State) (u v : Nat → Nat), s.cfg.Legal → logn ≤ limit s.cfg .m → x ≠ y →
    (∀ i, i < 2 ^ logn → s.elemLo x i = some (BitVec.ofNat 64 (u i)) ∧ u i < s.cfg.nttP) →
    (∀ i, i < 2 ^ logn → s.elemLo y i = some (BitVec.ofNat 64 (v i)) ∧ v i < s.cfg.nttP) →
    ∃ s1 s2 s3 t, exec (.fwd .m logn x) s = .next s1 ∧ exec (.fwd .m logn y) s1 = .next s2 ∧
      exec (.pmul .m logn x x y) s2 = .next s3 ∧ exec (.inv .m logn x) s3 = .next t ∧ t.err = .none ∧
      ∀ k, k < 2 ^ logn →
        t.elemLo x k = some (BitVec.ofNat 64
          ((∑ i ∈ Finset.range (2 ^ logn), u i * v ((k + 2 ^ logn - i) % 2 ^ logn)) % s.cfg.nttP)) ∧
        t.elemHi x k = some 0

/-- R161: the complex primitives as sequences of binary64 operations, each product rounded before the sum; `MUL_C`
gives the same bits in both orders; and `ROOT` in the complex domain is the table of R162. -/
def Obligations.ComplexProductCommutes : Prop :=
  ∀ (p : Params) (x y : Elem) (n : Nat),
    oneElem .c = { lo := 0x3FF0000000000000, hi := 0x0000000000000000 } ∧
    addElem p .c x y = { lo := fadd x.lo y.lo, hi := fadd x.hi y.hi } ∧
    subElem p .c x y = { lo := fsub x.lo y.lo, hi := fsub x.hi y.hi } ∧
    mulElem p .c x y = { lo := fsub (fmul x.lo y.lo) (fmul x.hi y.hi),
                         hi := fadd (fmul x.lo y.hi) (fmul x.hi y.lo) } ∧
    (∃ b, IsB64 (n : ℝ) b ∧ scaleElem p .c x n = { lo := fdiv x.lo b, hi := fdiv x.hi b }) ∧
    mulElem p .c x y = mulElem p .c y x ∧
    ∀ dir j, rootElem p .c dir j = rootComplex dir j

/-! ### NORM (spec/40_normalize.md) -/

/-- R131: phase 1 leaves digits in `[-9, 9]` with the same value, and extends at most 19 times. -/
def Obligations.PhaseOneKeepsTheValue : Prop :=
  ∀ (nMax : Nat) (ds u : List Int), ds ≠ [] → phase1 nMax ds = .ok u →
    (∀ d ∈ u, -9 ≤ d ∧ d ≤ 9) ∧ digitsValue u = digitsValue ds ∧
      ds.length ≤ u.length ∧ u.length ≤ ds.length + 19 ∧ u.length ≤ max nMax ds.length

/-- R130, R134: a NORM without error leaves its buffer canonical with the value it had, its sign flipped when
the raw digits sum to a negative value and cleared when they sum to zero. -/
def Obligations.NormLeavesCanonicalSameValue : Prop :=
  ∀ (x : BufIx) (s t : State), s.cfg.log2Nmax ≤ 23 → exec (.norm x) s = .next t → t.err = .none →
    t.canonical x ∧ (∃ v, s.value x = some v ∧ t.value x = some v) ∧
    ∀ ds, s.digits x (s.len x) = some ds →
      t.sign x = if digitsValue ds = 0 then false else s.sign x ^^ decide (digitsValue ds < 0)

/-- R133, R136: NORM of written digits completes, an error writing nothing.
R131, R274: the code is `ERR_OVERFLOW` exactly when a carry sum of the linear pass leaves `int64`, and
`ERR_CAPACITY` exactly when none does and the top digit needs more entries than are free; so it is 0 on digits in
`[-9, 9]` whatever room is left, and where no carry can leave `int64` and 19 entries are free. -/
def Obligations.NormCompletes : Prop :=
  ∀ (x : BufIx) (s : State) (d : Nat → Int), s.len x ≤ s.cfg.nMax →
    (∀ i, i < s.len x → s.digit x i = some (d i)) →
    ∃ t, exec (.norm x) s = .next t ∧ Completed s t t.err ∧
      (t.err = .none ∨
        ((t.err = .overflow ∨ t.err = .capacity) ∧ t.mem = s.mem ∧ t.dlen = s.dlen ∧ t.dsign = s.dsign)) ∧
      (t.err = .overflow ↔ ∃ i, i < s.len x ∧ ¬(-(2 ^ 63) ≤ carrySum d i ∧ carrySum d i ≤ 2 ^ 63 - 1)) ∧
      (t.err = .capacity ↔
        (∀ i, i < s.len x → -(2 ^ 63) ≤ carrySum d i ∧ carrySum d i ≤ 2 ^ 63 - 1) ∧ 0 < s.len x ∧
          10 ^ (s.cfg.nMax - s.len x + 1) ≤ |carrySum d (s.len x - 1)|) ∧
      ((∀ i, i < s.len x → -9 ≤ d i ∧ d i ≤ 9) → t.err = .none) ∧
      ((∀ i, i < s.len x → |d i| ≤ 8000000000000000000) → s.len x + 19 ≤ s.cfg.nMax → t.err = .none)

/-- R135: the length and padding writes of NORM, and what it leaves alone. -/
def Obligations.NormLengthAndPadding : Prop :=
  ∀ (x : BufIx) (s t : State) (ds u : List Int), s.cfg.log2Nmax ≤ 23 →
    exec (.norm x) s = .next t → t.err = .none → s.digits x (s.len x) = some ds →
    phase1 s.cfg.nMax (normInput ds) = .ok u →
    (∃ ls, IsSigLength (phase2 u) ls ∧ IsNextPow2 ls (t.len x) ∧
      (∀ i, i < ls → t.digit x i = some ((phase2 u).getD i 0)) ∧
      ∀ i, ls ≤ i → i < max (t.len x) u.length → t.digit x i = some 0) ∧
    1 ≤ t.len x ∧ t.len x ≤ s.cfg.nMax ∧ SameOtherLengths s t x ∧
    SameOutside s t (digitAddr x 0) (8 * max (t.len x) u.length)

/-- R138: a second NORM of the same buffer changes no byte, no DLEN and no DSIGN. -/
def Obligations.NormIsIdempotent : Prop :=
  ∀ (x : BufIx) (s t : State), s.cfg.log2Nmax ≤ 23 → exec (.norm x) s = .next t → t.err = .none →
    ∃ v, exec (.norm x) t = .next v ∧ v.err = .none ∧ SameMemory t v ∧ SameLengths t v

/-! ### MUL (spec/44_multiply.md) -/

/-- R240: MUL leaves what its expansion leaves, each call run as a command of its own. -/
def Obligations.MulIsItsExpansion : Prop :=
  ∀ (dom : Dom) (x y z : BufIx) (k : Nat) (s s1 s2 s3 s4 s5 s6 s7 t : State),
    s.len y ≤ s.cfg.nMax → s.len z ≤ s.cfg.nMax →
    IsNextPow2 (s.len y + s.len z + 1) (2 ^ k) → k ≤ limit s.cfg dom →
    exec (.loadseq dom k 0 y) s = .next s1 → s1.err = .none →
    exec (.loadseq dom k 1 z) s1 = .next s2 → s2.err = .none →
    exec (.fwd dom k 0) s2 = .next s3 → s3.err = .none →
    exec (.fwd dom k 1) s3 = .next s4 → s4.err = .none →
    exec (.pmul dom k 0 0 1) s4 = .next s5 → s5.err = .none →
    exec (.inv dom k 0) s5 = .next s6 → s6.err = .none →
    exec (.storedig dom k x 0) s6 = .next s7 →
    (s7.err ≠ .none → exec (.mul dom x y z) s = .next s7) ∧
    (s7.err = .none → exec (.norm x) (s7.setSign x (s.sign y ^^ s.sign z)) = .next t →
      exec (.mul dom x y z) s = .next t)

/-- R240 to R243: MUL of written digits completes, for any aliasing, with one of the codes its expansion can
raise; what it writes is S0, S1 and, past STOREDIG, its destination, and nothing else changes. -/
def Obligations.MulCompletes : Prop :=
  ∀ (dom : Dom) (x y z : BufIx) (k : Nat) (s : State) (a b : Nat → Int), s.cfg.Legal →
    s.len y ≤ s.cfg.nMax → s.len z ≤ s.cfg.nMax →
    IsNextPow2 (s.len y + s.len z + 1) (2 ^ k) → k ≤ limit s.cfg dom →
    (∀ i, i < s.len y → s.digit y i = some (a i)) → (∀ i, i < s.len z → s.digit z i = some (b i)) →
    ∃ t, exec (.mul dom x y z) s = .next t ∧ Completed s t t.err ∧ SameOtherLengths s t x ∧
      (t.err = .none ∨ t.err = .round ∨ t.err = .overflow ∨ t.err = .capacity) ∧
      (t.err = .round → SameLengths s t) ∧
      (t.err = .overflow ∨ t.err = .capacity →
        t.len x = 2 ^ k ∧ t.sign x = (s.sign y ^^ s.sign z)) ∧
      ∀ c, (c < elemAddr 0 0 ∨ elemAddr 0 0 + 16 * 2 ^ k ≤ c) →
        (c < elemAddr 1 0 ∨ elemAddr 1 0 + 16 * 2 ^ k ≤ c) →
        (t.err = .round ∨ c < digitAddr x 0 ∨
          (digitAddr x 0 + 8 * 2 ^ k ≤ c ∧
            (t.err = .none → ∃ es raw u, t.elems .m 0 (2 ^ k) = some es ∧ storedDigits dom es = some raw ∧
              phase1 s.cfg.nMax raw = .ok u ∧ digitAddr x 0 + 8 * max (t.len x) u.length ≤ c))) →
        t.mem.read c = s.mem.read c

/-- R244: `MUL.M` of canonical operands with `81 * min(La, Lb) < NTT_P` is the exact signed product, in
canonical form, for any aliasing. -/
def Obligations.MulModularIsExact : Prop :=
  ∀ (x y z : BufIx) (k : Nat) (s : State) (a b : Int), s.cfg.Legal →
    s.canonical y → s.canonical z → s.value y = some a → s.value z = some b →
    81 * min (s.len y) (s.len z) < s.cfg.nttP →
    IsNextPow2 (s.len y + s.len z + 1) (2 ^ k) → k ≤ limit s.cfg .m →
    ∃ t, exec (.mul .m x y z) s = .next t ∧ Completed s t .none ∧ SameOtherLengths s t x ∧
      t.canonical x ∧ t.value x = some (a * b)

/-! ### Errors (spec/60_exceptions.md) -/

/-- R104, R270, R274: the limits, the length checks against them and their order, nothing being written; R263, R270:
what completion with a code does, and the codes' numbers. -/
def Obligations.LengthErrorsComeFirst : Prop :=
  ∀ (dom : Dom) (logn lim : Nat) (x y z : BufIx) (s : State),
    lim = (match dom with
      | .c => s.cfg.log2Nmax
      | .m => min s.cfg.log2Nmax (nttLog2Max s.cfg)) →
    limit s.cfg dom = lim ∧
    (∀ e, s.complete e = { s with phase := .idle, done := true, err := e }) ∧
    [ErrCode.none, .badcmd, .size, .len, .capacity, .overflow, .round, .residue].map ErrCode.number =
      [0, 1, 2, 3, 4, 5, 6, 7] ∧
    (s.cfg.nMax < s.len y →
      exec (.loadseq dom logn x y) s = .next (s.complete .len) ∧
      exec (.norm y) s = .next (s.complete .len) ∧
      exec (.mul dom x y z) s = .next (s.complete .len) ∧
      exec (.mul dom x z y) s = .next (s.complete .len)) ∧
    (lim < logn →
      (s.len y ≤ s.cfg.nMax → exec (.loadseq dom logn x y) s = .next (s.complete .size)) ∧
      exec (.storedig dom logn x y) s = .next (s.complete .size) ∧
      exec (.fwd dom logn x) s = .next (s.complete .size) ∧
      exec (.inv dom logn x) s = .next (s.complete .size) ∧
      exec (.pmul dom logn x y z) s = .next (s.complete .size) ∧
      exec (.pmac dom logn x y z) s = .next (s.complete .size)) ∧
    (s.len y ≤ s.cfg.nMax → logn ≤ lim → 2 ^ logn < s.len y →
      exec (.loadseq dom logn x y) s = .next (s.complete .size)) ∧
    (s.len y ≤ s.cfg.nMax → s.len z ≤ s.cfg.nMax → 2 ^ lim < s.len y + s.len z + 1 →
      exec (.mul dom x y z) s = .next (s.complete .size))

/-- R164: a modular command that reads an illegal residue completes with `ERR_RESIDUE` and writes nothing, whatever
the buffers it does not read hold. -/
def Obligations.IllegalResidueIsAnError : Prop :=
  ∀ (logn : Nat) (x y z : BufIx) (s : State) (c a b : Nat → Elem), logn ≤ limit s.cfg .m →
    ((∀ i, i < 2 ^ logn → s.elem .m x i = some (c i)) →
      (∃ i, i < 2 ^ logn ∧ s.cfg.nttP ≤ (c i).residue) →
      exec (.fwd .m logn x) s = .next (s.complete .residue) ∧
      exec (.inv .m logn x) s = .next (s.complete .residue) ∧
      exec (.storedig .m logn y x) s = .next (s.complete .residue)) ∧
    ((∀ i, i < 2 ^ logn → s.elem .m y i = some (a i) ∧ s.elem .m z i = some (b i)) →
      (∃ i, i < 2 ^ logn ∧ (s.cfg.nttP ≤ (a i).residue ∨ s.cfg.nttP ≤ (b i).residue)) →
      exec (.pmul .m logn x y z) s = .next (s.complete .residue)) ∧
    ((∀ i, i < 2 ^ logn →
        s.elem .m x i = some (c i) ∧ s.elem .m y i = some (a i) ∧ s.elem .m z i = some (b i)) →
      (∃ i, i < 2 ^ logn ∧
        (s.cfg.nttP ≤ (c i).residue ∨ s.cfg.nttP ≤ (a i).residue ∨ s.cfg.nttP ≤ (b i).residue)) →
      exec (.pmac .m logn x y z) s = .next (s.complete .residue))

/-- R225: STOREDIG.C with a real part that ROUND fails on completes with `ERR_ROUND` and writes nothing. -/
def Obligations.UnroundableElementIsAnError : Prop :=
  ∀ (logn : Nat) (x y : BufIx) (s : State) (lo : Nat → Word), logn ≤ limit s.cfg .c →
    (∀ i, i < 2 ^ logn → s.elemLo y i = some (lo i)) →
    (∃ i, i < 2 ^ logn ∧ roundToDigit (lo i) = none) →
    exec (.storedig .c logn x y) s = .next (s.complete .round)

/-! ### The invariant, reset and progress -/

/-- The invariant holds after power-on reset, with any legal capacity and any inputs, and at `State.reset`.
The parameters and the inputs of the reset state are the model's choice (logs 1, 2 and 3). -/
def Obligations.ResetMeetsTheInvariant : Prop :=
  State.reset.Inv ∧
  ∀ (p : Params) (es : List Event), 1 ≤ p.log2Nmax → p.log2Nmax ≤ 23 → (State.resetWith p es).Inv

/-- Every step keeps the invariant, from every state that meets it. -/
def Obligations.StepKeepsTheInvariant : Prop :=
  ∀ s t : State, s.Inv → step s = .next t → t.Inv

/-- R310, R49: power-on reset, whatever the state, leaves every register at 0, the phase `Idle` and every
buffer byte unwritten; the parameters and the inputs to come stay.
Power-on reset as an input, and the inputs after it staying, are the model's choice (logs 3 and 15). -/
def Obligations.PowerOnResetClearsAll : Prop :=
  ∀ (s : State) (es : List Event), s.events = .powerOnReset :: es →
    ∃ t, step s = .next t ∧ t.phase = .idle ∧ t.ctrlWord = 0 ∧ t.statusWord = 0 ∧ t.curCmd = 0 ∧
      (∀ k, t.len k = 0 ∧ t.sign k = false) ∧ t.irq = false ∧ (∀ b, t.mem.read b = none) ∧
      t.cfg = s.cfg ∧ t.events = es

/-- R311, R312, R36: a CTRL write with bit 1 set, in either phase, resets every register and the phase; the write
set of a command in flight becomes unwritten and every other byte stays, an illegal word having no write set. -/
def Obligations.SoftResetAbandonsTheCommand : Prop :=
  ∀ (s : State) (v : Word), v.getLsbD 1 = true →
    ∃ t, hostAccess (.write 64 (s.cfg.apertureBase + 0x020) v) s = .next t ∧
      t.phase = .idle ∧ t.ctrlWord = 0 ∧ t.statusWord = 0 ∧ t.curCmd = 0 ∧
      (∀ k, t.len k = 0 ∧ t.sign k = false) ∧ t.cfg = s.cfg ∧ t.events = s.events ∧
      (s.phase = .idle → SameMemory s t) ∧
      ∀ w, s.phase = .busy w →
        ((∀ i, decode w ≠ .ok i) → SameMemory s t) ∧
        ∀ i, decode w = .ok i → ∀ b,
          (inWriteSet s.cfg i b → t.mem.read b = none) ∧
          (¬inWriteSet s.cfg i b → t.mem.read b = s.mem.read b)

/-- R331, R262: a host that only polls STATUS while a command is in flight neither stops nor disturbs it: once
the polls are made the next step is the engine's step on the state at acceptance.
That the engine moves when no input is left is the model's form of weak fairness (logs 3 and 16). -/
def Obligations.PolledCommandIsExecuted : Prop :=
  ∀ (s : State) (w : Word) (n : Nat), s.phase = .busy w →
    s.events = List.replicate n (.host (.read 64 (s.cfg.apertureBase + 0x028))) →
    Host.Core.run Sys2Proof.core (n + 1) s =
      engineStep w { s with events := [], resp := if n = 0 then s.resp else .data s.statusWord }

/-- R262, R77: a host access while a command is in flight touches nothing the command reads, unless it is the
soft reset. -/
def Obligations.BusyHostAccessTouchesNoOperand : Prop :=
  ∀ (s t : State) (w : Word) (a : HostAccess), s.phase = .busy w → hostAccess a s = .next t →
    (t.phase = .busy w ∧ t.cfg = s.cfg ∧ t.mem = s.mem ∧ t.dlen = s.dlen ∧ t.dsign = s.dsign ∧
      t.curCmd = s.curCmd ∧ t.err = s.err) ∨
    ∃ v, a = .write 64 (s.cfg.apertureBase + 0x020) v ∧ v.getLsbD 1 = true ∧ t.phase = .idle

/-- R284: only a CMD write starts a command, and in `Idle` a step that takes no host input (none is left, or the
engine is the next) keeps every register and buffer.
The list of inputs is the model's own (log 3), and so is what a step without inputs does (log 14). -/
def Obligations.OnlyCommandWritesStartTheEngine : Prop :=
  ∀ s : State, s.phase = .idle →
    (∀ (t : State) (w : Word), step s = .next t → t.phase = .busy w →
      ∃ es, s.events = .host (.write 64 (s.cfg.apertureBase + 0x030) w) :: es) ∧
    (s.events = [] → step s = .next s) ∧
    ∀ es, s.events = .engine :: es → step s = .next { s with events := es }

/-! ### The host's port (spec/20_memory.md, spec/10_state.md) -/

/-- R76: a host read changes nothing but the response.
The response is the model's own field (log 5). -/
def Obligations.HostReadsHaveNoSideEffect : Prop :=
  ∀ (s t : State) (width addr : Nat), hostAccess (.read width addr) s = .next t →
    t = { s with resp := t.resp }

/-- R74: an access of another width or at a misaligned offset is answered with a bus error and changes nothing else.
The form of the answer is the model's (logs 5 and 8). -/
def Obligations.MalformedAccessIsABusError : Prop :=
  ∀ (s : State) (width off : Nat) (v : Word), off < 2 ^ 30 → (width ≠ 64 ∨ off % 8 ≠ 0) →
    hostAccess (.read width (s.cfg.apertureBase + off)) s = .next { s with resp := .busError } ∧
    hostAccess (.write width (s.cfg.apertureBase + off) v) s = .next { s with resp := .busError }

/-- R72: reserved offsets, in either phase, and window entries at or above the capacity, while idle, read 0 and
ignore writes.
The response is the model's own field (log 5), and so is the restriction to Idle (log 10). -/
def Obligations.ReservedOffsetsReadZero : Prop :=
  ∀ (s : State) (off : Nat) (v : Word), off % 8 = 0 →
    (off = 0x038 ∨ (0x080 ≤ off ∧ off < 0x10000000) ∨
      (s.phase = .idle ∧ ∃ (k : BufIx) (i : Nat), s.cfg.nMax ≤ i ∧ i < 2 ^ 23 ∧
        (off = digitAddr k i ∨ off = elemAddr k i ∨ off = elemAddr k i + 8))) →
    hostAccess (.read 64 (s.cfg.apertureBase + off)) s = .next { s with resp := .data 0 } ∧
    hostAccess (.write 64 (s.cfg.apertureBase + off) v) s = .next { s with resp := .ack }

/-- R32 to R35: the four constant registers, in either phase, and their writes ignored; R7: `NTT_LOG2_MAX` is the
largest `k` with `2^k` dividing `NTT_P - 1`.
That NTT_G reads the low 64 bits of a wider generator is the model's choice (log 23).
The response is the model's own field (log 5). -/
def Obligations.ConstantRegisters : Prop :=
  ∀ (s : State) (v : Word), s.cfg.Legal →
    hostAccess (.read 64 s.cfg.apertureBase) s = .next { s with resp := .data 0x4646544700000001 } ∧
    (∃ q : Word, hostAccess (.read 64 (s.cfg.apertureBase + 0x008)) s = .next { s with resp := .data q } ∧
      (q.extractLsb' 0 5).toNat = s.cfg.log2Nmax ∧ q.extractLsb' 5 3 = 0 ∧
      (q.extractLsb' 8 5).toNat = nttLog2Max s.cfg ∧ q.extractLsb' 13 3 = 0 ∧
      q.extractLsb' 16 4 = 4 ∧ q.extractLsb' 20 4 = 4 ∧ q.extractLsb' 24 40 = 0) ∧
    (∃ q : Word, hostAccess (.read 64 (s.cfg.apertureBase + 0x010)) s = .next { s with resp := .data q } ∧
      q.toNat = s.cfg.nttP) ∧
    hostAccess (.read 64 (s.cfg.apertureBase + 0x018)) s =
      .next { s with resp := .data (BitVec.ofNat 64 s.cfg.nttG) } ∧
    (∀ off ∈ [0x000, 0x008, 0x010, 0x018],
      hostAccess (.write 64 (s.cfg.apertureBase + off) v) s = .next { s with resp := .ack }) ∧
    2 ^ nttLog2Max s.cfg ∣ s.cfg.nttP - 1 ∧
    ∀ k, 2 ^ k ∣ s.cfg.nttP - 1 → k ≤ nttLog2Max s.cfg

/-- R37, R46: a STATUS read in either phase shows BUSY, DONE, OVR and ERR and 0 elsewhere; a STATUS write
clears DONE and OVR where a 1 is written and changes nothing else; IRQ is IE and DONE.
The response is the model's own field (log 5). -/
def Obligations.StatusReadsAndClears : Prop :=
  ∀ (s : State) (v : Word),
    (∃ q : Word, hostAccess (.read 64 (s.cfg.apertureBase + 0x028)) s = .next { s with resp := .data q } ∧
      (q.getLsbD 0 = true ↔ ∃ w, s.phase = .busy w) ∧ q.getLsbD 1 = s.done ∧ q.getLsbD 2 = s.ovr ∧
      q.getLsbD 3 = false ∧ (q.extractLsb' 4 4).toNat = s.err.number ∧ q.extractLsb' 8 56 = 0) ∧
    hostAccess (.write 64 (s.cfg.apertureBase + 0x028) v) s =
      .next { s with done := (if v.getLsbD 1 then false else s.done),
                     ovr := (if v.getLsbD 2 then false else s.ovr), resp := .ack } ∧
    (s.irq = true ↔ s.ie = true ∧ s.done = true)

/-- R36, R38: CTRL reads IE alone; a CTRL write without bit 1 sets IE from bit 0 and changes nothing else; a
CMD read returns CUR_CMD; all in either phase.
The response is the model's own field (log 5). -/
def Obligations.ControlAndCommandRegisters : Prop :=
  ∀ (s : State) (v : Word),
    hostAccess (.read 64 (s.cfg.apertureBase + 0x020)) s = .next { s with resp := .data (if s.ie then 1 else 0) } ∧
    (v.getLsbD 1 = false →
      hostAccess (.write 64 (s.cfg.apertureBase + 0x020) v) s =
        .next { s with ie := v.getLsbD 0, resp := .ack }) ∧
    hostAccess (.read 64 (s.cfg.apertureBase + 0x030)) s = .next { s with resp := .data s.curCmd }

/-- R39, R40: DLEN keeps bits 31:0 and DSIGN bit 0 of what is written; a read returns them and 0 elsewhere;
a write changes nothing but its register.
The response is the model's own field (log 5). -/
def Obligations.LengthAndSignRegisters : Prop :=
  ∀ (s : State) (k : BufIx) (v : Word), s.phase = .idle →
    (∃ t, hostAccess (.write 64 (s.cfg.apertureBase + 0x040 + 8 * k.val) v) s = .next t ∧
      t.len k = v.toNat % 2 ^ 32 ∧ SameOtherLengths s t k ∧ t.sign k = s.sign k ∧
      t = { s with dlen := t.dlen, resp := .ack } ∧
      hostAccess (.read 64 (s.cfg.apertureBase + 0x040 + 8 * k.val)) t =
        .next { t with resp := .data (v &&& 0xFFFFFFFF) }) ∧
    (∃ t, hostAccess (.write 64 (s.cfg.apertureBase + 0x060 + 8 * k.val) v) s = .next t ∧
      t.sign k = v.getLsbD 0 ∧ SameOtherLengths s t k ∧ t.len k = s.len k ∧
      t = { s with dsign := t.dsign, resp := .ack } ∧
      hostAccess (.read 64 (s.cfg.apertureBase + 0x060 + 8 * k.val)) t =
        .next { t with resp := .data (v &&& 1) })

/-- R78: the digit window reads and writes the stored pattern of one entry and changes no other byte, no DLEN
and no DSIGN; an unwritten entry is a fault of the model (R49).
The response is the model's own field (log 5). -/
def Obligations.DigitWindowReadsAndWrites : Prop :=
  ∀ (s : State) (k : BufIx) (i : Nat) (v : Word), s.cfg.log2Nmax ≤ 23 → i < s.cfg.nMax → s.phase = .idle →
    (∀ w, s.digitWord k i = some w →
      hostAccess (.read 64 (s.cfg.apertureBase + 0x10000000 + k.val * 0x04000000 + 8 * i)) s =
        .next { s with resp := .data w }) ∧
    (s.digitWord k i = none →
      hostAccess (.read 64 (s.cfg.apertureBase + 0x10000000 + k.val * 0x04000000 + 8 * i)) s =
        .fault .unwrittenRead) ∧
    ∃ t, hostAccess (.write 64 (s.cfg.apertureBase + 0x10000000 + k.val * 0x04000000 + 8 * i) v) s = .next t ∧
      t.digitWord k i = some v ∧ t = { s with mem := t.mem, resp := .ack } ∧
      SameOutside s t (0x10000000 + k.val * 0x04000000 + 8 * i) 8

/-- R79: the sequence window reads and writes the stored pattern of one half of an element and changes no
other byte; an unwritten half is a fault of the model (R49).
The response is the model's own field (log 5). -/
def Obligations.SequenceWindowReadsAndWrites : Prop :=
  ∀ (s : State) (k : BufIx) (i : Nat) (v : Word), s.cfg.log2Nmax ≤ 23 → i < s.cfg.nMax → s.phase = .idle →
    (∀ w, s.elemLo k i = some w →
      hostAccess (.read 64 (s.cfg.apertureBase + 0x20000000 + k.val * 0x08000000 + 16 * i)) s =
        .next { s with resp := .data w }) ∧
    (∀ w, s.elemHi k i = some w →
      hostAccess (.read 64 (s.cfg.apertureBase + 0x20000000 + k.val * 0x08000000 + 16 * i + 8)) s =
        .next { s with resp := .data w }) ∧
    (s.elemLo k i = none →
      hostAccess (.read 64 (s.cfg.apertureBase + 0x20000000 + k.val * 0x08000000 + 16 * i)) s =
        .fault .unwrittenRead) ∧
    (s.elemHi k i = none →
      hostAccess (.read 64 (s.cfg.apertureBase + 0x20000000 + k.val * 0x08000000 + 16 * i + 8)) s =
        .fault .unwrittenRead) ∧
    (∃ t, hostAccess (.write 64 (s.cfg.apertureBase + 0x20000000 + k.val * 0x08000000 + 16 * i) v) s = .next t ∧
      t.elemLo k i = some v ∧ t = { s with mem := t.mem, resp := .ack } ∧
      SameOutside s t (0x20000000 + k.val * 0x08000000 + 16 * i) 8) ∧
    ∃ t, hostAccess (.write 64 (s.cfg.apertureBase + 0x20000000 + k.val * 0x08000000 + 16 * i + 8) v) s = .next t ∧
      t.elemHi k i = some v ∧ t = { s with mem := t.mem, resp := .ack } ∧
      SameOutside s t (0x20000000 + k.val * 0x08000000 + 16 * i + 8) 8

/-- R73: the byte at offset `8j + b` of the word at `8j` holds bits `8b+7 : 8b`. -/
def Obligations.BytesAreLittleEndian : Prop :=
  ∀ (m : Memory) (a : Nat) (w : Word),
    (m.readWord a = some w → ∀ b, b < 8 → m.read (a + b) = some (w.extractLsb' (8 * b) 8)) ∧
    ((m.writeWords a [w]).readWord a = some w ∧
      ∀ b, b < 8 → (m.writeWords a [w]).read (a + b) = some (w.extractLsb' (8 * b) 8))

/-- R320, R77: while BUSY, the model refuses every aligned 64-bit access to a buffer window, a DLEN or a DSIGN.
The window offsets beyond the capacity are the model's reading (log 10). -/
def Obligations.BusyBufferAccessIsRefused : Prop :=
  ∀ (s : State) (w v : Word) (off : Nat), s.phase = .busy w → off % 8 = 0 →
    ((0x040 ≤ off ∧ off < 0x080) ∨ (0x10000000 ≤ off ∧ off < 0x40000000)) →
    hostAccess (.read 64 (s.cfg.apertureBase + off)) s = .refused .hostHazard ∧
    hostAccess (.write 64 (s.cfg.apertureBase + off) v) s = .refused .hostHazard

/-! ### binary64 arithmetic (spec/00_scope.md R13) -/

/-- R13: `+f` and `-f` of finite values round the exact result, and give an exact zero its IEEE sign (log 12). -/
def Obligations.FloatSumsAreCorrectlyRounded : Prop :=
  ∀ a b : Word, isFiniteFloat a → isFiniteFloat b →
    RoundsTo ((floatValue a + floatValue b : ℚ) : ℝ) (fadd a b) ∧
    (floatValue a + floatValue b = 0 →
      fadd a b = if floatSign a && floatSign b then 0x8000000000000000 else 0) ∧
    RoundsTo ((floatValue a - floatValue b : ℚ) : ℝ) (fsub a b) ∧
    (floatValue a - floatValue b = 0 →
      fsub a b = if floatSign a && !floatSign b then 0x8000000000000000 else 0)

/-- R13: `*f` and `/f` of finite values round the exact result, with the exclusive or of the signs (log 12). -/
def Obligations.FloatProductsAreCorrectlyRounded : Prop :=
  ∀ a b : Word, isFiniteFloat a → isFiniteFloat b →
    RoundsTo ((floatValue a * floatValue b : ℚ) : ℝ) (fmul a b) ∧
    floatSign (fmul a b) = (floatSign a ^^ floatSign b) ∧
    (floatValue b ≠ 0 →
      RoundsTo ((floatValue a / floatValue b : ℚ) : ℝ) (fdiv a b) ∧
      floatSign (fdiv a b) = (floatSign a ^^ floatSign b))

/-- R13: every NaN an operation produces is the canonical NaN, and a NaN operand gives it.
Infinite operands, products of an infinity and zero, and division by zero give what IEEE 754 gives; those clauses
rest on the model's reading of R13 (log 12). -/
def Obligations.NaNResultsAreCanonical : Prop :=
  (∀ a b : Word,
    (∀ r, r = fadd a b ∨ r = fsub a b ∨ r = fmul a b ∨ r = fdiv a b → isNaNFloat r → r = 0x7FF8000000000000) ∧
    (isNaNFloat a ∨ isNaNFloat b →
      fadd a b = 0x7FF8000000000000 ∧ fsub a b = 0x7FF8000000000000 ∧
      fmul a b = 0x7FF8000000000000 ∧ fdiv a b = 0x7FF8000000000000)) ∧
  (∀ s t : Bool,
    fadd (infinity s) (infinity t) = (if s = t then infinity s else 0x7FF8000000000000) ∧
    fsub (infinity s) (infinity t) = (if s = t then 0x7FF8000000000000 else infinity s) ∧
    fmul (infinity s) (infinity t) = infinity (s ^^ t) ∧
    fdiv (infinity s) (infinity t) = 0x7FF8000000000000) ∧
  (∀ (s : Bool) (x : Word), isFiniteFloat x →
    fadd (infinity s) x = infinity s ∧ fadd x (infinity s) = infinity s ∧
    fsub (infinity s) x = infinity s ∧ fsub x (infinity s) = infinity (!s) ∧
    fmul (infinity s) x = (if floatValue x = 0 then 0x7FF8000000000000 else infinity (s ^^ floatSign x)) ∧
    fmul x (infinity s) = (if floatValue x = 0 then 0x7FF8000000000000 else infinity (floatSign x ^^ s)) ∧
    fdiv (infinity s) x = infinity (s ^^ floatSign x) ∧
    fdiv x (infinity s) = signedZero (floatSign x ^^ s)) ∧
  ∀ x y : Word, isFiniteFloat x → isFiniteFloat y → floatValue y = 0 →
    fdiv x y = if floatValue x = 0 then 0x7FF8000000000000 else infinity (floatSign x ^^ floatSign y)
end

