-- ==== Sys2Proof/Laws/Arithmetic.lean ====
section
/-! SUPPORT. Modular powers, powers of two and the shape of the transform. -/

namespace Sys2Proof.Machine

theorem powModFuel_eq (p fuel b e : Nat) (h : e < 2 ^ fuel) : powModFuel p fuel b e = b ^ e % p := by
  induction fuel generalizing b e with
  | zero =>
    have : e = 0 := by simpa using h
    simp [powModFuel, this]
  | succ fuel ih =>
    have hh : e / 2 < 2 ^ fuel := by rw [pow_succ] at h; omega
    have hsq : (mulMod p b b) ^ (e / 2) % p = b ^ (2 * (e / 2)) % p := by
      rw [mulMod, ← Nat.pow_mod, pow_mul, sq]
    rw [powModFuel]
    split
    · next h0 => simp [h0]
    · split
      · next h1 =>
        rw [ih _ _ hh, mulMod, Nat.mul_mod, Nat.mod_mod, hsq, ← Nat.mul_mod, ← pow_succ']
        congr 2; omega
      · rw [ih _ _ hh, hsq]
        congr 2; omega

/-- Repeated squaring computes the power. -/
theorem powMod_eq (p b e : Nat) : powMod p b e = b ^ e % p := by
  have h : e < 2 ^ (Nat.log2 e + 1) := Nat.lt_log2_self
  rw [powMod, powModFuel_eq _ _ _ _ h, ← Nat.pow_mod]

theorem invMod_eq (p n : Nat) : invMod p n = n ^ (p - 2) % p := powMod_eq ..

/-- `nextPow2` is a power of two at least its argument, and the least. -/
theorem ceilLog2_le_iff (x j : Nat) : ceilLog2 x ≤ j ↔ x ≤ 2 ^ j := by
  unfold ceilLog2
  split
  · next h =>
    have := Nat.one_le_two_pow (n := j)
    simp; omega
  · next h =>
    have hx : x - 1 ≠ 0 := by omega
    rw [Nat.succ_le_iff, Nat.log2_lt hx]
    omega

theorem le_nextPow2 (x : Nat) : x ≤ nextPow2 x := (ceilLog2_le_iff x _).1 le_rfl

theorem nextPow2_le {x j : Nat} (h : x ≤ 2 ^ j) : nextPow2 x ≤ 2 ^ j :=
  Nat.pow_le_pow_right (by omega) ((ceilLog2_le_iff x j).2 h)

@[simp] theorem length_evens {α : Type} (l : List α) : (evens l).length = (l.length + 1) / 2 := by
  induction l using evens.induct with
  | case1 => simp [evens]
  | case2 => simp [evens]
  | case3 a b l ih => simp [evens, ih]; omega

@[simp] theorem length_odds {α : Type} (l : List α) : (odds l).length = l.length / 2 := by
  induction l using odds.induct with
  | case1 => simp [odds]
  | case2 => simp [odds]
  | case3 a b l ih => simp [odds, ih]; omega

theorem length_butterflies (p : Params) (dom : Dom) (r w : Elem) (as bs : List Elem) :
    (butterflies p dom r w as bs).length = min as.length bs.length := by
  induction as generalizing w bs with
  | nil => simp [butterflies]
  | cons a as ih =>
    cases bs with
    | nil => simp [butterflies]
    | cons b bs => simp [butterflies, ih]

/-- The transform of `2^j` elements has `2^j` elements. -/
theorem length_transform (p : Params) (dom : Dom) (dir : Dir) (j : Nat) (a : List Elem)
    (h : a.length = 2 ^ j) : (transform p dom dir j a).length = 2 ^ j := by
  induction j generalizing a with
  | zero => exact h
  | succ j ih =>
    have h2 : 2 ^ (j + 1) = 2 * 2 ^ j := by ring
    simp only [transform, List.length_append, List.length_map, length_butterflies]
    rw [ih _ (by rw [length_evens]; omega), ih _ (by rw [length_odds]; omega)]
    simp; omega

end Sys2Proof.Machine
end

