-- ==== Sys2Proof/Laws/Memory.lean ====
section
/-! SUPPORT. Laws of the byte memory: reading after writing, frames, and the canonical form. -/

namespace Sys2Proof.Machine

/-! ### Ranges -/

theorem inRange_iff {a len k : Nat} : inRange a len k = true ↔ a ≤ k ∧ k < a + len := by
  simp [inRange, Nat.blt_eq]

theorem inRange_eq_false_iff {a len k : Nat} : inRange a len k = false ↔ k < a ∨ a + len ≤ k := by
  rw [← Bool.not_eq_true, inRange_iff]; omega

/-! ### One byte -/

@[simp] theorem Memory.read_nil (a : Nat) : Memory.read [] a = none := rfl

theorem Memory.read_append (m n : Memory) (a : Nat) :
    Memory.read (m ++ n) a = (Memory.read m a).or (Memory.read n a) := by
  induction m with
  | nil => simp
  | cons c m ih =>
    obtain ⟨k, b⟩ := c
    by_cases h : k = a <;> simp [Memory.read, h, ih]

/-- A filter on addresses keeps the bytes of the addresses it passes, and no other. -/
theorem Memory.read_filter (f : Nat → Bool) (m : Memory) (a : Nat) :
    Memory.read (m.filter fun c => f c.1) a = if f a then Memory.read m a else none := by
  induction m with
  | nil => simp
  | cons c m ih =>
    obtain ⟨k, b⟩ := c
    by_cases h : k = a
    · subst h
      by_cases hf : f k = true <;> simp [Memory.read, hf, ih]
    · by_cases hf : f k = true <;> simp [Memory.read, hf, h, ih]

theorem Memory.read_below (m : Memory) (a b : Nat) :
    (m.below a).read b = if b < a then m.read b else none := by
  simpa [Memory.below, Nat.blt_eq] using Memory.read_filter (fun k => Nat.blt k a) m b

theorem Memory.read_atOrAbove (m : Memory) (a b : Nat) :
    (m.atOrAbove a).read b = if a ≤ b then m.read b else none := by
  simpa [Memory.atOrAbove] using Memory.read_filter (fun k => Nat.ble a k) m b

theorem Memory.read_slice (m : Memory) (a len b : Nat) :
    (m.slice a len).read b = if a ≤ b ∧ b < a + len then m.read b else none := by
  simpa [Memory.slice, inRange_iff] using Memory.read_filter (inRange a len) m b

theorem read_cellsFrom (bs : List Byte) (a b : Nat) :
    Memory.read (cellsFrom a bs) b = if a ≤ b then bs[b - a]? else none := by
  induction bs generalizing a with
  | nil => simp [cellsFrom]
  | cons c bs ih =>
    by_cases h : a = b
    · subst h; simp [cellsFrom, Memory.read]
    · rw [cellsFrom, Memory.read, if_neg h, ih]
      by_cases hb : a + 1 ≤ b
      · rw [if_pos hb, if_pos (by omega)]
        have : b - a = (b - (a + 1)) + 1 := by omega
        rw [this, List.getElem?_cons_succ]
      · rw [if_neg hb, if_neg (by omega)]

/-- Read one byte after a write: the written byte inside the range, the old byte outside it. -/
theorem Memory.read_write (m : Memory) (a : Nat) (bs : List Byte) (b : Nat) :
    (m.write a bs).read b = if a ≤ b ∧ b < a + bs.length then bs[b - a]? else m.read b := by
  rw [Memory.write, Memory.read_append, Memory.read_append, Memory.read_below, Memory.read_atOrAbove,
    read_cellsFrom]
  by_cases h1 : b < a
  · simp [h1, show ¬ a ≤ b by omega, show ¬ a + bs.length ≤ b by omega]
  · by_cases h2 : b < a + bs.length
    · have : b - a < bs.length := by omega
      simp [h1, h2, show a ≤ b by omega, this]
    · have : bs[b - a]? = none := by simp; omega
      simp [h1, h2, show a ≤ b by omega, show a + bs.length ≤ b by omega, this]

/-- A write leaves every byte outside its range alone. -/
theorem Memory.read_write_outside {m : Memory} {a b : Nat} {bs : List Byte}
    (h : b < a ∨ a + bs.length ≤ b) : (m.write a bs).read b = m.read b := by
  rw [Memory.read_write, if_neg (by omega)]

/-- Erased bytes are unwritten; every other byte is left alone. -/
theorem Memory.read_erase (m : Memory) (a len b : Nat) :
    (m.erase a len).read b = if a ≤ b ∧ b < a + len then none else m.read b := by
  rw [Memory.erase, Memory.read_append, Memory.read_below, Memory.read_atOrAbove]
  by_cases h1 : b < a
  · simp [h1, show ¬ a ≤ b by omega, show ¬ a + len ≤ b by omega]
  · by_cases h2 : b < a + len
    · simp [h1, h2, show a ≤ b by omega, show ¬ a + len ≤ b by omega]
    · simp [h1, h2, show a + len ≤ b by omega]

/-! ### The canonical form -/

theorem mem_cellsFrom {bs : List Byte} {a : Nat} {c : Host.Cell} (h : c ∈ cellsFrom a bs) :
    a ≤ c.1 ∧ c.1 < a + bs.length := by
  induction bs generalizing a with
  | nil => simp [cellsFrom] at h
  | cons b bs ih =>
    rcases List.mem_cons.1 h with rfl | h
    · simp
    · have := ih h; simp only [List.length_cons]; omega

theorem cellsFrom_wf (a : Nat) (bs : List Byte) : Memory.wf (cellsFrom a bs) := by
  induction bs generalizing a with
  | nil => exact List.Pairwise.nil
  | cons b bs ih =>
    refine List.Pairwise.cons (fun c hc => ?_) (ih (a + 1))
    have := mem_cellsFrom hc; simp only; omega

theorem Memory.mem_below {m : Memory} {a : Nat} {c : Host.Cell} :
    c ∈ m.below a ↔ c ∈ m ∧ c.1 < a := by simp [Memory.below, Nat.blt_eq]

theorem Memory.mem_atOrAbove {m : Memory} {a : Nat} {c : Host.Cell} :
    c ∈ m.atOrAbove a ↔ c ∈ m ∧ a ≤ c.1 := by simp [Memory.atOrAbove]

theorem Memory.mem_write {m : Memory} {a : Nat} {bs : List Byte} {c : Host.Cell}
    (h : c ∈ m.write a bs) : (c ∈ m) ∨ (a ≤ c.1 ∧ c.1 < a + bs.length) := by
  simp only [Memory.write, List.mem_append, Memory.mem_below, Memory.mem_atOrAbove] at h
  rcases h with (h | h) | h
  · exact .inl h.1
  · exact .inr (mem_cellsFrom h)
  · exact .inl h.1

theorem Memory.mem_erase {m : Memory} {a len : Nat} {c : Host.Cell} :
    c ∈ m.erase a len ↔ c ∈ m ∧ (c.1 < a ∨ a + len ≤ c.1) := by
  simp only [Memory.erase, List.mem_append, Memory.mem_below, Memory.mem_atOrAbove]; tauto

theorem Memory.wf_filter {m : Memory} (h : m.wf) (f : Host.Cell → Bool) : Memory.wf (m.filter f) :=
  List.Pairwise.filter f h

/-- A write keeps the canonical form. -/
theorem Memory.wf_write {m : Memory} (h : m.wf) (a : Nat) (bs : List Byte) : (m.write a bs).wf := by
  refine List.pairwise_append.2 ⟨List.pairwise_append.2 ⟨Memory.wf_filter h _, cellsFrom_wf a bs, ?_⟩,
    Memory.wf_filter h _, ?_⟩
  · intro c hc d hd
    have := (Memory.mem_below.1 hc).2; have := mem_cellsFrom hd; omega
  · intro c hc d hd
    have h2 := (Memory.mem_atOrAbove.1 hd).2
    rcases List.mem_append.1 hc with hc | hc
    · have := (Memory.mem_below.1 hc).2; omega
    · have := mem_cellsFrom hc; omega

/-- An erasure keeps the canonical form. -/
theorem Memory.wf_erase {m : Memory} (h : m.wf) (a len : Nat) : (m.erase a len).wf := by
  refine List.pairwise_append.2 ⟨Memory.wf_filter h _, Memory.wf_filter h _, ?_⟩
  intro c hc d hd
  have := (Memory.mem_below.1 hc).2; have := (Memory.mem_atOrAbove.1 hd).2; omega

theorem Memory.wf_writeWords {m : Memory} (h : m.wf) (a : Nat) (ws : List Word) :
    (m.writeWords a ws).wf := Memory.wf_write h a _

/-- The memory after reset has the canonical form. -/
theorem reset_memory_wf : State.reset.mem.wf := List.Pairwise.nil

/-! ### Words -/

@[simp] theorem length_bytesOfWord (w : Word) : (bytesOfWord w).length = 8 := by simp [bytesOfWord]

theorem getElem?_bytesOfWord (w : Word) {b : Nat} (h : b < 8) :
    (bytesOfWord w)[b]? = some (w.extractLsb' (8 * b) 8) := by
  have : BitVec.ofNat 8 (w.toNat / 2 ^ (8 * b)) = w.extractLsb' (8 * b) 8 := by
    apply BitVec.eq_of_toNat_eq
    simp [BitVec.extractLsb'_toNat, Nat.shiftRight_eq_div_pow]
  simp [bytesOfWord, List.getElem?_map, List.getElem?_range h, this]

theorem natOfBytes_bytesOfWord (w : Word) : natOfBytes (bytesOfWord w) = w.toNat := by
  have := w.isLt
  simp [bytesOfWord, List.range_succ, natOfBytes]
  omega

@[simp] theorem wordOfBytes_bytesOfWord (w : Word) :
    BitVec.ofNat 64 (natOfBytes (bytesOfWord w)) = w := by
  rw [natOfBytes_bytesOfWord]; simp

@[simp] theorem length_flatMap_bytesOfWord (ws : List Word) :
    (ws.flatMap bytesOfWord).length = 8 * ws.length := by
  induction ws with
  | nil => rfl
  | cons w ws ih => simp [List.flatMap_cons, ih]; omega

/-! ### Slices and words -/

theorem Memory.slice_append (m n : Memory) (a len : Nat) :
    Memory.slice (m ++ n) a len = Memory.slice m a len ++ Memory.slice n a len :=
  List.filter_append ..

theorem Memory.slice_slice {m : Memory} {a len b n : Nat} (h1 : a ≤ b) (h2 : b + n ≤ a + len) :
    (m.slice a len).slice b n = m.slice b n := by
  simp only [Memory.slice, List.filter_filter]
  apply List.filter_congr
  intro c _
  rw [Bool.eq_iff_iff]
  simp only [Bool.and_eq_true, inRange_iff]
  omega

theorem Memory.slice_eq_nil {m : Memory} {a len : Nat} (h : ∀ c ∈ m, c.1 < a ∨ a + len ≤ c.1) :
    m.slice a len = [] := by
  apply List.filter_eq_nil_iff.2
  intro c hc
  rw [Bool.not_eq_true, inRange_eq_false_iff]
  exact h c hc

theorem cellsFrom_append (a : Nat) (bs cs : List Byte) :
    cellsFrom a (bs ++ cs) = cellsFrom a bs ++ cellsFrom (a + bs.length) cs := by
  induction bs generalizing a with
  | nil => simp [cellsFrom]
  | cons b bs ih => simp [cellsFrom, ih]; congr 1; omega

theorem map_fst_cellsFrom (a : Nat) (bs : List Byte) :
    (cellsFrom a bs).map Prod.fst = List.range' a bs.length := by
  induction bs generalizing a with
  | nil => rfl
  | cons b bs ih => simp [cellsFrom, ih, List.range'_succ]

theorem map_snd_cellsFrom (a : Nat) (bs : List Byte) : (cellsFrom a bs).map Prod.snd = bs := by
  induction bs generalizing a with
  | nil => rfl
  | cons b bs ih => simp [cellsFrom, ih]

theorem slice_cellsFrom_self (a : Nat) (bs : List Byte) :
    Memory.slice (cellsFrom a bs) a bs.length = cellsFrom a bs := by
  apply List.filter_eq_self.2
  intro c hc
  exact inRange_iff.2 (mem_cellsFrom hc)

/-- A write is all its range sees. -/
theorem Memory.slice_write_self (m : Memory) (a : Nat) (bs : List Byte) :
    (m.write a bs).slice a bs.length = cellsFrom a bs := by
  rw [Memory.write, Memory.slice_append, Memory.slice_append, slice_cellsFrom_self,
    Memory.slice_eq_nil (m := m.below a), Memory.slice_eq_nil (m := m.atOrAbove _)]
  · simp
  · intro c hc; have := (Memory.mem_atOrAbove.1 hc).2; omega
  · intro c hc; have := (Memory.mem_below.1 hc).2; omega

/-- A write leaves a range apart from its own as it was. -/
theorem Memory.slice_write_outside {m : Memory} {a b n : Nat} {bs : List Byte}
    (h : b + n ≤ a ∨ a + bs.length ≤ b) : (m.write a bs).slice b n = m.slice b n := by
  rw [Memory.write, Memory.slice_append, Memory.slice_append,
    Memory.slice_eq_nil (m := cellsFrom a bs) (by intro c hc; have := mem_cellsFrom hc; omega)]
  simp only [Memory.slice, Memory.below, Memory.atOrAbove, List.filter_filter, List.append_nil]
  rcases h with h | h
  · have he : (m.filter fun c => inRange b n c.1 && Nat.ble (a + bs.length) c.1) = [] := by
      apply List.filter_eq_nil_iff.2
      intro c _
      simp only [Bool.and_eq_true, inRange_iff, Nat.ble_eq]
      omega
    rw [he, List.append_nil]
    apply List.filter_congr
    intro c _
    rw [Bool.eq_iff_iff]
    simp only [Bool.and_eq_true, inRange_iff, Nat.blt_eq]
    omega
  · have he : (m.filter fun c => inRange b n c.1 && Nat.blt c.1 a) = [] := by
      apply List.filter_eq_nil_iff.2
      intro c _
      simp only [Bool.and_eq_true, inRange_iff, Nat.blt_eq]
      omega
    rw [he, List.nil_append]
    apply List.filter_congr
    intro c _
    rw [Bool.eq_iff_iff]
    simp only [Bool.and_eq_true, inRange_iff, Nat.ble_eq]
    omega

theorem Memory.readWord_slice {m : Memory} {a len b : Nat} (h1 : a ≤ b) (h2 : b + 8 ≤ a + len) :
    (m.slice a len).readWord b = m.readWord b := by
  simp only [Memory.readWord, Memory.slice_slice h1 h2]

/-- A word apart from a write reads as before. -/
theorem Memory.readWord_write_outside {m : Memory} {a b : Nat} {bs : List Byte}
    (h : b + 8 ≤ a ∨ a + bs.length ≤ b) : (m.write a bs).readWord b = m.readWord b := by
  simp only [Memory.readWord, Memory.slice_write_outside h]

/-- A word of a written block reads as it was written. -/
theorem Memory.readWord_writeWords {m : Memory} {a : Nat} {ws : List Word} {i : Nat}
    (h : i < ws.length) : (m.writeWords a ws).readWord (a + 8 * i) = some ws[i] := by
  have hs : (m.writeWords a ws).slice (a + 8 * i) 8 = cellsFrom (a + 8 * i) (bytesOfWord ws[i]) := by
    have hw : ws = ws.take i ++ ws[i] :: ws.drop (i + 1) := by
      rw [List.cons_getElem_drop_succ, List.take_append_drop]
    have hl := length_flatMap_bytesOfWord ws
    have hlt := length_flatMap_bytesOfWord (ws.take i)
    have hli : (ws.take i).length = i := by simp; omega
    rw [hli] at hlt
    rw [← Memory.slice_slice (m := m.writeWords a ws) (a := a) (len := (ws.flatMap bytesOfWord).length)
      (by omega) (by omega), Memory.writeWords, Memory.slice_write_self]
    conv_lhs => rw [hw]
    rw [List.flatMap_append, List.flatMap_cons, cellsFrom_append, cellsFrom_append, Memory.slice_append,
      Memory.slice_append, hlt]
    rw [Memory.slice_eq_nil (m := cellsFrom a _) (by intro c hc; have := mem_cellsFrom hc; omega),
      Memory.slice_eq_nil (m := cellsFrom (a + 8 * i + _) _) (by
        intro c hc; have := mem_cellsFrom hc; simp at this; omega)]
    have := slice_cellsFrom_self (a + 8 * i) (bytesOfWord ws[i])
    rw [length_bytesOfWord] at this
    simp [this]
  simp only [Memory.readWord, hs, map_fst_cellsFrom, length_bytesOfWord, map_snd_cellsFrom,
    wordOfBytes_bytesOfWord, if_true]

/-- A word apart from a written block reads as before. -/
theorem Memory.readWord_writeWords_outside {m : Memory} {a b : Nat} {ws : List Word}
    (h : b + 8 ≤ a ∨ a + 8 * ws.length ≤ b) : (m.writeWords a ws).readWord b = m.readWord b :=
  Memory.readWord_write_outside (by rwa [length_flatMap_bytesOfWord])

/-- A byte apart from a written block reads as before. -/
theorem Memory.read_writeWords_outside {m : Memory} {a b : Nat} {ws : List Word}
    (h : b < a ∨ a + 8 * ws.length ≤ b) : (m.writeWords a ws).read b = m.read b :=
  Memory.read_write_outside (by rwa [length_flatMap_bytesOfWord])

/-- What a readable word says about its bytes: they are written and spell it, least significant first. -/
theorem Memory.readWord_some {m : Memory} {a : Nat} {w : Word} (h : m.readWord a = some w) :
    m.slice a 8 = cellsFrom a (bytesOfWord w) := by
  unfold Memory.readWord at h
  simp only at h
  split at h
  next hk =>
    have hw := (Option.some.inj h).symm
    generalize hc : m.slice a 8 = c at hk hw
    have hlen : c.length = 8 := by simpa using congrArg List.length hk
    obtain ⟨c0, c1, c2, c3, c4, c5, c6, c7, rfl⟩ :
        ∃ c0 c1 c2 c3 c4 c5 c6 c7, c = [c0, c1, c2, c3, c4, c5, c6, c7] := by
      match c, hlen with
      | [c0, c1, c2, c3, c4, c5, c6, c7], _ => exact ⟨c0, c1, c2, c3, c4, c5, c6, c7, rfl⟩
    obtain ⟨k0, b0⟩ := c0
    obtain ⟨k1, b1⟩ := c1
    obtain ⟨k2, b2⟩ := c2
    obtain ⟨k3, b3⟩ := c3
    obtain ⟨k4, b4⟩ := c4
    obtain ⟨k5, b5⟩ := c5
    obtain ⟨k6, b6⟩ := c6
    obtain ⟨k7, b7⟩ := c7
    simp [List.range'_succ] at hk
    obtain ⟨rfl, rfl, rfl, rfl, rfl, rfl, rfl, rfl⟩ := hk
    subst hw
    have e : ∀ b : Byte, b.toNat < 256 := fun b => b.isLt
    have := e b0; have := e b1; have := e b2; have := e b3
    have := e b4; have := e b5; have := e b6; have := e b7
    simp [cellsFrom, bytesOfWord, List.range_succ, natOfBytes, ← BitVec.toNat_inj]
    omega
  next => simp at h

end Sys2Proof.Machine
end

