-- ==== Sys2Proof/Laws/State.lean ====
section
/-! SUPPORT. One lemma per field per update of State. -/

namespace Sys2Proof.Machine

section
variable (s : State) (k : BufIx) (n : Nat) (b : Bool) (ds : List Int) (es : List Elem) (w : Word) (e : ErrCode)

@[simp] theorem State.cfg_setLen : (s.setLen k n).cfg = s.cfg := rfl
@[simp] theorem State.phase_setLen : (s.setLen k n).phase = s.phase := rfl
@[simp] theorem State.ie_setLen : (s.setLen k n).ie = s.ie := rfl
@[simp] theorem State.done_setLen : (s.setLen k n).done = s.done := rfl
@[simp] theorem State.ovr_setLen : (s.setLen k n).ovr = s.ovr := rfl
@[simp] theorem State.err_setLen : (s.setLen k n).err = s.err := rfl
@[simp] theorem State.curCmd_setLen : (s.setLen k n).curCmd = s.curCmd := rfl
@[simp] theorem State.dlen_setLen : (s.setLen k n).dlen = s.dlen.set k.val (BitVec.ofNat 32 n) k.isLt := rfl
@[simp] theorem State.dsign_setLen : (s.setLen k n).dsign = s.dsign := rfl
@[simp] theorem State.mem_setLen : (s.setLen k n).mem = s.mem := rfl
@[simp] theorem State.events_setLen : (s.setLen k n).events = s.events := rfl
@[simp] theorem State.resp_setLen : (s.setLen k n).resp = s.resp := rfl

@[simp] theorem State.cfg_setSign : (s.setSign k b).cfg = s.cfg := rfl
@[simp] theorem State.phase_setSign : (s.setSign k b).phase = s.phase := rfl
@[simp] theorem State.ie_setSign : (s.setSign k b).ie = s.ie := rfl
@[simp] theorem State.done_setSign : (s.setSign k b).done = s.done := rfl
@[simp] theorem State.ovr_setSign : (s.setSign k b).ovr = s.ovr := rfl
@[simp] theorem State.err_setSign : (s.setSign k b).err = s.err := rfl
@[simp] theorem State.curCmd_setSign : (s.setSign k b).curCmd = s.curCmd := rfl
@[simp] theorem State.dlen_setSign : (s.setSign k b).dlen = s.dlen := rfl
@[simp] theorem State.dsign_setSign : (s.setSign k b).dsign = s.dsign.set k.val b k.isLt := rfl
@[simp] theorem State.mem_setSign : (s.setSign k b).mem = s.mem := rfl
@[simp] theorem State.events_setSign : (s.setSign k b).events = s.events := rfl
@[simp] theorem State.resp_setSign : (s.setSign k b).resp = s.resp := rfl

@[simp] theorem State.cfg_writeDigits : (s.writeDigits k ds).cfg = s.cfg := rfl
@[simp] theorem State.phase_writeDigits : (s.writeDigits k ds).phase = s.phase := rfl
@[simp] theorem State.ie_writeDigits : (s.writeDigits k ds).ie = s.ie := rfl
@[simp] theorem State.done_writeDigits : (s.writeDigits k ds).done = s.done := rfl
@[simp] theorem State.ovr_writeDigits : (s.writeDigits k ds).ovr = s.ovr := rfl
@[simp] theorem State.err_writeDigits : (s.writeDigits k ds).err = s.err := rfl
@[simp] theorem State.curCmd_writeDigits : (s.writeDigits k ds).curCmd = s.curCmd := rfl
@[simp] theorem State.dlen_writeDigits : (s.writeDigits k ds).dlen = s.dlen := rfl
@[simp] theorem State.dsign_writeDigits : (s.writeDigits k ds).dsign = s.dsign := rfl
@[simp] theorem State.mem_writeDigits : (s.writeDigits k ds).mem = s.mem.writeWords (digitAddr k 0) (ds.map (BitVec.ofInt 64)) := rfl
@[simp] theorem State.events_writeDigits : (s.writeDigits k ds).events = s.events := rfl
@[simp] theorem State.resp_writeDigits : (s.writeDigits k ds).resp = s.resp := rfl

@[simp] theorem State.cfg_writeElems : (s.writeElems k es).cfg = s.cfg := rfl
@[simp] theorem State.phase_writeElems : (s.writeElems k es).phase = s.phase := rfl
@[simp] theorem State.ie_writeElems : (s.writeElems k es).ie = s.ie := rfl
@[simp] theorem State.done_writeElems : (s.writeElems k es).done = s.done := rfl
@[simp] theorem State.ovr_writeElems : (s.writeElems k es).ovr = s.ovr := rfl
@[simp] theorem State.err_writeElems : (s.writeElems k es).err = s.err := rfl
@[simp] theorem State.curCmd_writeElems : (s.writeElems k es).curCmd = s.curCmd := rfl
@[simp] theorem State.dlen_writeElems : (s.writeElems k es).dlen = s.dlen := rfl
@[simp] theorem State.dsign_writeElems : (s.writeElems k es).dsign = s.dsign := rfl
@[simp] theorem State.mem_writeElems : (s.writeElems k es).mem = s.mem.writeWords (elemAddr k 0) (es.flatMap fun e => [e.lo, e.hi]) := rfl
@[simp] theorem State.events_writeElems : (s.writeElems k es).events = s.events := rfl
@[simp] theorem State.resp_writeElems : (s.writeElems k es).resp = s.resp := rfl

@[simp] theorem State.cfg_accept : (s.accept w).cfg = s.cfg := rfl
@[simp] theorem State.phase_accept : (s.accept w).phase = .busy w := rfl
@[simp] theorem State.ie_accept : (s.accept w).ie = s.ie := rfl
@[simp] theorem State.done_accept : (s.accept w).done = false := rfl
@[simp] theorem State.ovr_accept : (s.accept w).ovr = s.ovr := rfl
@[simp] theorem State.err_accept : (s.accept w).err = .none := rfl
@[simp] theorem State.curCmd_accept : (s.accept w).curCmd = w := rfl
@[simp] theorem State.dlen_accept : (s.accept w).dlen = s.dlen := rfl
@[simp] theorem State.dsign_accept : (s.accept w).dsign = s.dsign := rfl
@[simp] theorem State.mem_accept : (s.accept w).mem = s.mem := rfl
@[simp] theorem State.events_accept : (s.accept w).events = s.events := rfl
@[simp] theorem State.resp_accept : (s.accept w).resp = s.resp := rfl

@[simp] theorem State.cfg_complete : (s.complete e).cfg = s.cfg := rfl
@[simp] theorem State.phase_complete : (s.complete e).phase = .idle := rfl
@[simp] theorem State.ie_complete : (s.complete e).ie = s.ie := rfl
@[simp] theorem State.done_complete : (s.complete e).done = true := rfl
@[simp] theorem State.ovr_complete : (s.complete e).ovr = s.ovr := rfl
@[simp] theorem State.err_complete : (s.complete e).err = e := rfl
@[simp] theorem State.curCmd_complete : (s.complete e).curCmd = s.curCmd := rfl
@[simp] theorem State.dlen_complete : (s.complete e).dlen = s.dlen := rfl
@[simp] theorem State.dsign_complete : (s.complete e).dsign = s.dsign := rfl
@[simp] theorem State.mem_complete : (s.complete e).mem = s.mem := rfl
@[simp] theorem State.events_complete : (s.complete e).events = s.events := rfl
@[simp] theorem State.resp_complete : (s.complete e).resp = s.resp := rfl

@[simp] theorem State.cfg_writeStatus : (s.writeStatus w).cfg = s.cfg := rfl
@[simp] theorem State.phase_writeStatus : (s.writeStatus w).phase = s.phase := rfl
@[simp] theorem State.ie_writeStatus : (s.writeStatus w).ie = s.ie := rfl
@[simp] theorem State.done_writeStatus : (s.writeStatus w).done = (s.done && !w.getLsbD 1) := rfl
@[simp] theorem State.ovr_writeStatus : (s.writeStatus w).ovr = (s.ovr && !w.getLsbD 2) := rfl
@[simp] theorem State.err_writeStatus : (s.writeStatus w).err = s.err := rfl
@[simp] theorem State.curCmd_writeStatus : (s.writeStatus w).curCmd = s.curCmd := rfl
@[simp] theorem State.dlen_writeStatus : (s.writeStatus w).dlen = s.dlen := rfl
@[simp] theorem State.dsign_writeStatus : (s.writeStatus w).dsign = s.dsign := rfl
@[simp] theorem State.mem_writeStatus : (s.writeStatus w).mem = s.mem := rfl
@[simp] theorem State.events_writeStatus : (s.writeStatus w).events = s.events := rfl
@[simp] theorem State.resp_writeStatus : (s.writeStatus w).resp = s.resp := rfl
end

/-! ### Lengths and signs -/

theorem State.len_setLen (s : State) (k j : BufIx) (n : Nat) :
    (s.setLen k n).len j = if k = j then n % 2 ^ 32 else s.len j := by
  by_cases h : k = j
  · subst h; simp [State.len, State.setLen]
  · have hv : k.val ≠ j.val := fun hk => h (Fin.ext hk)
    simp [State.len, State.setLen, h, hv]

@[simp] theorem State.sign_setLen (s : State) (k j : BufIx) (n : Nat) : (s.setLen k n).sign j = s.sign j := rfl

theorem State.sign_setSign (s : State) (k j : BufIx) (b : Bool) :
    (s.setSign k b).sign j = if k = j then b else s.sign j := by
  by_cases h : k = j
  · subst h; simp [State.sign, State.setSign]
  · have hv : k.val ≠ j.val := fun hk => h (Fin.ext hk)
    simp [State.sign, State.setSign, h, hv]

@[simp] theorem State.len_setSign (s : State) (k j : BufIx) (b : Bool) : (s.setSign k b).len j = s.len j := rfl

@[simp] theorem State.len_writeDigits (s : State) (k j : BufIx) (ds : List Int) :
    (s.writeDigits k ds).len j = s.len j := rfl

@[simp] theorem State.sign_writeDigits (s : State) (k j : BufIx) (ds : List Int) :
    (s.writeDigits k ds).sign j = s.sign j := rfl

@[simp] theorem State.len_writeElems (s : State) (k j : BufIx) (es : List Elem) :
    (s.writeElems k es).len j = s.len j := rfl

@[simp] theorem State.sign_writeElems (s : State) (k j : BufIx) (es : List Elem) :
    (s.writeElems k es).sign j = s.sign j := rfl

@[simp] theorem State.len_complete (s : State) (j : BufIx) (e : ErrCode) : (s.complete e).len j = s.len j := rfl

@[simp] theorem State.sign_complete (s : State) (j : BufIx) (e : ErrCode) : (s.complete e).sign j = s.sign j := rfl

/-- Completion forgets an earlier completion. -/
@[simp] theorem State.complete_complete (s : State) (e f : ErrCode) :
    (s.complete e).complete f = s.complete f := rfl

end Sys2Proof.Machine
end

