-- ==== Sys2Proof/Laws/Operands.lean ====
section
/-! SUPPORT. What reading and writing digit and sequence buffers do. -/

namespace Sys2Proof.Machine

/-! ### Lists of readings -/

/-- `collect` answers a list exactly when it lists every reading. -/
theorem collect_eq_some_iff {α : Type} {f : Nat → Option α} {i n : Nat} {l : List α} :
    collect f i n = some l ↔ l.length = n ∧ ∀ j (h : j < l.length), f (i + j) = some l[j] := by
  induction n generalizing i l with
  | zero =>
    rw [collect]
    constructor
    · intro h; cases Option.some.inj h; simp
    · rintro ⟨h, _⟩; rw [List.length_eq_zero_iff.1 h]
  | succ n ih =>
    rw [collect]
    constructor
    · intro h
      split at h
      next a as ha has =>
        cases Option.some.inj h
        obtain ⟨hl, hg⟩ := ih.1 has
        refine ⟨by simp [hl], fun j hj => ?_⟩
        cases j with
        | zero => simpa using ha
        | succ j =>
          have := hg j (by simpa using hj)
          simpa [Nat.add_assoc, Nat.add_comm 1] using this
      next => simp at h
    · rintro ⟨hl, hg⟩
      match l, hl with
      | a :: as, hl =>
        have h0 : f i = some a := hg 0 (by simp)
        have hs : collect f (i + 1) n = some as := by
          refine ih.2 ⟨by simpa using hl, fun j hj => ?_⟩
          have := hg (j + 1) (by simpa using hj)
          simpa [Nat.add_assoc, Nat.add_comm 1] using this
        rw [h0, hs]

theorem collect_congr {α : Type} {f g : Nat → Option α} {i n : Nat}
    (h : ∀ j, i ≤ j → j < i + n → f j = g j) : collect f i n = collect g i n := by
  induction n generalizing i with
  | zero => rfl
  | succ n ih =>
    rw [collect, collect, h i (by omega) (by omega), ih fun j h1 h2 => h j (by omega) (by omega)]

/-- `collect` answers when every reading has a value. -/
theorem collect_isSome {α : Type} {f : Nat → Option α} {i n : Nat}
    (h : ∀ j, i ≤ j → j < i + n → (f j).isSome) : (collect f i n).isSome := by
  induction n generalizing i with
  | zero => rfl
  | succ n ih =>
    obtain ⟨a, ha⟩ := Option.isSome_iff_exists.1 (h i (by omega) (by omega))
    obtain ⟨as, has⟩ := Option.isSome_iff_exists.1 (ih (i := i + 1) fun j h1 h2 => h j (by omega) (by omega))
    simp [collect, ha, has]

/-! ### Reads -/

theorem digitIn_slice {m : Memory} {k : BufIx} {i n : Nat} (h : i < n) :
    digitIn (m.slice (digitAddr k 0) (8 * n)) k i = digitIn m k i := by
  rw [digitIn, digitIn, Memory.readWord_slice] <;> simp only [digitAddr] <;> omega

theorem elemIn_slice {m : Memory} {dom : Dom} {k : BufIx} {i n : Nat} (h : i < n) :
    elemIn (m.slice (elemAddr k 0) (16 * n)) dom k i = elemIn m dom k i := by
  cases dom
  · rw [elemIn, elemIn, Memory.readWord_slice, Memory.readWord_slice] <;> simp only [elemAddr] <;> omega
  · rw [elemIn, elemIn, Memory.readWord_slice] <;> simp only [elemAddr] <;> omega

/-- The digits of a buffer are its entries, one by one. -/
theorem State.digits_eq_collect (s : State) (k : BufIx) (n : Nat) :
    s.digits k n = collect (s.digit k) 0 n :=
  collect_congr fun j _ hj => digitIn_slice (by omega)

/-- The elements of a buffer are its entries, one by one. -/
theorem State.elems_eq_collect (s : State) (dom : Dom) (k : BufIx) (n : Nat) :
    s.elems dom k n = collect (s.elem dom k) 0 n :=
  collect_congr fun j _ hj => elemIn_slice (by omega)

theorem State.digits_eq_some_iff {s : State} {k : BufIx} {n : Nat} {ds : List Int} :
    s.digits k n = some ds ↔ ds.length = n ∧ ∀ j (h : j < ds.length), s.digit k j = some ds[j] := by
  simp [State.digits_eq_collect, collect_eq_some_iff]

theorem State.elems_eq_some_iff {s : State} {dom : Dom} {k : BufIx} {n : Nat} {es : List Elem} :
    s.elems dom k n = some es ↔ es.length = n ∧ ∀ j (h : j < es.length), s.elem dom k j = some es[j] := by
  simp [State.elems_eq_collect, collect_eq_some_iff]

/-! ### Writes -/

theorem digitAddr_add (k : BufIx) (i : Nat) : digitAddr k 0 + 8 * i = digitAddr k i := by
  simp [digitAddr]

theorem elemAddr_add (k : BufIx) (i : Nat) : elemAddr k 0 + 16 * i = elemAddr k i := by
  simp [elemAddr]

@[simp] theorem length_flatMap_elems (es : List Elem) :
    (es.flatMap fun e => [e.lo, e.hi]).length = 2 * es.length := by
  induction es with
  | nil => rfl
  | cons e es ih => simp [List.flatMap_cons, ih]; omega

theorem getElem?_flatMap_elems (es : List Elem) (i : Nat) :
    (es.flatMap fun e => [e.lo, e.hi])[2 * i]? = es[i]?.map Elem.lo ∧
    (es.flatMap fun e => [e.lo, e.hi])[2 * i + 1]? = es[i]?.map Elem.hi := by
  induction es generalizing i with
  | nil => simp
  | cons e es ih =>
    cases i with
    | zero => simp
    | succ i =>
      have h : 2 * (i + 1) = 2 * i + 1 + 1 := by omega
      have := ih i
      simpa [List.flatMap_cons, h] using this

/-- A written block of words reads, word by word, as it was written. -/
theorem Memory.readWord_writeWords? {m : Memory} {a i : Nat} {ws : List Word} {w : Word}
    (h : ws[i]? = some w) : (m.writeWords a ws).readWord (a + 8 * i) = some w := by
  obtain ⟨hi, rfl⟩ := List.getElem?_eq_some_iff.1 h
  exact Memory.readWord_writeWords hi

/-- A written digit reads as the 64-bit two's-complement word of what was written. -/
theorem State.digitWord_writeDigits {s : State} {k : BufIx} {ds : List Int} {i : Nat} {d : Int}
    (h : ds[i]? = some d) : (s.writeDigits k ds).digitWord k i = some (BitVec.ofInt 64 d) := by
  rw [State.digitWord, ← digitAddr_add, State.mem_writeDigits]
  exact Memory.readWord_writeWords? (by simp [h])

/-- A digit write leaves every byte outside the written entries alone. -/
theorem State.read_writeDigits_outside {s : State} {k : BufIx} {ds : List Int} {b : Nat}
    (h : b < digitAddr k 0 ∨ digitAddr k 0 + 8 * ds.length ≤ b) :
    (s.writeDigits k ds).mem.read b = s.mem.read b := by
  rw [State.mem_writeDigits]
  exact Memory.read_writeWords_outside (by simpa using h)

/-- A written element's low word reads as written. -/
theorem State.elemLo_writeElems {s : State} {k : BufIx} {es : List Elem} {i : Nat} {e : Elem}
    (h : es[i]? = some e) : (s.writeElems k es).elemLo k i = some e.lo := by
  have h2 : elemAddr k i = elemAddr k 0 + 8 * (2 * i) := by simp only [elemAddr]; omega
  rw [State.elemLo, State.mem_writeElems, h2]
  exact Memory.readWord_writeWords? (by rw [(getElem?_flatMap_elems es i).1, h]; rfl)

/-- A written element's high word reads as written. -/
theorem State.elemHi_writeElems {s : State} {k : BufIx} {es : List Elem} {i : Nat} {e : Elem}
    (h : es[i]? = some e) : (s.writeElems k es).elemHi k i = some e.hi := by
  have h2 : elemAddr k i + 8 = elemAddr k 0 + 8 * (2 * i + 1) := by simp only [elemAddr]; omega
  rw [State.elemHi, State.mem_writeElems, h2]
  exact Memory.readWord_writeWords? (by rw [(getElem?_flatMap_elems es i).2, h]; rfl)

/-- An element write leaves every byte outside the written elements alone. -/
theorem State.read_writeElems_outside {s : State} {k : BufIx} {es : List Elem} {b : Nat}
    (h : b < elemAddr k 0 ∨ elemAddr k 0 + 16 * es.length ≤ b) :
    (s.writeElems k es).mem.read b = s.mem.read b := by
  rw [State.mem_writeElems]
  refine Memory.read_writeWords_outside ?_
  rw [length_flatMap_elems]
  omega

/-- A word apart from the written digits reads as before. -/
theorem State.readWord_writeDigits_outside {s : State} {k : BufIx} {ds : List Int} {b : Nat}
    (h : b + 8 ≤ digitAddr k 0 ∨ digitAddr k 0 + 8 * ds.length ≤ b) :
    (s.writeDigits k ds).mem.readWord b = s.mem.readWord b := by
  rw [State.mem_writeDigits]
  exact Memory.readWord_writeWords_outside (by simpa using h)

/-- A word apart from the written elements reads as before. -/
theorem State.readWord_writeElems_outside {s : State} {k : BufIx} {es : List Elem} {b : Nat}
    (h : b + 8 ≤ elemAddr k 0 ∨ elemAddr k 0 + 16 * es.length ≤ b) :
    (s.writeElems k es).mem.readWord b = s.mem.readWord b := by
  rw [State.mem_writeElems]
  refine Memory.readWord_writeWords_outside ?_
  rw [length_flatMap_elems]
  omega

/-- Writing buffers keeps the canonical form. -/
theorem State.wf_writeDigits {s : State} (h : s.mem.wf) (k : BufIx) (ds : List Int) :
    (s.writeDigits k ds).mem.wf := Memory.wf_writeWords h _ _

theorem State.wf_writeElems {s : State} (h : s.mem.wf) (k : BufIx) (es : List Elem) :
    (s.writeElems k es).mem.wf := Memory.wf_writeWords h _ _

end Sys2Proof.Machine
end

