-- ==== Sys2Proof/Laws/Commands.lean ====
section
/-! SUPPORT. What each command can answer: one inversion per command, and the shape of its completion. -/

namespace Sys2Proof.Machine

/-! ### Completion -/

/-- A finished command is a next state exactly when the command ended without a fault. -/
theorem CmdResult.finish_eq_next_iff {r : CmdResult} {t : State} :
    r.finish = .next t ↔
      (∃ u, r = .ok u ∧ t = u.complete .none) ∨ (∃ e u, r = .error e u ∧ t = u.complete e) := by
  cases r <;> simp [CmdResult.finish, eq_comm]

theorem CmdResult.finish_eq_fault_iff {r : CmdResult} {f : Fault} : r.finish = .fault f ↔ r = .fault f := by
  cases r <;> simp [CmdResult.finish]

theorem CmdResult.finish_ne_refused (r : CmdResult) (q : Refusal) : r.finish ≠ .refused q := by
  cases r <;> simp [CmdResult.finish]

theorem CmdResult.andThen_eq_ok_iff {r : CmdResult} {k : State → CmdResult} {t : State} :
    r.andThen k = .ok t ↔ ∃ u, r = .ok u ∧ k u = .ok t := by
  cases r <;> simp [CmdResult.andThen]

theorem CmdResult.andThen_eq_error_iff {r : CmdResult} {k : State → CmdResult} {e : ErrCode} {t : State} :
    r.andThen k = .error e t ↔ r = .error e t ∨ ∃ u, r = .ok u ∧ k u = .error e t := by
  cases r <;> simp [CmdResult.andThen]

theorem CmdResult.andThen_eq_fault_iff {r : CmdResult} {k : State → CmdResult} {f : Fault} :
    r.andThen k = .fault f ↔ r = .fault f ∨ ∃ u, r = .ok u ∧ k u = .fault f := by
  cases r <;> simp [CmdResult.andThen]

/-! ### LOADSEQ and STOREDIG -/

theorem cmdLoadseq_ok {dom : Dom} {logn : Nat} {x y : BufIx} {s t : State}
    (h : cmdLoadseq dom logn x y s = .ok t) :
    s.len y ≤ s.cfg.nMax ∧ logn ≤ limit s.cfg dom ∧ s.len y ≤ 2 ^ logn ∧
      ∃ ds, s.digits y (s.len y) = some ds ∧
        t = s.writeElems x ((ds ++ List.replicate (2 ^ logn - s.len y) 0).map (toSeq s.cfg dom)) := by
  unfold cmdLoadseq at h
  simp only at h
  split_ifs at h with h1 h2 h3
  split at h
  next => simp at h
  next ds hd =>
    exact ⟨by omega, by omega, by omega, ds, hd, (CmdResult.ok.inj h).symm⟩

theorem cmdLoadseq_error {dom : Dom} {logn : Nat} {x y : BufIx} {s t : State} {e : ErrCode}
    (h : cmdLoadseq dom logn x y s = .error e t) :
    t = s ∧ ((e = .len ∧ s.cfg.nMax < s.len y) ∨
      (e = .size ∧ s.len y ≤ s.cfg.nMax ∧ (limit s.cfg dom < logn ∨ 2 ^ logn < s.len y))) := by
  unfold cmdLoadseq at h
  simp only at h
  split_ifs at h with h1 h2 h3
  · cases h; exact ⟨rfl, .inl ⟨rfl, h1⟩⟩
  · cases h; exact ⟨rfl, .inr ⟨rfl, by omega, .inl h2⟩⟩
  · cases h; exact ⟨rfl, .inr ⟨rfl, by omega, .inr h3⟩⟩
  · split at h <;> simp at h

theorem cmdStoredig_ok {dom : Dom} {logn : Nat} {x y : BufIx} {s t : State}
    (h : cmdStoredig dom logn x y s = .ok t) :
    logn ≤ limit s.cfg dom ∧
      ∃ es ds, s.elems .m y (2 ^ logn) = some es ∧ residuesLegal s.cfg dom es = true ∧
        storedDigits dom es = some ds ∧ t = (s.writeDigits x ds).setLen x (2 ^ logn) := by
  unfold cmdStoredig at h
  simp only at h
  split_ifs at h with h1
  split at h
  next => simp at h
  next es he =>
    split_ifs at h with h2
    split at h
    next => simp at h
    next ds hd => exact ⟨by omega, es, ds, he, h2, hd, (CmdResult.ok.inj h).symm⟩

theorem cmdStoredig_error {dom : Dom} {logn : Nat} {x y : BufIx} {s t : State} {e : ErrCode}
    (h : cmdStoredig dom logn x y s = .error e t) :
    t = s ∧ ((e = .size ∧ limit s.cfg dom < logn) ∨
      ∃ es, s.elems .m y (2 ^ logn) = some es ∧
        ((e = .residue ∧ residuesLegal s.cfg dom es = false) ∨
          (e = .round ∧ residuesLegal s.cfg dom es = true ∧ storedDigits dom es = none))) := by
  unfold cmdStoredig at h
  simp only at h
  split_ifs at h with h1
  · cases h; exact ⟨rfl, .inl ⟨rfl, h1⟩⟩
  · split at h
    next => simp at h
    next es he =>
      split_ifs at h with h2
      · split at h
        next hn => cases h; exact ⟨rfl, .inr ⟨es, he, .inr ⟨rfl, h2, hn⟩⟩⟩
        next => simp at h
      · cases h; exact ⟨rfl, .inr ⟨es, he, .inl ⟨rfl, by simpa using h2⟩⟩⟩

/-- Stored digits, one by one. -/
theorem storedDigits_eq_some_iff {dom : Dom} {es : List Elem} {ds : List Int} :
    storedDigits dom es = some ds ↔
      List.Forall₂ (fun e d => toDigit dom e.lo = some d) es ds := by
  induction es generalizing ds with
  | nil => simp [storedDigits, eq_comm]
  | cons e es ih =>
    rw [storedDigits]
    constructor
    · intro h
      split at h
      next d ds' hd hds => cases h; exact .cons hd (ih.1 hds)
      next => simp at h
    · rintro (_ | ⟨h, hs⟩)
      rw [h, ih.2 hs]

/-! ### FWD and INV -/

theorem cmdFwd_ok {dom : Dom} {logn : Nat} {x : BufIx} {s t : State} (h : cmdFwd dom logn x s = .ok t) :
    logn ≤ limit s.cfg dom ∧
      ∃ a, s.elems dom x (2 ^ logn) = some a ∧ residuesLegal s.cfg dom a = true ∧
        t = s.writeElems x (transform s.cfg dom .fwd logn a) := by
  unfold cmdFwd at h
  split_ifs at h with h1
  split at h
  next => simp at h
  next a ha =>
    split_ifs at h with h2
    exact ⟨by omega, a, ha, h2, (CmdResult.ok.inj h).symm⟩

theorem cmdFwd_error {dom : Dom} {logn : Nat} {x : BufIx} {s t : State} {e : ErrCode}
    (h : cmdFwd dom logn x s = .error e t) :
    t = s ∧ ((e = .size ∧ limit s.cfg dom < logn) ∨
      (e = .residue ∧ ∃ a, s.elems dom x (2 ^ logn) = some a ∧ residuesLegal s.cfg dom a = false)) := by
  unfold cmdFwd at h
  split_ifs at h with h1
  · cases h; exact ⟨rfl, .inl ⟨rfl, h1⟩⟩
  · split at h
    next => simp at h
    next a ha =>
      split_ifs at h with h2
      cases h; exact ⟨rfl, .inr ⟨rfl, a, ha, by simpa using h2⟩⟩

theorem cmdInv_ok {dom : Dom} {logn : Nat} {x : BufIx} {s t : State} (h : cmdInv dom logn x s = .ok t) :
    logn ≤ limit s.cfg dom ∧
      ∃ a, s.elems dom x (2 ^ logn) = some a ∧ residuesLegal s.cfg dom a = true ∧
        t = s.writeElems x
          ((transform s.cfg dom .inv logn a).map fun y => scaleElem s.cfg dom y (2 ^ logn)) := by
  unfold cmdInv at h
  simp only at h
  split_ifs at h with h1
  split at h
  next => simp at h
  next a ha =>
    split_ifs at h with h2
    exact ⟨by omega, a, ha, h2, (CmdResult.ok.inj h).symm⟩

theorem cmdInv_error {dom : Dom} {logn : Nat} {x : BufIx} {s t : State} {e : ErrCode}
    (h : cmdInv dom logn x s = .error e t) :
    t = s ∧ ((e = .size ∧ limit s.cfg dom < logn) ∨
      (e = .residue ∧ ∃ a, s.elems dom x (2 ^ logn) = some a ∧ residuesLegal s.cfg dom a = false)) := by
  unfold cmdInv at h
  simp only at h
  split_ifs at h with h1
  · cases h; exact ⟨rfl, .inl ⟨rfl, h1⟩⟩
  · split at h
    next => simp at h
    next a ha =>
      split_ifs at h with h2
      cases h; exact ⟨rfl, .inr ⟨rfl, a, ha, by simpa using h2⟩⟩

/-! ### PMUL and PMAC -/

theorem cmdPmul_ok {dom : Dom} {logn : Nat} {x y z : BufIx} {s t : State}
    (h : cmdPmul dom logn x y z s = .ok t) :
    logn ≤ limit s.cfg dom ∧
      ∃ as bs, s.elems dom y (2 ^ logn) = some as ∧ s.elems dom z (2 ^ logn) = some bs ∧
        residuesLegal s.cfg dom as = true ∧ residuesLegal s.cfg dom bs = true ∧
        t = s.writeElems x (List.zipWith (mulElem s.cfg dom) as bs) := by
  unfold cmdPmul at h
  simp only at h
  split_ifs at h with h1
  split at h
  next as bs ha hb =>
    split_ifs at h with h2
    obtain ⟨h2a, h2b⟩ := Bool.and_eq_true_iff.1 h2
    exact ⟨by omega, as, bs, ha, hb, h2a, h2b, (CmdResult.ok.inj h).symm⟩
  next => simp at h

theorem cmdPmul_error {dom : Dom} {logn : Nat} {x y z : BufIx} {s t : State} {e : ErrCode}
    (h : cmdPmul dom logn x y z s = .error e t) :
    t = s ∧ ((e = .size ∧ limit s.cfg dom < logn) ∨ (e = .residue ∧ logn ≤ limit s.cfg dom)) := by
  unfold cmdPmul at h
  simp only at h
  split_ifs at h with h1
  · cases h; exact ⟨rfl, .inl ⟨rfl, h1⟩⟩
  · split at h
    next =>
      split_ifs at h with h2
      cases h; exact ⟨rfl, .inr ⟨rfl, by omega⟩⟩
    next => simp at h

theorem cmdPmac_ok {dom : Dom} {logn : Nat} {x y z : BufIx} {s t : State}
    (h : cmdPmac dom logn x y z s = .ok t) :
    logn ≤ limit s.cfg dom ∧
      ∃ accs as bs, s.elems dom x (2 ^ logn) = some accs ∧ s.elems dom y (2 ^ logn) = some as ∧
        s.elems dom z (2 ^ logn) = some bs ∧ residuesLegal s.cfg dom accs = true ∧
        residuesLegal s.cfg dom as = true ∧ residuesLegal s.cfg dom bs = true ∧
        t = s.writeElems x
          (List.zipWith (addElem s.cfg dom) accs (List.zipWith (mulElem s.cfg dom) as bs)) := by
  unfold cmdPmac at h
  simp only at h
  split_ifs at h with h1
  split at h
  next accs as bs hc ha hb =>
    split_ifs at h with h2
    obtain ⟨h2', h2b⟩ := Bool.and_eq_true_iff.1 h2
    obtain ⟨h2c, h2a⟩ := Bool.and_eq_true_iff.1 h2'
    exact ⟨by omega, accs, as, bs, hc, ha, hb, h2c, h2a, h2b, (CmdResult.ok.inj h).symm⟩
  next => simp at h

theorem cmdPmac_error {dom : Dom} {logn : Nat} {x y z : BufIx} {s t : State} {e : ErrCode}
    (h : cmdPmac dom logn x y z s = .error e t) :
    t = s ∧ ((e = .size ∧ limit s.cfg dom < logn) ∨ (e = .residue ∧ logn ≤ limit s.cfg dom)) := by
  unfold cmdPmac at h
  simp only at h
  split_ifs at h with h1
  · cases h; exact ⟨rfl, .inl ⟨rfl, h1⟩⟩
  · split at h
    next =>
      split_ifs at h with h2
      cases h; exact ⟨rfl, .inr ⟨rfl, by omega⟩⟩
    next => simp at h

/-! ### NORM and MUL -/

theorem cmdNorm_ok {x : BufIx} {s t : State} (h : cmdNorm x s = .ok t) :
    s.len x ≤ s.cfg.nMax ∧
      ∃ ds u, s.digits x (s.len x) = some ds ∧ phase1 s.cfg.nMax (normInput ds) = .ok u ∧
        t = commitNorm x (phase2 u) (rawNegative u) s := by
  unfold cmdNorm at h
  simp only at h
  split_ifs at h with h1
  split at h
  next => simp at h
  next ds hd =>
    split at h
    next => simp at h
    next => simp at h
    next u hu => exact ⟨by omega, ds, u, hd, hu, (CmdResult.ok.inj h).symm⟩

theorem cmdNorm_error {x : BufIx} {s t : State} {e : ErrCode} (h : cmdNorm x s = .error e t) :
    t = s ∧ ((e = .len ∧ s.cfg.nMax < s.len x) ∨
      ∃ ds, s.digits x (s.len x) = some ds ∧
        ((e = .overflow ∧ phase1 s.cfg.nMax (normInput ds) = .overflow) ∨
          (e = .capacity ∧ phase1 s.cfg.nMax (normInput ds) = .capacity))) := by
  unfold cmdNorm at h
  simp only at h
  split_ifs at h with h1
  · cases h; exact ⟨rfl, .inl ⟨rfl, h1⟩⟩
  · split at h
    next => simp at h
    next ds hd =>
      split at h
      next hp => cases h; exact ⟨rfl, .inr ⟨ds, hd, .inl ⟨rfl, hp⟩⟩⟩
      next hp => cases h; exact ⟨rfl, .inr ⟨ds, hd, .inr ⟨rfl, hp⟩⟩⟩
      next => simp at h

/-- MUL past its own two checks is its expansion (R240). -/
theorem cmdMul_eq {dom : Dom} {x y z : BufIx} {s : State} (h1 : s.len y ≤ s.cfg.nMax)
    (h2 : s.len z ≤ s.cfg.nMax) (h3 : mulLogn s y z ≤ limit s.cfg dom) :
    cmdMul dom x y z s =
      (((mulSequence dom (mulLogn s y z) y z s).andThen (cmdStoredig dom (mulLogn s y z) x 0)).andThen
        fun t => .ok (t.setSign x (s.sign y ^^ s.sign z))).andThen (cmdNorm x) := by
  unfold cmdMul
  simp only
  rw [if_neg (by omega), if_neg (by omega)]

/-- The checks of MUL come before any write (R242). -/
theorem cmdMul_len {dom : Dom} {x y z : BufIx} {s : State} (h : s.cfg.nMax < s.len y ∨ s.cfg.nMax < s.len z) :
    cmdMul dom x y z s = .error .len s := by
  unfold cmdMul
  simp only
  rw [if_pos h]

theorem cmdMul_size {dom : Dom} {x y z : BufIx} {s : State} (h1 : s.len y ≤ s.cfg.nMax)
    (h2 : s.len z ≤ s.cfg.nMax) (h3 : limit s.cfg dom < mulLogn s y z) :
    cmdMul dom x y z s = .error .size s := by
  unfold cmdMul
  simp only
  rw [if_neg (by omega), if_pos h3]

end Sys2Proof.Machine
end

