-- ==== Sys2Proof/Laws/PerInstr.lean ====
section
/-! SUPPORT. Facts about every command as syntax, one lemma per constructor. -/

namespace Sys2Proof.Laws

/-! ### The OPC field of an encoded command is its opcode (R102, R109) -/

/-- The low byte of packed fields is the opcode. -/
theorem field_packFields_opcode {opc dom logn x y z : Nat} (h : opc < 256) :
    field (packFields opc dom logn x y z) 0 8 = opc := by
  simp [field, packFields]; omega

/-- The OPC field of the encoding of `i` is the opcode of `i`. -/
def EncodedOpcode.Statement (i : Instr) : Prop := field (encode i) 0 8 = i.opcode

theorem EncodedOpcode.nop : Statement .nop := field_packFields_opcode (by decide)
theorem EncodedOpcode.loadseq (dom : Dom) (logn : Nat) (x y : BufIx) : Statement (.loadseq dom logn x y) :=
  field_packFields_opcode (by decide)
theorem EncodedOpcode.storedig (dom : Dom) (logn : Nat) (x y : BufIx) : Statement (.storedig dom logn x y) :=
  field_packFields_opcode (by decide)
theorem EncodedOpcode.fwd (dom : Dom) (logn : Nat) (x : BufIx) : Statement (.fwd dom logn x) :=
  field_packFields_opcode (by decide)
theorem EncodedOpcode.inv (dom : Dom) (logn : Nat) (x : BufIx) : Statement (.inv dom logn x) :=
  field_packFields_opcode (by decide)
theorem EncodedOpcode.pmul (dom : Dom) (logn : Nat) (x y z : BufIx) : Statement (.pmul dom logn x y z) :=
  field_packFields_opcode (by decide)
theorem EncodedOpcode.pmac (dom : Dom) (logn : Nat) (x y z : BufIx) : Statement (.pmac dom logn x y z) :=
  field_packFields_opcode (by decide)
theorem EncodedOpcode.norm (x : BufIx) : Statement (.norm x) := field_packFields_opcode (by decide)
theorem EncodedOpcode.mul (dom : Dom) (x y z : BufIx) : Statement (.mul dom x y z) :=
  field_packFields_opcode (by decide)

end Sys2Proof.Laws
end

