-- ==== Sys2Proof/Laws/Step.lean ====
section
/-! SUPPORT. What a step, the engine's turn and a host access can answer. -/

namespace Sys2Proof.Machine

theorem step_of_no_events {s : State} (h : s.events = []) : step s = engineTurn s := by
  unfold step; rw [h]

theorem step_of_event {s : State} {e : Event} {es : List Event} (h : s.events = e :: es) :
    step s = takeEvent e s.dropEvent := by
  unfold step; rw [h]

/-- Every step is the engine's turn or takes the first input. -/
theorem step_cases {s t : State} (h : step s = .next t) :
    (s.events = [] ∧ engineTurn s = .next t) ∨
      ∃ e es, s.events = e :: es ∧ takeEvent e s.dropEvent = .next t := by
  cases he : s.events with
  | nil => exact .inl ⟨rfl, by rwa [step_of_no_events he] at h⟩
  | cons e es => exact .inr ⟨e, es, rfl, by rwa [step_of_event he] at h⟩

/-- The engine's turn does nothing in `Idle`, else completes an illegal word or runs the decoded command. -/
theorem engineTurn_cases {s t : State} (h : engineTurn s = .next t) :
    (s.phase = .idle ∧ t = s) ∨
      (∃ w r, s.phase = .busy w ∧ decode w = .reject r ∧ t = s.complete .badcmd) ∨
      ∃ w i, s.phase = .busy w ∧ decode w = .ok i ∧ exec i s = .next t := by
  unfold engineTurn at h
  split at h
  next hp => cases h; exact .inl ⟨hp, rfl⟩
  next w hp =>
    unfold engineStep at h
    split at h
    next i hi => exact .inr (.inr ⟨w, i, hp, hi, h⟩)
    next r hr => cases h; exact .inr (.inl ⟨w, r, hp, hr, rfl⟩)

/-- A host access that answers a next state: a bus error, a read with no effect but the response, or a write. -/
theorem hostAccess_cases {a : HostAccess} {s t : State} (h : hostAccess a s = .next t) :
    t = { s with resp := .busError } ∨
      (∃ width addr tgt w, a = .read width addr ∧ route s.cfg width addr = .reaches tgt ∧
        readTarget s tgt = some w ∧ t = { s with resp := .data w }) ∨
      ∃ width addr v tgt, a = .write width addr v ∧ route s.cfg width addr = .reaches tgt ∧
        (s.busy && tgt.guarded) = false ∧ t = { writeTarget s v tgt with resp := .ack } := by
  cases a with
  | read width addr =>
    simp only [hostAccess, hostRead] at h
    split at h
    next => simp at h
    next => cases h; exact .inl rfl
    next tgt hr =>
      split_ifs at h
      split at h
      next => simp at h
      next w hw => cases h; exact .inr (.inl ⟨width, addr, tgt, w, rfl, hr, hw, rfl⟩)
  | write width addr v =>
    simp only [hostAccess, hostWrite] at h
    split at h
    next => simp at h
    next => cases h; exact .inl rfl
    next tgt hr =>
      split_ifs at h with hg
      cases h
      exact .inr (.inr ⟨width, addr, v, tgt, rfl, hr, by simpa using hg, rfl⟩)

/-- Where an access goes. -/
theorem route_reaches_iff {p : Params} {width addr : Nat} {t : Target} :
    route p width addr = .reaches t ↔
      p.apertureBase ≤ addr ∧ addr < p.apertureBase + 2 ^ 30 ∧ width = 64 ∧
        (addr - p.apertureBase) % 8 = 0 ∧ locate (addr - p.apertureBase) = t := by
  unfold route
  split_ifs with h1 h2
  · exact ⟨fun h => (by simp at h), fun h => absurd h1 (by omega)⟩
  · exact ⟨fun h => (by simp at h), fun h => absurd h2 (by omega)⟩
  · rw [Route.reaches.injEq]
    exact ⟨fun h => ⟨by omega, by omega, by omega, by omega, h⟩, fun h => h.2.2.2.2⟩

/-- Erasing a list of ranges unwrites exactly their bytes. -/
theorem read_eraseAll (m : Memory) (rs : List (Nat × Nat)) (b : Nat) :
    (eraseAll m rs).read b = if ∃ r ∈ rs, r.1 ≤ b ∧ b < r.1 + r.2 then none else m.read b := by
  induction rs generalizing m with
  | nil => simp [eraseAll]
  | cons r rs ih =>
    have : eraseAll m (r :: rs) = eraseAll (m.erase r.1 r.2) rs := rfl
    rw [this, ih, Memory.read_erase]
    simp only [List.exists_mem_cons_iff]
    by_cases h : r.1 ≤ b ∧ b < r.1 + r.2
    · simp only [h, and_self, if_true, true_or]; split_ifs <;> rfl
    · simp only [h, if_false, false_or]

theorem wf_eraseAll {m : Memory} (h : m.wf) (rs : List (Nat × Nat)) : (eraseAll m rs).wf := by
  induction rs generalizing m with
  | nil => exact h
  | cons r rs ih => exact ih (Memory.wf_erase h r.1 r.2)

theorem mem_eraseAll {m : Memory} {rs : List (Nat × Nat)} {c : Host.Cell} (h : c ∈ eraseAll m rs) : c ∈ m := by
  induction rs generalizing m with
  | nil => exact h
  | cons r rs ih => exact (Memory.mem_erase.1 (ih h)).1

end Sys2Proof.Machine
end

