-- ==== Sys2Proof/Laws/Safety.lean ====
section
/-! SUPPORT. The small lemmas of the terms of Safety.lean, and what the model's write set and soft reset are in them. -/

namespace Sys2Proof.Machine

@[simp] theorem carrySum_zero (d : Nat → Int) : carrySum d 0 = d 0 := rfl

@[simp] theorem carrySum_succ (d : Nat → Int) (i : Nat) :
    carrySum d (i + 1) = d (i + 1) + Int.tdiv (carrySum d i) 10 := rfl

@[simp] theorem infinity_true : infinity true = 0xFFF0000000000000 := rfl
@[simp] theorem infinity_false : infinity false = 0x7FF0000000000000 := rfl
@[simp] theorem signedZero_true : signedZero true = 0x8000000000000000 := rfl
@[simp] theorem signedZero_false : signedZero false = 0 := rfl

/-- The ranges of the model's write set hold exactly the bytes R312 lists. -/
theorem mem_writeSet_iff (p : Params) (i : Instr) (b : Nat) :
    (∃ r ∈ writeSet p i, r.1 ≤ b ∧ b < r.1 + r.2) ↔ inWriteSet p i b := by
  cases i <;>
    simp [writeSet, inWriteSet, inSequence, inDigits, elemBytes, digitBytes, elemAddr, digitAddr]

/-- A byte after the erasing of a command's write set. -/
theorem read_eraseAll_writeSet (m : Memory) (p : Params) (i : Instr) (b : Nat) [Decidable (inWriteSet p i b)] :
    (eraseAll m (writeSet p i)).read b = if inWriteSet p i b then none else m.read b := by
  rw [read_eraseAll]
  exact if_congr (mem_writeSet_iff p i b) rfl rfl

end Sys2Proof.Machine
end

