-- ==== Sys2Proof/Machine/Assembler.lean ====
section
/-! DEFINITION. The host's side of a command: assembler lines, pseudo-instructions and host notation
(spec/30_encoding.md R110 to R112). The block itself sees command words only (R100). -/

namespace Sys2Proof.Machine

/-! ### Pseudo-instructions (R111) -/

/-- The pseudo-instructions. -/
inductive Pseudo where
  /-- `CONV.<d> S<x>, S<y>, <k>`. -/
  | conv (dom : Dom) (x y : BufIx) (k : Nat)
  /-- `SQR.<d> D<x>, D<y>`. -/
  | sqr (dom : Dom) (x y : BufIx)
  /-- `MULSTEP.<d> D<x>, D<y>, D<z>, <k>`. -/
  | mulstep (dom : Dom) (x y z : BufIx) (k : Nat)
  deriving DecidableEq, Repr

/-- The commands of `CONV`. -/
def expandConv (dom : Dom) (x y : BufIx) (k : Nat) : List Instr :=
  [.fwd dom k x, .fwd dom k y, .pmul dom k x x y, .inv dom k x]

/-- The expansion of a pseudo-instruction; an assembler refuses `CONV` with `x = y`. -/
def Pseudo.expand : Pseudo → Option (List Instr)
  | .conv dom x y k => if x = y then none else some (expandConv dom x y k)
  | .sqr dom x y => some [.mul dom x y y]
  | .mulstep dom x y z k =>
    some ([.loadseq dom k 0 y, .loadseq dom k 1 z] ++ expandConv dom 0 1 k ++
      [.storedig dom k x 0, .norm x])

/-! ### Assembler lines (R110; log 19) -/

/-- Cut a line at every `sep`. -/
def splitAt (sep : Char) : List Char → List (List Char)
  | [] => [[]]
  | c :: cs =>
    if c = sep then [] :: splitAt sep cs
    else match splitAt sep cs with
      | [] => [[c]]
      | p :: ps => (c :: p) :: ps

/-- A text without the spaces at its ends. -/
def trimSpaces (cs : List Char) : List Char :=
  ((cs.dropWhile (· == ' ')).reverse.dropWhile (· == ' ')).reverse

/-- The value of a decimal digit. -/
def decimalDigit (c : Char) : Option Nat :=
  if '0'.toNat ≤ c.toNat ∧ c.toNat ≤ '9'.toNat then some (c.toNat - '0'.toNat) else none

/-- The decimal number a text spells after the digits already read. -/
def decimalFrom : Nat → List Char → Option Nat
  | n, [] => some n
  | n, c :: cs =>
    match decimalDigit c with
    | some d => decimalFrom (10 * n + d) cs
    | none => none

/-- LOGN: a decimal number 0 to 31. -/
def parseLogn (cs : List Char) : Option Nat :=
  match cs with
  | [] => none
  | _ => (decimalFrom 0 cs).filter fun n => decide (n ≤ 31)

/-- A buffer operand of the kind `S` or `D`. -/
def parseBuffer (kind : Char) : List Char → Option BufIx
  | [c, d] => if c = kind then
      match decimalDigit d with
      | some n => if n < 4 then some (bufIxOf n) else none
      | none => none
    else none
  | _ => none

/-- The domain suffix. -/
def parseDom : List Char → Option Dom
  | ['C'] => some .c
  | ['M'] => some .m
  | _ => none

/-- What a line assembles to, from its mnemonic in capitals, its suffix parts and its operands. -/
def assembleParts (mnemonic : List Char) (suffix : List (List Char)) (ops : List (List Char)) :
    Option (List Instr) :=
  if mnemonic = ['N', 'O', 'P'] then
    match suffix, ops with
    | [], [] => some [.nop]
    | _, _ => none
  else if mnemonic = ['N', 'O', 'R', 'M'] then
    match suffix, ops with
    | [], [x] => (parseBuffer 'D' x).map fun x => [.norm x]
    | _, _ => none
  else
    match suffix with
    | [d] =>
      (parseDom d).bind fun dom =>
        if mnemonic = ['L', 'O', 'A', 'D', 'S', 'E', 'Q'] then
          match ops with
          | [x, y, k] => (parseBuffer 'S' x).bind fun x => (parseBuffer 'D' y).bind fun y =>
              (parseLogn k).map fun k => [.loadseq dom k x y]
          | _ => none
        else if mnemonic = ['S', 'T', 'O', 'R', 'E', 'D', 'I', 'G'] then
          match ops with
          | [x, y, k] => (parseBuffer 'D' x).bind fun x => (parseBuffer 'S' y).bind fun y =>
              (parseLogn k).map fun k => [.storedig dom k x y]
          | _ => none
        else if mnemonic = ['F', 'W', 'D'] then
          match ops with
          | [x, k] => (parseBuffer 'S' x).bind fun x => (parseLogn k).map fun k => [.fwd dom k x]
          | _ => none
        else if mnemonic = ['I', 'N', 'V'] then
          match ops with
          | [x, k] => (parseBuffer 'S' x).bind fun x => (parseLogn k).map fun k => [.inv dom k x]
          | _ => none
        else if mnemonic = ['P', 'M', 'U', 'L'] then
          match ops with
          | [x, y, z, k] => (parseBuffer 'S' x).bind fun x => (parseBuffer 'S' y).bind fun y =>
              (parseBuffer 'S' z).bind fun z => (parseLogn k).map fun k => [.pmul dom k x y z]
          | _ => none
        else if mnemonic = ['P', 'M', 'A', 'C'] then
          match ops with
          | [x, y, z, k] => (parseBuffer 'S' x).bind fun x => (parseBuffer 'S' y).bind fun y =>
              (parseBuffer 'S' z).bind fun z => (parseLogn k).map fun k => [.pmac dom k x y z]
          | _ => none
        else if mnemonic = ['M', 'U', 'L'] then
          match ops with
          | [x, y, z] => (parseBuffer 'D' x).bind fun x => (parseBuffer 'D' y).bind fun y =>
              (parseBuffer 'D' z).map fun z => [.mul dom x y z]
          | _ => none
        else if mnemonic = ['C', 'O', 'N', 'V'] then
          match ops with
          | [x, y, k] => (parseBuffer 'S' x).bind fun x => (parseBuffer 'S' y).bind fun y =>
              (parseLogn k).bind fun k => (Pseudo.conv dom x y k).expand
          | _ => none
        else if mnemonic = ['S', 'Q', 'R'] then
          match ops with
          | [x, y] => (parseBuffer 'D' x).bind fun x => (parseBuffer 'D' y).bind fun y =>
              (Pseudo.sqr dom x y).expand
          | _ => none
        else if mnemonic = ['M', 'U', 'L', 'S', 'T', 'E', 'P'] then
          match ops with
          | [x, y, z, k] => (parseBuffer 'D' x).bind fun x => (parseBuffer 'D' y).bind fun y =>
              (parseBuffer 'D' z).bind fun z => (parseLogn k).bind fun k => (Pseudo.mulstep dom x y z k).expand
          | _ => none
        else none
    | _ => none

/-- The commands one line assembles to; `none` is an assembler error (R110). -/
def assembleLine (line : List Char) : Option (List Instr) :=
  let text := trimSpaces line
  let head := text.takeWhile (· != ' ')
  let rest := trimSpaces (text.dropWhile (· != ' '))
  let ops := if rest = [] then [] else (splitAt ',' rest).map trimSpaces
  match splitAt '.' head with
  | [] => none
  | m :: suffix => assembleParts (m.map Char.toUpper) suffix ops

/-! ### Host notation (R112) -/

/-- `WR <reg>, <value>` for the register at an offset. -/
def hostWR (p : Params) (off : Nat) (v : Word) : Event := .host (.write 64 (p.apertureBase + off) v)

/-- `RD <reg>` for the register at an offset. -/
def hostRD (p : Params) (off : Nat) : Event := .host (.read 64 (p.apertureBase + off))

/-- `WRD D<k>[<i>], <value>`. -/
def hostWRD (p : Params) (k : BufIx) (i : Nat) (v : Word) : Event := hostWR p (digitAddr k i) v

/-- `WRS S<k>[<i>], <lo>, <hi>`: two accesses (R75). -/
def hostWRS (p : Params) (k : BufIx) (i : Nat) (lo hi : Word) : List Event :=
  [hostWR p (elemAddr k i) lo, hostWR p (elemAddr k i + 8) hi]

/-- `RDD D<k>[<i>]`. -/
def hostRDD (p : Params) (k : BufIx) (i : Nat) : Event := hostRD p (digitAddr k i)

/-- `ISSUE <command>`. -/
def hostISSUE (p : Params) (i : Instr) : Event := hostWR p 0x030 (encode i)

/-- `WAIT`: STATUS is read `polls` times while the command runs, then the engine has its step, then STATUS is
read with BUSY 0. -/
def hostWAIT (p : Params) (polls : Nat) : List Event :=
  List.replicate polls (hostRD p 0x028) ++ [.engine, hostRD p 0x028]

/-- A line that is a command: `ISSUE` and `WAIT`. -/
def hostCommand (p : Params) (polls : Nat) (i : Instr) : List Event := hostISSUE p i :: hostWAIT p polls

end Sys2Proof.Machine
end

