-- ==== Sys2Proof/Tests/Slice0.lean ====
section
/-! SUPPORT. Tests of the model (expected values from spec/30_encoding.md and spec/95_test_vectors.md), and a
witness for the hypotheses of every obligation. -/

namespace Sys2Proof.Tests

set_option Elab.async false

open Sys2Proof Sys2Proof.Machine

/-! ### Helpers -/

/-- The next state of an outcome, if it is one. -/
def next? : Host.Outcome State Fault Refusal → Option State
  | .next s => some s
  | _ => none

/-- The fault of an outcome, if it is one. -/
def fault? : Host.Outcome State Fault Refusal → Option Fault
  | .fault f => some f
  | _ => none

/-- The refusal of an outcome, if it is one. -/
def refusal? : Host.Outcome State Fault Refusal → Option Refusal
  | .refused r => some r
  | _ => none

/-- The next state of an outcome that is one. -/
def after (o : Host.Outcome State Fault Refusal) : State := (next? o).getD State.reset

theorem next_after {o : Host.Outcome State Fault Refusal} (h : (next? o).isSome = true) :
    o = .next (after o) := by
  cases o <;> simp_all [next?, after]

/-- The run of a list of inputs from a state. -/
def drive (es : List Event) (s : State) : State :=
  after (Host.Core.run Sys2Proof.core es.length { s with events := es })

/-- Digit buffer `k` holding `ds` with the sign `sg`. -/
def withDigits (k : BufIx) (ds : List Int) (sg : Bool) (s : State) : State :=
  ((s.writeDigits k ds).setLen k ds.length).setSign k sg

/-- Residues as elements. -/
def residues (us : List Nat) : List Elem := us.map elemOfResidue

/-- The state after reset with the default parameters. -/
def blank : State := State.reset

/-- Small parameters: eight entries, the prime 193 with 6 factors of two in 192. -/
def tiny : Params := { log2Nmax := 3, nttP := 193, nttG := 5, apertureBase := 0x40000000 }

theorem tiny_legal : tiny.Legal where
  log2Nmax_pos := by decide
  log2Nmax_le := by decide
  prime := by norm_num [tiny]
  two_lt := by decide
  lt_pow := by decide
  generator := by decide +kernel
  base_aligned := by decide

/-- A small state: `D0 = [2, 1]` negative, `D1 = [4, 3]`, `S0 = [1, 2, 3, 4]`, `S1 = [5, 6, 7, 8]`, `S2 = [192, 0]`. -/
def small : State :=
  ((((withDigits 1 [4, 3] false (withDigits 0 [2, 1] true (State.resetWith tiny []))).writeElems 0
    (residues [1, 2, 3, 4])).writeElems 1 (residues [5, 6, 7, 8])).writeElems 2 (residues [192, 0]))

/-- The same with a command in flight. -/
def smallBusy (w : Word) (es : List Event) : State := { small.accept w with events := es }

/-! ### Well-formedness: an ill-formed term for each check -/

theorem test_wf_loadseq : (Instr.loadseq .c 32 0 0).wf = false ∧ (Instr.loadseq .c 31 0 0).wf = true := by decide
theorem test_wf_storedig : (Instr.storedig .c 32 0 0).wf = false ∧ (Instr.storedig .c 31 0 0).wf = true := by decide
theorem test_wf_fwd : (Instr.fwd .m 32 0).wf = false ∧ (Instr.fwd .m 31 0).wf = true := by decide
theorem test_wf_inv : (Instr.inv .m 32 0).wf = false ∧ (Instr.inv .m 31 0).wf = true := by decide
theorem test_wf_pmul : (Instr.pmul .c 32 0 0 0).wf = false ∧ (Instr.pmul .c 31 0 0 0).wf = true := by decide
theorem test_wf_pmac : (Instr.pmac .c 32 0 0 0).wf = false ∧ (Instr.pmac .c 31 0 0 0).wf = true := by decide

/-! ### Decoding: words of spec/95_test_vectors.md section 2 -/

theorem test_decode_nop : decode 0x0000000000000000 = .ok .nop := by decide +kernel
theorem test_decode_loadseq : decode 0x000000000D020101 = .ok (.loadseq .m 2 1 3) := by decide +kernel
theorem test_decode_storedig : decode 0x0000000002030002 = .ok (.storedig .c 3 2 0) := by decide +kernel
theorem test_decode_fwd : decode 0x0000000001030003 = .ok (.fwd .c 3 1) := by decide +kernel
theorem test_decode_inv : decode 0x0000000002020104 = .ok (.inv .m 2 2) := by decide +kernel
theorem test_decode_pmul : decode 0x0000000010030005 = .ok (.pmul .c 3 0 0 1) := by decide +kernel
theorem test_decode_pmac : decode 0x0000000024000006 = .ok (.pmac .c 0 0 1 2) := by decide +kernel
theorem test_decode_norm : decode 0x0000000002000007 = .ok (.norm 2) := by decide +kernel
theorem test_decode_mul : decode 0x0000000012000108 = .ok (.mul .m 2 0 1) := by decide +kernel

/-- Section 2, the illegal words. -/
theorem test_decode_rejects :
    decode 0x0000000000000009 = .reject .reservedOpcode ∧
    decode 0x00000000000000FF = .reject .reservedOpcode ∧
    decode 0x0000000000000100 = .reject .nonzeroField ∧
    decode 0x0000000000000107 = .reject .nonzeroField ∧
    decode 0x0000000004000007 = .reject .nonzeroField ∧
    decode 0x0000000000010008 = .reject .nonzeroField ∧
    decode 0x0000000004000003 = .reject .nonzeroField ∧
    decode 0x0000000040000005 = .reject .reservedBit ∧
    decode 0x0000000000000203 = .reject .reservedBit ∧
    decode 0x0000000000200003 = .reject .reservedBit ∧
    decode 0x0000000100000003 = .reject .reservedBit ∧
    decode 0x0000000000150203 = .reject .reservedBit := by decide +kernel

theorem test_encode : encode (.fwd .c 3 1) = 0x0000000001030003 ∧ encode (.mul .m 2 0 1) = 0x0000000012000108 := by
  decide +kernel

/-! ### Assembler lines and pseudo-instructions (R110, R111) -/

theorem test_assemble_pmul : assembleLine "PMUL.C S0, S0, S1, 3".toList = some [.pmul .c 3 0 0 1] := by
  decide +kernel

theorem test_assemble_errors :
    assembleLine "FWD.C D1, 3".toList = none ∧ assembleLine "FWD S1, 3".toList = none ∧
    assembleLine "NORM.C D1".toList = none ∧ assembleLine "INV.M S1, 32".toList = none ∧
    assembleLine "CONV.M S1, S1, 2".toList = none := by decide +kernel

theorem test_assemble_conv : assembleLine "conv.M S2, S1, 2".toList =
    some [.fwd .m 2 2, .fwd .m 2 1, .pmul .m 2 2 2 1, .inv .m 2 2] := by decide +kernel

/-! ### One step of each command (spec/95_test_vectors.md) -/

/-- V-NOP-1. -/
theorem test_nop : after (exec .nop small) = small.complete .none := by decide +kernel

/-- V-LD-2: `2^53 + 1` rounds to even. -/
theorem test_loadseq_c :
    (after (exec (.loadseq .c 0 0 0) (withDigits 0 [9007199254740993] false blank))).elems .c 0 1 =
      some [{ lo := 0x4340000000000000, hi := 0 }] := by decide +kernel

/-- V-LD-3. -/
theorem test_loadseq_m :
    (after (exec (.loadseq .m 0 0 0) (withDigits 0 [-1] false blank))).elems .m 0 1 =
      some (residues [998244352]) := by decide +kernel

/-- V-ST-1. -/
theorem test_storedig_c :
    let s := blank.writeElems 0
      [{ lo := 0x4004000000000000, hi := 0x7FF8000000000000 }, { lo := 0xC004000000000000, hi := 0 },
       { lo := 0x3FDFFFFFFFFFFFFF, hi := 0x7FF0000000000000 }, { lo := 0xBFE0000000000000, hi := 0 }]
    let t := after (exec (.storedig .c 2 0 0) s)
    t.digits 0 4 = some [3, -3, 0, -1] ∧ t.len 0 = 4 := by decide +kernel

/-- V-ST-4. -/
theorem test_storedig_m :
    let t := after (exec (.storedig .m 1 0 0) (blank.writeElems 0 (residues [998244352, 5])))
    t.digits 0 2 = some [998244352, 5] ∧ t.len 0 = 2 := by decide +kernel

/-- V-FWDC-1. -/
theorem test_fwd_c :
    (after (exec (.fwd .c 2 0) (blank.writeElems 0
      [{ lo := 0x3FF0000000000000, hi := 0 }, { lo := 0x4000000000000000, hi := 0 },
       { lo := 0x4008000000000000, hi := 0 }, { lo := 0x4010000000000000, hi := 0 }]))).elems .c 0 4 =
      some [{ lo := 0x4024000000000000, hi := 0 }, { lo := 0xC000000000000000, hi := 0xC000000000000000 },
        { lo := 0xC000000000000000, hi := 0 }, { lo := 0xC000000000000000, hi := 0x4000000000000000 }] := by
  decide +kernel

/-- V-FWDM-1. -/
theorem test_fwd_m :
    (after (exec (.fwd .m 2 0) (blank.writeElems 0 (residues [1, 2, 3, 4])))).elems .c 0 4 =
      some (residues [10, 173167434, 998244351, 825076915]) := by decide +kernel

/-- V-FWDC-6, second half. -/
theorem test_inv_c :
    (after (exec (.inv .c 0 0) (blank.writeElems 0
      [{ lo := 0x7FF0000000000001, hi := 0x8000000000000000 }]))).elems .c 0 1 =
      some [{ lo := 0x7FF8000000000000, hi := 0x8000000000000000 }] := by decide +kernel

/-- V-FWDM-1, second half. -/
theorem test_inv_m :
    (after (exec (.inv .m 2 0) (blank.writeElems 0
      (residues [10, 173167434, 998244351, 825076915])))).elems .c 0 4 =
      some (residues [1, 2, 3, 4]) := by decide +kernel

/-- V-PMUL-2. -/
theorem test_pmul_c :
    (after (exec (.pmul .c 0 2 0 1) ((blank.writeElems 0 [{ lo := 0xBFF0000000000000, hi := 0 }]).writeElems 1
      [{ lo := 0, hi := 0x3FF0000000000000 }]))).elems .c 2 1 =
      some [{ lo := 0x8000000000000000, hi := 0xBFF0000000000000 }] := by decide +kernel

/-- V-PMUL-5. -/
theorem test_pmul_m :
    let s := (blank.writeElems 0 (residues [1])).writeElems 1 [{ lo := 0xFFFFFFFFFFFFFFFF, hi := 0 }]
    after (exec (.pmul .m 0 0 0 1) s) = s.complete .residue := by decide +kernel

/-- V-PMAC-3. -/
theorem test_pmac_c :
    (after (exec (.pmac .c 0 0 1 2) (((blank.writeElems 0 [{ lo := 0, hi := 0 }]).writeElems 1
      [{ lo := 0xBFF0000000000000, hi := 0 }]).writeElems 2 [{ lo := 0, hi := 0x3FF0000000000000 }]))).elems .c 0 1 =
      some [{ lo := 0, hi := 0xBFF0000000000000 }] := by decide +kernel

/-- V-PMAC-1. -/
theorem test_pmac_m :
    (after (exec (.pmac .m 1 2 0 1) (((blank.writeElems 0 (residues [4, 5])).writeElems 1
      (residues [6, 7])).writeElems 2 (residues [3, 0])))).elems .c 2 2 = some (residues [27, 35]) := by
  decide +kernel

/-- V-SRC-1. -/
theorem test_norm_source :
    let t := after (exec (.norm 0) (withDigits 0 [15, -3, 20] false blank))
    t.digits 0 4 = some [5, 8, 9, 1] ∧ t.len 0 = 4 ∧ t.sign 0 = false ∧ t.err = .none := by decide +kernel

/-- V-NORM-16. -/
theorem test_norm_overflow :
    let s := withDigits 0 [-9223372036854775808, -9223372036854775808] false blank
    after (exec (.norm 0) s) = s.complete .overflow := by decide +kernel

/-- V-MUL-4. -/
theorem test_mul_m :
    let t := after (exec (.mul .m 2 0 1) (withDigits 1 [7] true (withDigits 0 [] false blank)))
    t.digits 2 2 = some [0, 0] ∧ t.len 2 = 1 ∧ t.sign 2 = false ∧ t.err = .none ∧
      t.elems .c 1 2 = some (residues [7, 7]) := by decide +kernel

/-- V-MUL-5. -/
theorem test_mul_c :
    let t := after (exec (.mul .c 2 0 1) (withDigits 1 [1] true (withDigits 0 [7] false blank)))
    t.digits 2 4 = some [7, 0, 0, 0] ∧ t.len 2 = 1 ∧ t.sign 2 = true ∧ t.err = .none := by decide +kernel

/-! ### The host's port and the protocol (section 3 and P5) -/

/-- V-REG-1. -/
theorem test_reset_reads :
    (drive [hostRD Params.standard 0x000] blank).resp = .data 0x4646544700000001 ∧
    (drive [hostRD Params.standard 0x008] blank).resp = .data 0x0000000000441714 ∧
    (drive [hostRD Params.standard 0x010] blank).resp = .data 0x3B800001 ∧
    (drive [hostRD Params.standard 0x018] blank).resp = .data 3 ∧
    (drive [hostRD Params.standard 0x028] blank).resp = .data 0 := by decide +kernel

/-- V-REG-2. -/
theorem test_accept_and_complete :
    (drive [hostWR Params.standard 0x030 9, hostRD Params.standard 0x028] blank).resp = .data 0x1 ∧
    (drive (hostWR Params.standard 0x030 9 :: hostWAIT Params.standard 1) blank).resp = .data 0x12 := by
  decide +kernel

/-- V-REG-7. -/
theorem test_reserved_and_illegal_accesses :
    (drive [hostRD Params.standard 0x038] blank).resp = .data 0 ∧
    (drive [hostRD Params.standard (0x10000000 + 8 * 1048576)] blank).resp = .data 0 ∧
    (drive [.host (.read 32 0)] blank).resp = .busError ∧
    (drive [.host (.write 64 4 7)] blank).resp = .busError := by decide +kernel

/-- P5: the illegal residue, DONE cleared, and the race of two NOPs in both orders. -/
def programFive (race : List Event) : List Event :=
  let p := Params.standard
  [hostWR p 0x020 1] ++ hostWRS p 3 0 998244353 0 ++ hostCommand p 0 (.fwd .m 0 3) ++
    [hostWR p 0x028 2, hostISSUE p .nop] ++ race

theorem test_program_five :
    let p := Params.standard
    (drive (programFive []) blank).statusWord = 0x1 ∧
    (drive (programFive ([.engine, hostISSUE p .nop] ++ hostWAIT p 0)) blank).resp = .data 0x2 ∧
    (drive (programFive ([hostISSUE p .nop] ++ hostWAIT p 0)) blank).resp = .data 0x6 ∧
    (drive (programFive ([hostISSUE p .nop] ++ hostWAIT p 0 ++ [hostWR p 0x020 2])) blank).elems .c 3 1 =
      some (residues [998244353]) := by decide +kernel

/-- V-REG-6: soft reset while idle. -/
theorem test_soft_reset :
    let s := { small with ie := true, done := true, err := .residue }
    drive [hostWR tiny 0x020 3] s = { State.resetWith tiny [] with mem := s.mem, resp := .ack } := by
  decide +kernel

/-- R320: a buffer access while BUSY is refused; R49: an unwritten entry is a fault. -/
theorem test_stops :
    refusal? (hostAccess (.read 64 (tiny.apertureBase + 0x040)) (smallBusy 0 [])) = some .hostHazard ∧
    fault? (hostAccess (.read 64 (tiny.apertureBase + 0x1C000000)) small) = some .unwrittenRead ∧
    fault? (hostAccess (.read 64 0x3FFFFFF8) small) = some .outsideAperture := by decide +kernel

/-! ### Witnesses: for every obligation with hypotheses, a state and operands that meet them together -/

/-- `2^k` is the least power of two at or above `x` when `2^(k-1) < x`. -/
theorem isNextPow2 {x k : Nat} (h1 : x ≤ 2 ^ k) (h2 : ∀ j, j < k → 2 ^ j < x) : IsNextPow2 x (2 ^ k) :=
  ⟨⟨k, rfl⟩, h1, fun j hj => by
    rcases Nat.lt_or_ge j k with h | h
    · exact absurd hj (Nat.not_le.mpr (h2 j h))
    · exact Nat.pow_le_pow_right (by decide) h⟩

theorem witness_DecodeOfEncode :
    (Instr.pmac .m 31 3 2 1).wf = true ∧ (Instr.mul .m 3 3 3).wf = true ∧ (Instr.norm 3).wf = true := by decide

theorem witness_EncodeOfDecode : decode 0x000000003F1F0106 = .ok (.pmac .m 31 3 3 3) := by decide +kernel

theorem witness_DecodesExactlyTheTableRows :
    ((0xFFFFFFFFC0E0FEFF, 5) : Word × Word) ∈ opcodeRows ∧ (0x3F1F0105 : Word) &&& 0xFFFFFFFFC0E0FEFF = 5 := by
  decide +kernel

theorem witness_CommandWriteIsAcceptedOrOverruns : small.phase = .idle ∧ (smallBusy 7 []).phase = .busy 7 := by
  decide +kernel

theorem witness_StepRunsDecodedCommand :
    (smallBusy 0x103 []).phase = .busy 0x103 ∧ decode 0x103 = .ok (.fwd .m 0 0) ∧ (smallBusy 0x103 []).events = [] ∧
    (smallBusy 0x103 [.engine]).events = [.engine] ∧
    (smallBusy 0x103 [hostRD tiny 0x028]).events = [.host (.read 64 (tiny.apertureBase + 0x028))] ∧
    decodeTableWord 64 0x103 = some (.fwd .m 0 0) := by decide +kernel

theorem no_row {w : Word}
    (h : (opcodeRows.all fun r => !Nat.beq (w.toNat &&& r.1.toNat) r.2.toNat) = true) :
    ∀ r ∈ opcodeRows, w &&& r.1 ≠ r.2 := by
  intro r hr he
  have h1 := List.all_eq_true.mp h r hr
  have h2 : w.toNat &&& r.1.toNat = r.2.toNat := by rw [← he, BitVec.toNat_and]
  simp [h2] at h1

/-- A word with a bit above the fields, and a reserved opcode. -/
theorem witness_IllegalWordCompletesWithBadcmd :
    (∀ r ∈ opcodeRows, (0x100000003 : Word) &&& r.1 ≠ r.2) ∧ (∀ r ∈ opcodeRows, (9 : Word) &&& r.1 ≠ r.2) ∧
    small.phase = .idle := ⟨no_row (by decide +kernel), no_row (by decide +kernel), by decide +kernel⟩

theorem witness_NopOnlyCompletes : (0x100 : Word).toNat % 2 ^ 8 = 0 ∧ (0x100 : Word) ≠ 0 := by decide

theorem witness_CompletionKeepsControlState :
    exec (.norm 0) { small with ie := true } = .next (after (exec (.norm 0) { small with ie := true })) ∧
    { small with ie := true }.ie = true := ⟨next_after (by decide +kernel), rfl⟩

theorem witness_ErrorWritesNothingExceptMul :
    (∀ dom x y z, Instr.fwd .c 4 0 ≠ .mul dom x y z) ∧
    exec (.fwd .c 4 0) small = .next (after (exec (.fwd .c 4 0) small)) ∧
    (after (exec (.fwd .c 4 0) small)).err ≠ .none :=
  ⟨by intros; exact Instr.noConfusion, next_after (by decide +kernel), by decide +kernel⟩

/-- The first byte above and the last byte below a write set, for a sequence destination, a digit destination and MUL. -/
theorem witness_CommandWritesOnlyItsWriteSet :
    exec (.fwd .m 2 1) small = .next (after (exec (.fwd .m 2 1) small)) ∧
    (¬inWriteSet small.cfg (.fwd .m 2 1) (elemAddr 1 0 - 1) ∧ ¬inWriteSet small.cfg (.fwd .m 2 1) (elemAddr 1 8)) ∧
    exec (.norm 1) small = .next (after (exec (.norm 1) small)) ∧
    (¬inWriteSet small.cfg (.norm 1) (digitAddr 1 0 - 1) ∧ ¬inWriteSet small.cfg (.norm 1) (digitAddr 1 8)) ∧
    exec (.mul .m 2 0 1) small = .next (after (exec (.mul .m 2 0 1) small)) ∧
    (¬inWriteSet small.cfg (.mul .m 2 0 1) (digitAddr 2 8) ∧ ¬inWriteSet small.cfg (.mul .m 2 0 1) (elemAddr 1 8)) := by
  refine ⟨next_after (by decide +kernel), ?_, next_after (by decide +kernel), ?_, next_after (by decide +kernel), ?_⟩ <;>
    simp only [inWriteSet, inSequence, inDigits] <;> decide +kernel

/-- A block of two entries a buffer with every entry written. -/
def full : State :=
  let s := State.resetWith { tiny with log2Nmax := 1 } []
  let d := (List.finRange 4).foldl (fun s k => s.writeDigits k [1, 2]) s
  (List.finRange 4).foldl (fun s k => s.writeElems k (residues [3, 4])) d

theorem witness_WrittenBuffersNeverFault :
    full.cfg.log2Nmax ≤ 23 ∧ ∀ k j, j < full.cfg.nMax →
      (full.digitWord k j).isSome ∧ (full.elemLo k j).isSome ∧ (full.elemHi k j).isSome := by
  refine ⟨by decide +kernel, fun k j h => ?_⟩
  have h2 : j < 2 := h
  have hall : ∀ k : BufIx, ∀ j : Fin 2, (full.digitWord k j.val).isSome = true ∧
      (full.elemLo k j.val).isSome = true ∧ (full.elemHi k j.val).isSome = true := by decide +kernel
  exact hall k ⟨j, h2⟩

theorem witness_LoadseqFillsTheSequence : ∀ dom : Dom, dom = .c ∨ dom = .m →
    small.len 0 ≤ small.cfg.nMax ∧ 3 ≤ limit small.cfg dom ∧ small.len 0 ≤ 2 ^ 3 ∧ small.len 0 ≤ 2 ^ 1 ∧
    ∀ i, i < small.len 0 → small.digit 0 i = some ([2, 1].getD i 0) := by
  rintro _ (rfl | rfl) <;> decide +kernel

theorem witness_DigitConversionIsRoundedOrReduced :
    (-(2 ^ 63) ≤ (2 ^ 63 - 1 : Int) ∧ (2 ^ 63 - 1 : Int) ≤ 2 ^ 63 - 1) ∧
    (-(2 ^ 63) ≤ (-(2 ^ 63) : Int) ∧ (-(2 ^ 63) : Int) ≤ 2 ^ 63 - 1) ∧
    |(-(2 ^ 53) : Int)| ≤ 2 ^ 53 ∧ 0 < tiny.nttP ∧ tiny.nttP < 2 ^ 32 := by decide +kernel

theorem witness_StoredigStoresTheDigits : ∀ dom : Dom, dom = .c ∨ dom = .m →
    small.cfg.log2Nmax ≤ 23 ∧ 2 ≤ limit small.cfg dom ∧
    (∀ i, i < 2 ^ 2 → small.elemLo 0 i = some ([1, 2, 3, 4].getD i 0)) ∧
    (dom = .m → ∀ i, i < 2 ^ 2 → (([1, 2, 3, 4] : List Word).getD i 0).toNat < small.cfg.nttP) ∧
    ∀ i, i < 2 ^ 2 → toDigit dom (([1, 2, 3, 4] : List Word).getD i 0) =
      some (if dom = .m then ([1, 2, 3, 4] : List Int).getD i 0 else 0) := by
  rintro _ (rfl | rfl) <;> decide +kernel

/-- The elements of `S0` of `small`. -/
def smallElems (i : Nat) : Elem := (residues [1, 2, 3, 4]).getD i { lo := 0, hi := 0 }

theorem witness_FwdLeavesTheIndexedTransform : ∀ dom : Dom, dom = .c ∨ dom = .m →
    2 ≤ limit small.cfg dom ∧ (∀ i, i < 2 ^ 2 → small.elem dom 0 i = some (smallElems i)) ∧
    (dom = .m → ∀ i, i < 2 ^ 2 → (smallElems i).residue < small.cfg.nttP) := by
  rintro _ (rfl | rfl) <;> decide +kernel

theorem witness_InvLeavesTheScaledTransform : ∀ dom : Dom, dom = .c ∨ dom = .m →
    2 ≤ limit small.cfg dom ∧ (∀ i, i < 2 ^ 2 → small.elem dom 0 i = some (smallElems i)) ∧
    (dom = .m → ∀ i, i < 2 ^ 2 → (smallElems i).residue < small.cfg.nttP) := by
  rintro _ (rfl | rfl) <;> decide +kernel

theorem witness_IterativeTransformGivesTheSameBits :
    (residues [1, 2, 3, 4]).length = 2 ^ 2 ∧ 3 < 2 ^ 2 := by decide

/-- The residues of `S0` and `S1` of `small`. -/
theorem small_residues :
    (∀ i, i < 2 ^ 2 → small.elemLo 0 i = some (BitVec.ofNat 64 (i + 1)) ∧ i + 1 < small.cfg.nttP) ∧
    ∀ i, i < 2 ^ 2 → small.elemLo 1 i = some (BitVec.ofNat 64 (i + 5)) ∧ i + 5 < small.cfg.nttP := by
  decide +kernel

theorem witness_ForwardModularIsTheDft :
    small.cfg.Legal ∧ 2 ≤ limit small.cfg .m ∧
    ∀ i, i < 2 ^ 2 → small.elemLo 0 i = some (BitVec.ofNat 64 (i + 1)) ∧ i + 1 < small.cfg.nttP :=
  ⟨tiny_legal, by decide +kernel, small_residues.1⟩

theorem witness_InverseModularRestoresTheInput :
    small.cfg.Legal ∧ 2 ≤ limit small.cfg .m ∧
    ∀ i, i < 2 ^ 2 → small.elemLo 1 i = some (BitVec.ofNat 64 (i + 5)) ∧ i + 5 < small.cfg.nttP :=
  ⟨tiny_legal, by decide +kernel, small_residues.2⟩

theorem witness_ConvolutionIsCyclic :
    small.cfg.Legal ∧ 2 ≤ limit small.cfg .m ∧ (0 : BufIx) ≠ 1 ∧
    (∀ i, i < 2 ^ 2 → small.elemLo 0 i = some (BitVec.ofNat 64 (i + 1)) ∧ i + 1 < small.cfg.nttP) ∧
    ∀ i, i < 2 ^ 2 → small.elemLo 1 i = some (BitVec.ofNat 64 (i + 5)) ∧ i + 5 < small.cfg.nttP :=
  ⟨tiny_legal, by decide +kernel, by decide, small_residues.1, small_residues.2⟩

theorem witness_ModularRootsHaveExactOrder :
    tiny.Legal ∧ (1 ≤ 1 ∧ 1 ≤ nttLog2Max tiny) ∧ (2 ≤ 6 ∧ 6 ≤ nttLog2Max tiny) ∧ nttLog2Max tiny = 6 :=
  ⟨tiny_legal, by decide +kernel⟩

theorem witness_ComplexRootsAreCorrectlyRounded : (1 ≤ 1 ∧ 1 ≤ 23) ∧ (1 ≤ 23 ∧ 23 ≤ 23) := by decide

theorem witness_ModularPrimitivesAreResidueArithmetic :
    tiny.Legal ∧ (elemOfResidue 192).residue < tiny.nttP ∧ (elemOfResidue 0).residue < tiny.nttP ∧
    0 < 192 ∧ 192 < tiny.nttP := ⟨tiny_legal, by decide +kernel⟩

theorem witness_PmulIsElementwise : ∀ dom : Dom, dom = .c ∨ dom = .m →
    2 ≤ limit small.cfg dom ∧
    (∀ i, i < 2 ^ 2 → small.elem dom 0 i = some (smallElems i) ∧ small.elem dom 1 i = some (elemOfResidue (i + 5))) ∧
    (dom = .m → ∀ i, i < 2 ^ 2 →
      (smallElems i).residue < small.cfg.nttP ∧ (elemOfResidue (i + 5)).residue < small.cfg.nttP) := by
  rintro _ (rfl | rfl) <;> decide +kernel

theorem witness_PmacIsElementwise : ∀ dom : Dom, dom = .c ∨ dom = .m →
    2 ≤ limit small.cfg dom ∧
    (∀ i, i < 2 ^ 2 → small.elem dom 0 i = some (smallElems i) ∧ small.elem dom 1 i = some (elemOfResidue (i + 5)) ∧
      small.elem dom 0 i = some (smallElems i)) ∧
    (dom = .m → ∀ i, i < 2 ^ 2 →
      (smallElems i).residue < small.cfg.nttP ∧ (elemOfResidue (i + 5)).residue < small.cfg.nttP) := by
  rintro _ (rfl | rfl) <;> decide +kernel

theorem witness_PhaseOneKeepsTheValue :
    ([15, -3, 20] : List Int) ≠ [] ∧ phase1 8 [15, -3, 20] = .ok [5, -2, 0, 2] := by decide +kernel

/-- A raw buffer, as in V-SRC-1, and its NORM. -/
def raw : State := withDigits 0 [15, -3, 20] true (State.resetWith tiny [])

theorem raw_norm : exec (.norm 0) raw = .next (after (exec (.norm 0) raw)) := next_after (by decide +kernel)

theorem witness_NormLeavesCanonicalSameValue :
    raw.cfg.log2Nmax ≤ 23 ∧ exec (.norm 0) raw = .next (after (exec (.norm 0) raw)) ∧
    (after (exec (.norm 0) raw)).err = .none ∧ raw.digits 0 (raw.len 0) = some [15, -3, 20] :=
  ⟨by decide, raw_norm, by decide +kernel, by decide +kernel⟩

/-- A block of 32 entries a buffer, so that 19 entries are free. -/
def rawWide : State := withDigits 0 [8000000000000000000, -8000000000000000000] false
  (State.resetWith { tiny with log2Nmax := 5 } [])

theorem witness_NormCompletes :
    rawWide.len 0 ≤ rawWide.cfg.nMax ∧
    (∀ i, i < rawWide.len 0 →
      rawWide.digit 0 i = some (if i = 0 then 8000000000000000000 else -8000000000000000000)) ∧
    (∀ i, i < rawWide.len 0 →
      |(if i = 0 then 8000000000000000000 else -8000000000000000000 : Int)| ≤ 8000000000000000000) ∧
    rawWide.len 0 + 19 ≤ rawWide.cfg.nMax := by decide +kernel

/-- A block of two entries a buffer holding two digits, so that no entry is free. -/
def rawTight (a b : Int) : State := withDigits 0 [a, b] false (State.resetWith { tiny with log2Nmax := 1 } [])

/-- The same clauses with no free entry: V-NORM-15 meets the condition of `ERR_CAPACITY` and V-NORM-16 that of
`ERR_OVERFLOW`, each with the code the spec gives, and digits at the ends of `[-9, 9]` complete without error. -/
theorem witness_NormCompletes_codes :
    (10 ^ ((rawTight 0 10).cfg.nMax - (rawTight 0 10).len 0 + 1) ≤ |carrySum (fun i => [0, 10].getD i 0) 1| ∧
      (next? (exec (.norm 0) (rawTight 0 10))).map State.err = some .capacity) ∧
    (¬ -(2 ^ 63) ≤ carrySum (fun i => [-(2 ^ 63), -(2 ^ 63)].getD i 0) 1 ∧
      (next? (exec (.norm 0) (rawTight (-(2 ^ 63)) (-(2 ^ 63))))).map State.err = some .overflow) ∧
    ((∀ i, i < (rawTight (-9) 9).len 0 → (rawTight (-9) 9).digit 0 i = some ([-9, 9].getD i 0)) ∧
      (∀ i, i < (rawTight (-9) 9).len 0 → -9 ≤ ([-9, 9] : List Int).getD i 0 ∧ ([-9, 9] : List Int).getD i 0 ≤ 9) ∧
      (rawTight (-9) 9).len 0 = (rawTight (-9) 9).cfg.nMax) := by decide +kernel

theorem witness_NormLengthAndPadding :
    raw.cfg.log2Nmax ≤ 23 ∧ exec (.norm 0) raw = .next (after (exec (.norm 0) raw)) ∧
    (after (exec (.norm 0) raw)).err = .none ∧ raw.digits 0 (raw.len 0) = some [15, -3, 20] ∧
    phase1 raw.cfg.nMax (normInput [15, -3, 20]) = .ok [5, -2, 0, 2] :=
  ⟨by decide, raw_norm, by decide +kernel, by decide +kernel, by decide +kernel⟩

theorem witness_NormIsIdempotent :
    raw.cfg.log2Nmax ≤ 23 ∧ exec (.norm 0) raw = .next (after (exec (.norm 0) raw)) ∧
    (after (exec (.norm 0) raw)).err = .none := ⟨by decide, raw_norm, by decide +kernel⟩

/-! #### MUL: the states of the expansion for `-3 * 4` on the modular path -/

def three : State := withDigits 1 [4] false (withDigits 0 [3] true (State.resetWith tiny []))
def three1 : State := after (exec (.loadseq .m 2 0 0) three)
def three2 : State := after (exec (.loadseq .m 2 1 1) three1)
def three3 : State := after (exec (.fwd .m 2 0) three2)
def three4 : State := after (exec (.fwd .m 2 1) three3)
def three5 : State := after (exec (.pmul .m 2 0 0 1) three4)
def three6 : State := after (exec (.inv .m 2 0) three5)
def three7 : State := after (exec (.storedig .m 2 2 0) three6)

theorem nextPow2_three : IsNextPow2 (1 + 1 + 1) (2 ^ 2) := isNextPow2 (by decide) (by decide)

theorem nextPow2_five : IsNextPow2 (2 + 2 + 1) (2 ^ 3) := isNextPow2 (by decide) (by decide)

theorem small_lens : small.len 0 = 2 ∧ small.len 1 = 2 := by decide +kernel

theorem small_nextPow2 : IsNextPow2 (small.len 0 + small.len 1 + 1) (2 ^ 3) := by
  rw [small_lens.1, small_lens.2]; exact nextPow2_five

theorem witness_MulIsItsExpansion :
    three.len 0 ≤ three.cfg.nMax ∧ three.len 1 ≤ three.cfg.nMax ∧
    IsNextPow2 (1 + 1 + 1) (2 ^ 2) ∧ three.len 0 = 1 ∧ three.len 1 = 1 ∧ 2 ≤ limit three.cfg .m ∧
    exec (.loadseq .m 2 0 0) three = .next three1 ∧ three1.err = .none ∧
    exec (.loadseq .m 2 1 1) three1 = .next three2 ∧ three2.err = .none ∧
    exec (.fwd .m 2 0) three2 = .next three3 ∧ three3.err = .none ∧
    exec (.fwd .m 2 1) three3 = .next three4 ∧ three4.err = .none ∧
    exec (.pmul .m 2 0 0 1) three4 = .next three5 ∧ three5.err = .none ∧
    exec (.inv .m 2 0) three5 = .next three6 ∧ three6.err = .none ∧
    exec (.storedig .m 2 2 0) three6 = .next three7 ∧ three7.err = .none ∧
    exec (.norm 2) (three7.setSign 2 (three.sign 0 ^^ three.sign 1)) =
      .next (after (exec (.norm 2) (three7.setSign 2 (three.sign 0 ^^ three.sign 1)))) :=
  ⟨by decide +kernel, by decide +kernel, nextPow2_three, by decide +kernel, by decide +kernel, by decide +kernel,
    next_after (by decide +kernel), by decide +kernel, next_after (by decide +kernel), by decide +kernel,
    next_after (by decide +kernel), by decide +kernel, next_after (by decide +kernel), by decide +kernel,
    next_after (by decide +kernel), by decide +kernel, next_after (by decide +kernel), by decide +kernel,
    next_after (by decide +kernel), by decide +kernel, next_after (by decide +kernel)⟩

/-- The clause of MulIsItsExpansion where STOREDIG fails: `2^62 * 4` on the complex path (V-MUL-10). -/
def large : State := withDigits 1 [4] false (withDigits 0 [4611686018427387904] false (State.resetWith tiny []))
def large1 : State := after (exec (.loadseq .c 2 0 0) large)
def large2 : State := after (exec (.loadseq .c 2 1 1) large1)
def large3 : State := after (exec (.fwd .c 2 0) large2)
def large4 : State := after (exec (.fwd .c 2 1) large3)
def large5 : State := after (exec (.pmul .c 2 0 0 1) large4)
def large6 : State := after (exec (.inv .c 2 0) large5)
def large7 : State := after (exec (.storedig .c 2 2 0) large6)

theorem witness_MulIsItsExpansion_error :
    large.len 0 ≤ large.cfg.nMax ∧ large.len 1 ≤ large.cfg.nMax ∧
    IsNextPow2 (1 + 1 + 1) (2 ^ 2) ∧ large.len 0 = 1 ∧ large.len 1 = 1 ∧ 2 ≤ limit large.cfg .c ∧
    exec (.loadseq .c 2 0 0) large = .next large1 ∧ large1.err = .none ∧
    exec (.loadseq .c 2 1 1) large1 = .next large2 ∧ large2.err = .none ∧
    exec (.fwd .c 2 0) large2 = .next large3 ∧ large3.err = .none ∧
    exec (.fwd .c 2 1) large3 = .next large4 ∧ large4.err = .none ∧
    exec (.pmul .c 2 0 0 1) large4 = .next large5 ∧ large5.err = .none ∧
    exec (.inv .c 2 0) large5 = .next large6 ∧ large6.err = .none ∧
    exec (.storedig .c 2 2 0) large6 = .next large7 ∧ large7.err = .round :=
  ⟨by decide +kernel, by decide +kernel, nextPow2_three, by decide +kernel, by decide +kernel,
    by decide +kernel,
    next_after (by decide +kernel), by decide +kernel, next_after (by decide +kernel), by decide +kernel,
    next_after (by decide +kernel), by decide +kernel, next_after (by decide +kernel), by decide +kernel,
    next_after (by decide +kernel), by decide +kernel, next_after (by decide +kernel), by decide +kernel,
    next_after (by decide +kernel), by decide +kernel⟩

theorem witness_MulCompletes :
    small.cfg.Legal ∧ small.len 0 ≤ small.cfg.nMax ∧ small.len 1 ≤ small.cfg.nMax ∧
    IsNextPow2 (small.len 0 + small.len 1 + 1) (2 ^ 3) ∧ (∀ dom : Dom, dom = .c ∨ dom = .m → 3 ≤ limit small.cfg dom) ∧
    (∀ i, i < small.len 0 → small.digit 0 i = some ([2, 1].getD i 0)) ∧
    ∀ i, i < small.len 1 → small.digit 1 i = some ([4, 3].getD i 0) :=
  ⟨tiny_legal, by decide +kernel, by decide +kernel, small_nextPow2,
    by rintro _ (rfl | rfl) <;> decide +kernel, by decide +kernel, by decide +kernel⟩

/-- The error clauses of MulCompletes are met: V-MUL-10 ends with `ERR_ROUND`. -/
theorem witness_MulCompletes_round : (next? (exec (.mul .c 2 0 1) large)).map State.err = some .round := by
  decide +kernel

/-- V-MUL-8 ends with `ERR_CAPACITY`. -/
theorem witness_MulCompletes_capacity :
    (next? (exec (.mul .c 2 0 1) (withDigits 1 [1000000] false (withDigits 0 [1000000] true
      (State.resetWith { tiny with log2Nmax := 2 } []))))).map State.err = some .capacity := by decide +kernel

/-- A canonical buffer whose two digits are significant. -/
theorem canonical_two {s : State} {k : BufIx} {a b : Int} (hd : s.digits k (s.len k) = some [a, b])
    (hl : s.len k = 2) (hn : 2 ≤ s.cfg.nMax) (ha : 0 ≤ a ∧ a ≤ 9) (hb : 0 < b ∧ b ≤ 9) : s.canonical k := by
  refine ⟨[a, b], hd, ⟨1, by rw [hl]; rfl⟩, by omega, by omega, ?_, ⟨2, ?_, ?_⟩, ?_⟩
  · intro d h
    simp only [List.mem_cons, List.not_mem_nil, or_false] at h
    rcases h with rfl | rfl <;> omega
  · refine Or.inr ⟨by decide, le_refl 2, ?_, ?_⟩
    · show b ≠ 0
      omega
    · intro i hi
      match i, hi with
      | i + 2, _ => rfl
  · rw [hl]
    exact ⟨⟨1, rfl⟩, le_rfl, fun _ h => h⟩
  · intro h
    have := h b (by simp)
    omega

theorem witness_MulModularIsExact :
    small.cfg.Legal ∧ small.canonical 0 ∧ small.canonical 1 ∧ small.value 0 = some (-12) ∧
    small.value 1 = some 34 ∧ 81 * min (small.len 0) (small.len 1) < small.cfg.nttP ∧
    IsNextPow2 (small.len 0 + small.len 1 + 1) (2 ^ 3) ∧ 3 ≤ limit small.cfg .m :=
  ⟨tiny_legal,
    canonical_two (a := 2) (b := 1) (by decide +kernel) small_lens.1 (by decide +kernel) (by decide) (by decide),
    canonical_two (a := 4) (b := 3) (by decide +kernel) small_lens.2 (by decide +kernel) (by decide) (by decide),
    by decide +kernel, by decide +kernel, by decide +kernel, small_nextPow2, by decide +kernel⟩

/-- The limits, and the clauses at their boundaries: a length one above the capacity, LOGN one above the limit, a
length one above `2^LOGN`, and lengths whose MUL needs one more than the limit. -/
theorem witness_LengthErrorsComeFirst :
    let s := small.setLen 1 9
    let t := (small.setLen 0 4).setLen 1 4
    (3 = small.cfg.log2Nmax ∧ 3 = min small.cfg.log2Nmax (nttLog2Max small.cfg)) ∧
    s.cfg.nMax < s.len 1 ∧ 3 < 4 ∧
    (small.len 0 ≤ small.cfg.nMax ∧ 0 ≤ 3 ∧ 2 ^ 0 < small.len 0) ∧
    (t.len 0 ≤ t.cfg.nMax ∧ t.len 1 ≤ t.cfg.nMax ∧ 2 ^ 3 < t.len 0 + t.len 1 + 1) := by decide +kernel

/-- Each command with only what it reads written: the destinations `S2` and `D2` are unwritten. -/
theorem witness_IllegalResidueIsAnError :
    let s := (State.resetWith tiny []).writeElems 3 (residues [193])
    let t := s.writeElems 0 (residues [1])
    0 ≤ limit s.cfg .m ∧ (∀ i, i < 2 ^ 0 → s.elem .m 3 i = some (elemOfResidue 193)) ∧ s.digitWord 2 0 = none ∧
    (∀ i, i < 2 ^ 0 → t.elem .m 3 i = some (elemOfResidue 193) ∧ t.elem .m 0 i = some (elemOfResidue 1)) ∧
    t.elemLo 2 0 = none ∧ s.cfg.nttP ≤ (elemOfResidue 193).residue := by decide +kernel

theorem witness_UnroundableElementIsAnError :
    let s := small.writeElems 3 [{ lo := 0x43E0000000000000, hi := 0 }]
    0 ≤ limit s.cfg .c ∧ (∀ i, i < 2 ^ 0 → s.elemLo 3 i = some 0x43E0000000000000) ∧
    roundToDigit 0x43E0000000000000 = none := by decide +kernel

theorem witness_ResetMeetsTheInvariant : (1 ≤ 1 ∧ 1 ≤ 23) ∧ (1 ≤ 23 ∧ 23 ≤ 23) := by decide

/-- A state in which `D0[0] = 15` is written and NORM D0 is in flight. -/
def normInFlight : State := (withDigits 0 [15] false (State.resetWith tiny [])).accept 7

theorem normInFlight_inv : normInFlight.Inv where
  capacity := by decide
  memory := by decide +kernel
  buffers := by
    have h : ∀ c ∈ normInFlight.mem, digitAddr 0 0 ≤ c.1 ∧ c.1 < digitAddr 0 0 + 8 * normInFlight.cfg.nMax := by
      decide +kernel
    exact fun c hc => ⟨0, Or.inl (h c hc)⟩
  inFlight := by
    intro w h
    have h7 : (7 : Word) = w := by simpa [normInFlight, State.accept] using h
    subst h7
    exact ⟨rfl, rfl, rfl⟩

theorem witness_StepKeepsTheInvariant :
    normInFlight.Inv ∧ step normInFlight = .next (after (step normInFlight)) :=
  ⟨normInFlight_inv, next_after (by decide +kernel)⟩

theorem witness_PowerOnResetClearsAll :
    (smallBusy 7 [.powerOnReset, .engine]).events = .powerOnReset :: [.engine] := rfl

/-- The three cases: idle, an illegal word in flight, and FWD S0 in flight with the bytes at the edges of S0. -/
theorem witness_SoftResetAbandonsTheCommand :
    ((3 : Word).getLsbD 1 = true ∧ small.phase = .idle ∧
      (smallBusy 9 []).phase = .busy 9 ∧ decode 9 = .reject .reservedOpcode ∧
      (smallBusy 0x103 []).phase = .busy 0x103 ∧ decode 0x103 = .ok (.fwd .m 0 0)) ∧
    (inWriteSet tiny (.fwd .m 0 0) (elemAddr 0 0) ∧ inWriteSet tiny (.fwd .m 0 0) (elemAddr 0 8 - 1) ∧
      ¬inWriteSet tiny (.fwd .m 0 0) (elemAddr 0 0 - 1) ∧ ¬inWriteSet tiny (.fwd .m 0 0) (elemAddr 0 8)) := by
  refine ⟨by decide +kernel, ?_⟩
  simp only [inWriteSet, inSequence]
  decide +kernel

theorem witness_PolledCommandIsExecuted :
    let s := smallBusy 7 (List.replicate 2 (hostRD tiny 0x028))
    s.phase = .busy 7 ∧ s.events = List.replicate 2 (.host (.read 64 (s.cfg.apertureBase + 0x028))) :=
  ⟨rfl, rfl⟩

theorem witness_BusyHostAccessTouchesNoOperand :
    (smallBusy 7 []).phase = .busy 7 ∧
    hostAccess (.write 64 (tiny.apertureBase + 0x030) 8) (smallBusy 7 []) =
      .next (after (hostAccess (.write 64 (tiny.apertureBase + 0x030) 8) (smallBusy 7 []))) ∧
    hostAccess (.write 64 (tiny.apertureBase + 0x020) 2) (smallBusy 7 []) =
      .next (after (hostAccess (.write 64 (tiny.apertureBase + 0x020) 2) (smallBusy 7 []))) :=
  ⟨rfl, next_after (by decide +kernel), next_after (by decide +kernel)⟩

theorem witness_OnlyCommandWritesStartTheEngine :
    let s := { small with events := [hostWR tiny 0x030 7] }
    s.phase = .idle ∧ step s = .next (after (step s)) ∧ (after (step s)).phase = .busy 7 ∧
    (small.phase = .idle ∧ small.events = []) ∧ { small with events := [.engine] }.events = .engine :: [] :=
  ⟨by decide +kernel, next_after (by decide +kernel), by decide +kernel, by decide +kernel, rfl⟩

theorem witness_HostReadsHaveNoSideEffect :
    hostAccess (.read 64 (tiny.apertureBase + 0x10000008)) small =
      .next (after (hostAccess (.read 64 (tiny.apertureBase + 0x10000008)) small)) :=
  next_after (by decide +kernel)

theorem witness_MalformedAccessIsABusError :
    (0x3FFFFFFC < 2 ^ 30 ∧ 0x3FFFFFFC % 8 ≠ 0) ∧ (0 < 2 ^ 30 ∧ 32 ≠ 64) := by decide

/-- Every clause at the ends of its range. -/
theorem witness_ReservedOffsetsReadZero :
    (0x038 % 8 = 0) ∧ (0x080 % 8 = 0 ∧ 0x080 ≤ 0x080) ∧ (0x0FFFFFF8 % 8 = 0 ∧ 0x0FFFFFF8 < 0x10000000) ∧
    small.phase = .idle ∧ (small.cfg.nMax ≤ 8 ∧ digitAddr 0 8 % 8 = 0 ∧ elemAddr 3 8 % 8 = 0) ∧
    (small.cfg.nMax ≤ 2 ^ 23 - 1 ∧ 2 ^ 23 - 1 < 2 ^ 23 ∧ elemAddr 3 (2 ^ 23 - 1) + 8 = 0x3FFFFFF8) := by
  decide +kernel

theorem witness_ConstantRegisters : small.cfg.Legal := tiny_legal

theorem witness_ControlAndCommandRegisters : (5 : Word).getLsbD 1 = false := by decide

theorem witness_LengthAndSignRegisters : small.phase = .idle := by decide +kernel

/-- The last entry, written in `last` and unwritten in `small`. -/
def last : State := { small with mem := (small.mem.writeWords (digitAddr 3 7) [5]).writeWords (elemAddr 3 7) [6, 7] }

theorem witness_DigitWindowReadsAndWrites :
    last.cfg.log2Nmax ≤ 23 ∧ 7 < last.cfg.nMax ∧ last.phase = .idle ∧ last.digitWord 3 7 = some 5 ∧
    small.digitWord 3 7 = none := by decide +kernel

theorem witness_SequenceWindowReadsAndWrites :
    last.cfg.log2Nmax ≤ 23 ∧ 7 < last.cfg.nMax ∧ last.phase = .idle ∧ last.elemLo 3 7 = some 6 ∧
    last.elemHi 3 7 = some 7 ∧ small.elemLo 3 7 = none ∧ small.elemHi 3 7 = none := by decide +kernel

theorem witness_BytesAreLittleEndian : small.mem.readWord (digitAddr 0 0) = some 2 := by decide +kernel

/-- Both ranges at their ends. -/
theorem witness_BusyBufferAccessIsRefused :
    (smallBusy 7 []).phase = .busy 7 ∧ (0x040 % 8 = 0 ∧ 0x078 % 8 = 0 ∧ 0x078 < 0x080) ∧
    (0x10000000 % 8 = 0 ∧ 0x3FFFFFF8 % 8 = 0 ∧ 0x3FFFFFF8 < 0x40000000) := by decide +kernel

theorem isFinite_of {w : Word} (h : w.toNat / 2 ^ 52 % 2 ^ 11 ≠ 2047) : isFiniteFloat w := h

theorem floatValue_zero : floatValue 0 = 0 := by simp [floatValue]

theorem floatValue_one : floatValue 0x3FF0000000000000 = 1 := by
  have he : (0x3FF0000000000000 : Word).toNat / 2 ^ 52 % 2 ^ 11 = 1023 := by decide
  have hf : (0x3FF0000000000000 : Word).toNat % 2 ^ 52 = 0 := by decide
  have hs : floatSign 0x3FF0000000000000 = false := by decide
  simp only [floatValue, he, hf, hs]
  norm_num

/-- Finite operands with an exact zero sum and an exact zero difference. -/
theorem witness_FloatSumsAreCorrectlyRounded :
    isFiniteFloat 0x3FF0000000000000 ∧ isFiniteFloat 0 ∧ floatValue 0 + floatValue 0 = 0 ∧
    floatValue 0x3FF0000000000000 - floatValue 0x3FF0000000000000 = 0 :=
  ⟨isFinite_of (by decide), isFinite_of (by decide), by rw [floatValue_zero, add_zero], sub_self _⟩

theorem witness_FloatProductsAreCorrectlyRounded :
    isFiniteFloat 0x7FEFFFFFFFFFFFFF ∧ isFiniteFloat 0x3FF0000000000000 ∧ floatValue 0x3FF0000000000000 ≠ 0 :=
  ⟨isFinite_of (by decide), isFinite_of (by decide), by rw [floatValue_one]; norm_num⟩

/-- NaNs, finite values that are zero and not, and a zero divisor. -/
theorem witness_NaNResultsAreCanonical :
    (isNaNFloat (fsub 0x7FF0000000000000 0x7FF0000000000000) ∧ isNaNFloat 0x7FF0000000000001) ∧
    isFiniteFloat 0x3FF0000000000000 ∧ isFiniteFloat 0 ∧ floatValue 0x3FF0000000000000 ≠ 0 ∧ floatValue 0 = 0 :=
  ⟨by unfold isNaNFloat; decide +kernel, isFinite_of (by decide), isFinite_of (by decide),
    by rw [floatValue_one]; norm_num, floatValue_zero⟩

/-- V-PMUL-3 and V-FWDC-5 use these: an infinity times zero, and an infinity minus an infinity. -/
theorem test_infinities : fmul 0x7FF0000000000000 0 = 0x7FF8000000000000 ∧
    fsub (fmul 0x3FF0000000000000 0x7FF0000000000000) (fmul 0 0) = 0x7FF0000000000000 ∧
    fsub 0x3FF0000000000000 0x7FF0000000000000 = 0xFFF0000000000000 := by decide +kernel

end Sys2Proof.Tests
end

section
/-! PROOF. A word no row of the opcode table matches does not decode, and completes with `ERR_BADCMD` (R107, R108). -/

namespace Sys2Proof

/-! ### Masks as unions of fields -/

/-- The word whose set bits are those of the field of `len` bits from bit `lo`. -/
def fieldMask (lo len : Nat) : Word := BitVec.ofNat 64 ((2 ^ len - 1) * 2 ^ lo)

/-- Masking a word with a field's mask leaves the field's value in its place. -/
theorem and_fieldMask (w : Word) (lo len : Nat) :
    w &&& fieldMask lo len = BitVec.ofNat 64 (field w lo len * 2 ^ lo) := by
  refine BitVec.eq_of_getLsbD_eq fun i hi => ?_
  simp only [fieldMask, field, BitVec.getLsbD_and, BitVec.getLsbD_ofNat, hi, decide_true, Bool.true_and,
    Nat.testBit_mul_two_pow, Nat.testBit_two_pow_sub_one, Nat.testBit_mod_two_pow, Nat.testBit_div_two_pow]
  by_cases hlo : lo ≤ i
  · simp [hlo, BitVec.getLsbD, Bool.and_comm]
  · simp [hlo]

/-- The union of the masks of a list of fields, each given by its first bit and its length. -/
def fieldsMask (fs : List (Nat × Nat)) : Word := fs.foldr (fun f m => fieldMask f.1 f.2 ||| m) 0

theorem and_fieldsMask_of_zero {w : Word} {fs : List (Nat × Nat)} (h : ∀ f ∈ fs, field w f.1 f.2 = 0) :
    w &&& fieldsMask fs = 0 := by
  induction fs with
  | nil => simp [fieldsMask]
  | cons f fs ih =>
    obtain ⟨hf, hfs⟩ := List.forall_mem_cons.1 h
    have hrest : w &&& fieldsMask fs = 0 := ih hfs
    have hhead : w &&& fieldMask f.1 f.2 = 0 := by simp [and_fieldMask, hf]
    change w &&& (fieldMask f.1 f.2 ||| fieldsMask fs) = 0
    rw [BitVec.and_or_distrib_left, hhead, hrest]
    rfl

/-! ### The rows of the opcode table -/

/-- The bits every command leaves 0 (R101). -/
def reservedFields : List (Nat × Nat) := [(9, 7), (21, 3), (30, 34)]

/-- The fields R105 shows as 0 for an opcode. -/
def unusedFields : Nat → List (Nat × Nat)
  | 0 => [(8, 1), (16, 5), (24, 2), (26, 2), (28, 2)]
  | 1 | 2 => [(28, 2)]
  | 3 | 4 => [(26, 2), (28, 2)]
  | 7 => [(8, 1), (16, 5), (26, 2), (28, 2)]
  | 8 => [(16, 5)]
  | _ => []

/-- The fields that must be 0 under an opcode. -/
def zeroFields (opc : Nat) : List (Nat × Nat) := reservedFields ++ unusedFields opc

/-- The table's row of an opcode tests the OPC field and that the opcode's zero fields are 0. -/
theorem row_mem_opcodeRows :
    ∀ opc < 9, (fieldMask 0 8 ||| fieldsMask (zeroFields opc), BitVec.ofNat 64 opc) ∈ opcodeRows := by
  decide

/-- A command that passes the check of R107 has 0 in every field the check lists. -/
theorem fields_zero_of_requireZero {w : Word} {fs : List (Nat × Nat)} {i j : Instr}
    (h : requireZero (fs.map fun f => field w f.1 f.2) j = .ok i) : ∀ f ∈ fs, field w f.1 f.2 = 0 := by
  unfold requireZero at h
  split_ifs at h with hz
  simpa using hz

/-- A word that decodes has a defined opcode, and its zero fields are 0 (R107). -/
theorem zeroFields_of_decode_ok {w : Word} {i : Instr} (h : decode w = .ok i) :
    field w 0 8 < 9 ∧ ∀ f ∈ zeroFields (field w 0 8), field w f.1 f.2 = 0 := by
  unfold decode at h
  split_ifs at h with hset
  have hreserved : ∀ f ∈ reservedFields, field w f.1 f.2 = 0 := by
    simp only [reservedFields, List.forall_mem_cons]
    exact ⟨by omega, by omega, by omega, by simp⟩
  split at h
  case h_10 => cases h
  all_goals
    next hopc =>
      rw [hopc]
      exact ⟨by decide, List.forall_mem_append.2 ⟨hreserved, fields_zero_of_requireZero h⟩⟩

/-- A word that decodes matches a row of the opcode table (R107). -/
theorem row_of_decode_ok {w : Word} {i : Instr} (h : decode w = .ok i) :
    ∃ r ∈ opcodeRows, w &&& r.1 = r.2 := by
  obtain ⟨hopc, hzero⟩ := zeroFields_of_decode_ok h
  refine ⟨_, row_mem_opcodeRows _ hopc, ?_⟩
  change w &&& (fieldMask 0 8 ||| fieldsMask (zeroFields (field w 0 8))) = BitVec.ofNat 64 (field w 0 8)
  rw [BitVec.and_or_distrib_left, and_fieldsMask_of_zero hzero, and_fieldMask]
  simp

theorem decode_reject_of_no_row {w : Word} (h : ∀ r ∈ opcodeRows, w &&& r.1 ≠ r.2) :
    ∃ e, decode w = .reject e := by
  cases hd : decode w with
  | ok i =>
    obtain ⟨r, hr, hrow⟩ := row_of_decode_ok hd
    exact absurd hrow (h r hr)
  | reject e => exact ⟨e, rfl⟩

end Sys2Proof

namespace Sys2Proof.Machine

/-! ### Acceptance and the engine's turn -/

/-- The register map has CMD at offset 0x030 (R71). -/
theorem route_cmd (p : Params) : route p 64 (p.apertureBase + 0x030) = .reaches .cmd := by
  rw [route_reaches_iff, Nat.add_sub_cancel_left]
  exact ⟨by omega, by omega, rfl, rfl, rfl⟩

/-- A CMD write when `Idle` is accepted, whatever the word (R261). -/
theorem hostAccess_write_cmd_of_idle {s : State} (h : s.phase = .idle) (w : Word) :
    hostAccess (.write 64 (s.cfg.apertureBase + 0x030) w) s = .next { s.accept w with resp := .ack } := by
  simp [hostAccess, hostWrite, route_cmd, Target.guarded, writeTarget, State.writeCmd, h]

/-- The engine completes an illegal word with `ERR_BADCMD` (R108, R262). -/
theorem engineTurn_of_reject {s : State} {w : Word} {e : DecodeReject} (hp : s.phase = .busy w)
    (hd : decode w = .reject e) : engineTurn s = .next (s.complete .badcmd) := by
  simp [engineTurn, engineStep, hp, hd]

/-- Settles O7: the word is accepted, and as it matches no row it does not decode. -/
theorem illegalWordCompletesWithBadcmd : Obligations.IllegalWordCompletesWithBadcmd := by
  intro s w hrow hidle
  obtain ⟨e, hd⟩ := decode_reject_of_no_row hrow
  exact ⟨_, hostAccess_write_cmd_of_idle hidle w, rfl, engineTurn_of_reject rfl hd, rfl, rfl, rfl⟩

end Sys2Proof.Machine
end

section
/-! PROOF. NORM (spec/40_normalize.md): what its two phases keep, what its commit writes, and that it leaves a
canonical buffer alone. -/

namespace Sys2Proof.Machine

/-! ### Digit lists and their values -/

@[simp] theorem digitsValue_nil : digitsValue [] = 0 := rfl

@[simp] theorem digitsValue_cons (d : Int) (ds : List Int) : digitsValue (d :: ds) = d + 10 * digitsValue ds := rfl

theorem digitsValue_append (as bs : List Int) :
    digitsValue (as ++ bs) = digitsValue as + 10 ^ as.length * digitsValue bs := by
  induction as with
  | nil => simp
  | cons a as ih =>
    simp only [List.cons_append, digitsValue_cons, ih, List.length_cons, pow_succ]
    ring

@[simp] theorem digitsValue_replicate_zero (n : Nat) : digitsValue (List.replicate n 0) = 0 := by
  induction n with
  | zero => rfl
  | succ n ih => simp [List.replicate_succ, digitsValue_cons, ih]

theorem digitsValue_map_neg (ds : List Int) : digitsValue (ds.map fun d => -d) = -digitsValue ds := by
  induction ds with
  | nil => rfl
  | cons d ds ih => simp only [List.map_cons, digitsValue_cons, ih]; ring

theorem digitsValue_lt_pow {ds : List Int} (h : ∀ d ∈ ds, d ≤ 9) : digitsValue ds < 10 ^ ds.length := by
  induction ds with
  | nil => simp
  | cons d ds ih =>
    obtain ⟨hd, hds⟩ := List.forall_mem_cons.1 h
    have := ih hds
    rw [digitsValue_cons, List.length_cons, pow_succ]
    omega

/-- Digits in `[-9, 9]` stay below the weight of the next position (R132). -/
theorem abs_digitsValue_lt_pow {ds : List Int} (h : ∀ d ∈ ds, -9 ≤ d ∧ d ≤ 9) :
    |digitsValue ds| < 10 ^ ds.length := by
  have hneg := digitsValue_lt_pow (ds := ds.map fun d => -d) (by
    intro e he
    obtain ⟨d, hd, rfl⟩ := List.mem_map.1 he
    have := h d hd
    omega)
  rw [digitsValue_map_neg, List.length_map] at hneg
  exact abs_lt.2 ⟨by omega, digitsValue_lt_pow fun d hd => (h d hd).2⟩

theorem digitsValue_nonneg {ds : List Int} (h : ∀ d ∈ ds, 0 ≤ d) : 0 ≤ digitsValue ds := by
  induction ds with
  | nil => exact le_rfl
  | cons d ds ih =>
    obtain ⟨hd, hds⟩ := List.forall_mem_cons.1 h
    have := ih hds
    rw [digitsValue_cons]
    omega

theorem digitsValue_eq_zero_iff {ds : List Int} (h : ∀ d ∈ ds, 0 ≤ d) :
    digitsValue ds = 0 ↔ ∀ d ∈ ds, d = 0 := by
  induction ds with
  | nil => simp
  | cons d ds ih =>
    obtain ⟨hd, hds⟩ := List.forall_mem_cons.1 h
    have := digitsValue_nonneg hds
    rw [List.forall_mem_cons, ← ih hds, digitsValue_cons]
    omega

/-! ### Quotients and remainders by ten (R12) -/

theorem tmod_ten_bounds (n : Int) : -9 ≤ Int.tmod n 10 ∧ Int.tmod n 10 ≤ 9 := by
  have := Int.lt_tmod_of_pos n (b := 10) (by decide)
  have := Int.tmod_lt_of_pos n (b := 10) (by decide)
  omega

theorem natAbs_tdiv_ten (n : Int) : (Int.tdiv n 10).natAbs = n.natAbs / 10 := Int.natAbs_tdiv n 10

theorem tdiv_ten_of_digit {d : Int} (h : -9 ≤ d ∧ d ≤ 9) : Int.tdiv d 10 = 0 := by
  have := natAbs_tdiv_ten d
  omega

theorem tmod_ten_of_digit {d : Int} (h : -9 ≤ d ∧ d ≤ 9) : Int.tmod d 10 = d := by
  simpa [tdiv_ten_of_digit h] using Int.tmod_add_mul_tdiv d 10

theorem fdiv_ten (n : Int) : Int.fdiv n 10 = n / 10 := Int.fdiv_eq_ediv_of_nonneg n (by decide)

theorem fmod_ten (n : Int) : Int.fmod n 10 = n % 10 := Int.fmod_eq_emod_of_nonneg n (by decide)

/-- Reducing the digits above a first digit reduces the number they spell. -/
theorem add_ten_mul_emod {r v m : Int} (hr0 : 0 ≤ r) (hr10 : r < 10) (hm : 0 < m) :
    (r + 10 * v) % (m * 10) = r + 10 * (v % m) := by
  have hlo := Int.emod_nonneg v hm.ne'
  have hhi := Int.emod_lt_of_pos v hm
  have hv : r + 10 * v = r + 10 * (v % m) + m * 10 * (v / m) := by
    linear_combination -10 * Int.emod_add_mul_ediv v m
  rw [hv, Int.add_mul_emod_self_left, Int.emod_eq_of_lt (by omega) (by omega)]

/-! ### Phase 1 (R131) -/

/-- The linear pass moves carries up: every digit but the last ends in `[-9, 9]`, the last is an `int64`. -/
theorem carryPass_eq_some {c : Int} {ds u : List Int} (hne : ds ≠ []) (h : carryPass c ds = some u) :
    ∃ low top, u = low ++ [top] ∧ low.length + 1 = ds.length ∧ (∀ d ∈ low, -9 ≤ d ∧ d ≤ 9) ∧
      inInt64 top = true ∧ digitsValue u = c + digitsValue ds := by
  induction c, ds using carryPass.induct generalizing u with
  | case1 => exact absurd rfl hne
  | case2 c d hin =>
    rw [carryPass, if_pos hin] at h
    cases h
    exact ⟨[], d + c, rfl, rfl, by simp, hin, by simp; ring⟩
  | case3 c d hin => simp [carryPass, hin] at h
  | case4 c d e ds hin t ht ih =>
    rw [carryPass, if_pos hin, ht] at h
    cases h
    obtain ⟨low, top, rfl, hlen, hlow, htop, hval⟩ := ih (by simp) ht
    refine ⟨Int.tmod (d + c) 10 :: low, top, rfl, congrArg (· + 1) hlen, ?_, htop, ?_⟩
    · exact List.forall_mem_cons.2 ⟨tmod_ten_bounds _, hlow⟩
    · have := Int.tmod_add_mul_tdiv (d + c) 10
      rw [digitsValue_cons, hval, digitsValue_cons d]
      omega
  | case5 c d e ds hin hn ih => simp [carryPass, hin, hn] at h
  | case6 c d e ds hin => simp [carryPass, hin] at h

/-- The extension splits the top digit into its decimal digits, `k + 1` of them at most when it is below
`10^(k+1)`, and as many as there is room for. -/
theorem extendTop_eq_some {fuel room k : Nat} {top : Int} {t : List Int} (h : extendTop fuel room top = some t)
    (hk : k ≤ fuel) (htop : top.natAbs < 10 ^ (k + 1)) :
    (∀ d ∈ t, -9 ≤ d ∧ d ≤ 9) ∧ digitsValue t = top ∧ 1 ≤ t.length ∧ t.length ≤ k + 1 ∧ t.length ≤ room + 1 := by
  induction fuel generalizing room k top t with
  | zero =>
    obtain rfl : k = 0 := by omega
    cases h
    exact ⟨List.forall_mem_singleton.2 (by omega), by simp, by simp, by simp, by simp⟩
  | succ fuel ih =>
    unfold extendTop at h
    split_ifs at h with hbig
    · obtain _ | k := k
      · omega
      obtain _ | room := room
      · cases h
      simp only at h
      split at h
      next t' ht' =>
        cases h
        obtain ⟨hdigits, hval, hpos, hlenk, hlen⟩ := ih ht' (k := k) (by omega) (by
          rw [natAbs_tdiv_ten]
          rw [pow_succ] at htop
          omega)
        have := Int.tmod_add_mul_tdiv top 10
        refine ⟨List.forall_mem_cons.2 ⟨tmod_ten_bounds _, hdigits⟩, ?_, ?_, ?_, ?_⟩
        · rw [digitsValue_cons, hval]; omega
        all_goals rw [List.length_cons]; omega
      next => cases h
    · cases h
      exact ⟨List.forall_mem_singleton.2 (by omega), by simp, by simp, by simp, by simp⟩

/-- R131, R137: what phase 1 leaves: digits in `[-9, 9]`, the value, and at most 19 more of them. -/
theorem phase1_eq_ok {nMax : Nat} {ds u : List Int} (hne : ds ≠ []) (h : phase1 nMax ds = .ok u) :
    (∀ d ∈ u, -9 ≤ d ∧ d ≤ 9) ∧ digitsValue u = digitsValue ds ∧
      ds.length ≤ u.length ∧ u.length ≤ ds.length + 19 ∧ u.length ≤ max nMax ds.length := by
  unfold phase1 at h
  split at h
  next => cases h
  next v hv =>
    obtain ⟨low, top, rfl, hlen, hlow, htop, hval⟩ := carryPass_eq_some hne hv
    rw [List.getLastD_concat, List.dropLast_concat] at h
    have hbound : top.natAbs < 10 ^ 19 := by
      simp only [inInt64, decide_eq_true_eq] at htop
      omega
    split at h
    next => cases h
    next t ht =>
      cases h
      obtain ⟨hdigits, hvalt, hpos, hlen19, hroom⟩ := extendTop_eq_some ht (k := 18) (by omega) hbound
      refine ⟨List.forall_mem_append.2 ⟨hlow, hdigits⟩, ?_, ?_⟩
      · rw [digitsValue_append, hvalt]
        simpa [digitsValue_append] using hval
      · rw [List.length_append]
        omega

theorem carryPass_of_digits {ds : List Int} (h : ∀ d ∈ ds, -9 ≤ d ∧ d ≤ 9) : carryPass 0 ds = some ds := by
  induction ds with
  | nil => rfl
  | cons d ds ih =>
    obtain ⟨hd, hds⟩ := List.forall_mem_cons.1 h
    have hin : inInt64 d = true := decide_eq_true (by omega)
    cases ds with
    | nil => simp [carryPass, hin]
    | cons e ds => simp [carryPass, hin, tdiv_ten_of_digit hd, tmod_ten_of_digit hd, ih hds]

/-- Phase 1 leaves digits in `[-9, 9]` as they are. -/
theorem phase1_of_digits {nMax : Nat} {ds : List Int} (hne : ds ≠ []) (h : ∀ d ∈ ds, -9 ≤ d ∧ d ≤ 9) :
    phase1 nMax ds = .ok ds := by
  have hlast : ¬ 9 < (ds.getLast hne).natAbs := by
    have := h _ (List.getLast_mem hne)
    omega
  simp only [phase1, carryPass_of_digits h, List.getLastD_eq_getLast?, List.getLast?_eq_some_getLast hne,
    Option.getD_some, extendTop, if_neg hlast, List.dropLast_append_getLast]

/-! ### Phase 2 (R132) -/

/-- The sign of a value with digits in `[-9, 9]` is that of its most significant nonzero digit. -/
theorem topDigit_sign {ds : List Int} (h : ∀ d ∈ ds, -9 ≤ d ∧ d ≤ 9) :
    (topDigit ds < 0 ↔ digitsValue ds < 0) ∧ (topDigit ds = 0 ↔ digitsValue ds = 0) := by
  induction ds with
  | nil => simp [topDigit]
  | cons d ds ih =>
    obtain ⟨hd, hds⟩ := List.forall_mem_cons.1 h
    have := ih hds
    rw [topDigit, digitsValue_cons]
    split_ifs <;> omega

theorem rawNegative_eq {u : List Int} (h : ∀ d ∈ u, -9 ≤ d ∧ d ≤ 9) :
    rawNegative u = decide (digitsValue u < 0) := by
  simp only [rawNegative, (topDigit_sign h).1]

@[simp] theorem length_borrowPass (c : Int) (ds : List Int) : (borrowPass c ds).length = ds.length := by
  induction ds generalizing c with
  | nil => rfl
  | cons d ds ih => simp [borrowPass, ih]

theorem mem_borrowPass {c d : Int} {ds : List Int} (h : d ∈ borrowPass c ds) : 0 ≤ d ∧ d ≤ 9 := by
  induction ds generalizing c with
  | nil => cases h
  | cons e ds ih =>
    rcases List.mem_cons.1 h with rfl | h
    · rw [fmod_ten]
      omega
    · exact ih h

/-- The borrow pass computes the value with its incoming carry, dropping the carry out of the top. -/
theorem digitsValue_borrowPass (c : Int) (ds : List Int) :
    digitsValue (borrowPass c ds) = (c + digitsValue ds) % 10 ^ ds.length := by
  induction ds generalizing c with
  | nil => simp [borrowPass]
  | cons d ds ih =>
    have hsplit : c + (d + 10 * digitsValue ds) = (d + c) % 10 + 10 * ((d + c) / 10 + digitsValue ds) := by
      omega
    rw [borrowPass, digitsValue_cons, ih, fmod_ten, fdiv_ten, digitsValue_cons, hsplit, List.length_cons, pow_succ,
      add_ten_mul_emod (by omega) (by omega) (by positivity)]

@[simp] theorem length_phase2 (u : List Int) : (phase2 u).length = u.length := by
  unfold phase2
  split_ifs <;> simp

/-- R132: phase 2 leaves decimal digits. -/
theorem phase2_digits (u : List Int) : ∀ d ∈ phase2 u, 0 ≤ d ∧ d ≤ 9 := fun _ hd => mem_borrowPass hd

/-- R132: phase 2 leaves the magnitude of the value. -/
theorem digitsValue_phase2 {u : List Int} (h : ∀ d ∈ u, -9 ≤ d ∧ d ≤ 9) :
    digitsValue (phase2 u) = |digitsValue u| := by
  have habs : digitsValue (if rawNegative u then u.map fun d => -d else u) = |digitsValue u| := by
    rw [rawNegative_eq h]
    by_cases hneg : digitsValue u < 0
    · simp [hneg, digitsValue_map_neg, abs_of_neg hneg]
    · simp [hneg, abs_of_nonneg (not_lt.1 hneg)]
  have hlen : (if rawNegative u then u.map fun d => -d else u).length = u.length := by split_ifs <;> simp
  rw [phase2, digitsValue_borrowPass, habs, hlen, zero_add]
  exact Int.emod_eq_of_lt (abs_nonneg _) (abs_digitsValue_lt_pow h)

theorem borrowPass_of_digits {ds : List Int} (h : ∀ d ∈ ds, 0 ≤ d ∧ d ≤ 9) : borrowPass 0 ds = ds := by
  induction ds with
  | nil => rfl
  | cons d ds ih =>
    obtain ⟨hd, hds⟩ := List.forall_mem_cons.1 h
    have hq : Int.fdiv (d + 0) 10 = 0 := by rw [fdiv_ten]; omega
    have hr : Int.fmod (d + 0) 10 = d := by rw [fmod_ten]; omega
    rw [borrowPass, hq, hr, ih hds]

theorem rawNegative_of_digits {ds : List Int} (h : ∀ d ∈ ds, 0 ≤ d ∧ d ≤ 9) : rawNegative ds = false := by
  have hval := digitsValue_nonneg fun d hd => (h d hd).1
  rw [rawNegative_eq fun d hd => ⟨by have := h d hd; omega, (h d hd).2⟩]
  simpa using hval

/-- Phase 2 leaves decimal digits as they are. -/
theorem phase2_of_digits {ds : List Int} (h : ∀ d ∈ ds, 0 ≤ d ∧ d ≤ 9) : phase2 ds = ds := by
  rw [phase2, rawNegative_of_digits h]
  exact borrowPass_of_digits h

/-! ### The significant length (R130, R133) -/

theorem significant_le_length (ds : List Int) : significant ds ≤ ds.length := by
  induction ds with
  | nil => exact le_rfl
  | cons d ds ih =>
    rw [significant, List.length_cons]
    split_ifs <;> omega

/-- Above the significant digits there are only zeros. -/
theorem drop_significant (ds : List Int) :
    ds.drop (significant ds) = List.replicate (ds.length - significant ds) 0 := by
  induction ds with
  | nil => rfl
  | cons d ds ih =>
    rw [significant]
    split_ifs with hs hd
    · rw [hs, List.drop_zero, Nat.sub_zero] at ih
      rw [List.drop_zero, hd, ih, List.length_cons, Nat.sub_zero, List.replicate_succ, List.length_replicate]
    · rw [hs, List.drop_zero, Nat.sub_zero] at ih
      rw [List.drop_succ_cons, List.drop_zero, List.length_cons, Nat.add_sub_cancel]
      exact ih
    · simpa using ih

/-- Below the significant length stands a nonzero digit. -/
theorem getD_significant_ne_zero {ds : List Int} (h : significant ds ≠ 0) :
    ds.getD (significant ds - 1) 0 ≠ 0 := by
  induction ds with
  | nil => exact absurd rfl h
  | cons d ds ih =>
    rw [significant] at h ⊢
    split_ifs at h ⊢ with hs hd
    · exact absurd rfl h
    · simpa using hd
    · obtain ⟨n, hn⟩ := Nat.exists_eq_succ_of_ne_zero hs
      simpa [hn] using ih hs

theorem significant_eq_zero_iff {ds : List Int} : significant ds = 0 ↔ ∀ d ∈ ds, d = 0 := by
  constructor
  · intro h
    have hdrop := drop_significant ds
    rw [h, List.drop_zero, Nat.sub_zero] at hdrop
    exact fun d hd => List.eq_of_mem_replicate (hdrop ▸ hd)
  · intro h
    by_contra hs
    have hlt : significant ds - 1 < ds.length := by
      have := significant_le_length ds
      omega
    apply getD_significant_ne_zero hs
    rw [List.getD_eq_getElem _ _ hlt]
    exact h _ (List.getElem_mem hlt)

theorem getD_of_significant_le {ds : List Int} {i : Nat} (h : significant ds ≤ i) : ds.getD i 0 = 0 := by
  obtain ⟨j, rfl⟩ := Nat.exists_eq_add_of_le h
  have hdrop := congrArg (·.getD j 0) (drop_significant ds)
  simpa only [List.getD_eq_getElem?_getD, List.getElem?_drop, List.getElem?_getD_replicate_default_eq]
    using hdrop

theorem one_le_sigLength (ds : List Int) : 1 ≤ sigLength ds := le_max_left ..

theorem sigLength_le_length {ds : List Int} (h : ds ≠ []) : sigLength ds ≤ ds.length :=
  max_le (List.length_pos_of_ne_nil h) (significant_le_length ds)

/-- `sigLength` is the significant length of R130. -/
theorem isSigLength_sigLength (ds : List Int) : IsSigLength ds (sigLength ds) := by
  by_cases hs : significant ds = 0
  · exact .inl ⟨significant_eq_zero_iff.1 hs, by simp [sigLength, hs]⟩
  · have heq : sigLength ds = significant ds := max_eq_right (Nat.one_le_iff_ne_zero.2 hs)
    rw [heq]
    exact .inr ⟨Nat.one_le_iff_ne_zero.2 hs, significant_le_length ds, getD_significant_ne_zero hs,
      fun i hi => getD_of_significant_le hi⟩

theorem IsSigLength.unique {ds : List Int} {a b : Nat} (ha : IsSigLength ds a) (hb : IsSigLength ds b) : a = b := by
  have hzero : (∀ d ∈ ds, d = 0) → ∀ n, ds.getD n 0 = 0 := fun h n =>
    getD_of_significant_le (by rw [significant_eq_zero_iff.2 h]; exact Nat.zero_le n)
  rcases ha with ⟨hz, rfl⟩ | ⟨ha1, -, ha, ha'⟩ <;> rcases hb with ⟨hz', rfl⟩ | ⟨hb1, -, hb, hb'⟩
  · rfl
  · exact absurd (hzero hz _) hb
  · exact absurd (hzero hz' _) ha
  · by_contra hne
    rcases Nat.lt_or_gt_of_ne hne with hlt | hlt
    · exact hb (ha' _ (by omega))
    · exact ha (hb' _ (by omega))

theorem isNextPow2_nextPow2 (x : Nat) : IsNextPow2 x (nextPow2 x) :=
  ⟨⟨_, rfl⟩, le_nextPow2 x, fun _ h => nextPow2_le h⟩

theorem IsNextPow2.unique {x y z : Nat} (hy : IsNextPow2 x y) (hz : IsNextPow2 x z) : y = z := by
  obtain ⟨⟨i, rfl⟩, hxi, hi⟩ := hy
  obtain ⟨⟨j, rfl⟩, hxj, hj⟩ := hz
  exact le_antisymm (hi j hxj) (hj i hxi)

/-! ### Trimming and padding (R133, R135) -/

/-- The significant digits of `p`, padded with zeros to the length `n`. -/
def padTo (p : List Int) (n : Nat) : List Int :=
  p.take (sigLength p) ++ List.replicate (n - sigLength p) 0

theorem length_padTo {p : List Int} {n : Nat} (hp : p ≠ []) (hn : sigLength p ≤ n) : (padTo p n).length = n := by
  have := sigLength_le_length hp
  rw [padTo, List.length_append, List.length_take, List.length_replicate]
  omega

/-- Trimming and padding change no digit at any index. -/
theorem getD_padTo (p : List Int) (n i : Nat) : (padTo p n).getD i 0 = p.getD i 0 := by
  by_cases hi : i < (p.take (sigLength p)).length
  · rw [padTo, List.getD_append _ _ _ _ hi]
    simp only [List.length_take, lt_min_iff] at hi
    simp [List.getD_eq_getElem?_getD, hi.1]
  · have hp : p.getD i 0 = 0 := by
      by_cases hlen : i < p.length
      · refine getD_of_significant_le ?_
        have : significant p ≤ sigLength p := le_max_right ..
        simp only [List.length_take] at hi
        omega
      · exact List.getD_eq_default _ _ (by omega)
    rw [hp, padTo, List.getD_append_right _ _ _ _ (by omega)]
    rw [List.getD_eq_getElem?_getD, List.getElem?_getD_replicate_default_eq]

theorem mem_padTo {p : List Int} {n : Nat} {d : Int} (h : d ∈ padTo p n) : d ∈ p ∨ d = 0 := by
  rcases List.mem_append.1 h with h | h
  · exact .inl (List.mem_of_mem_take h)
  · exact .inr (List.eq_of_mem_replicate h)

/-- Padding a list to the length it has gives it back, since above its significant digits it is zero. -/
theorem padTo_length {p : List Int} (hp : p ≠ []) : padTo p p.length = p := by
  have hlen := length_padTo hp (sigLength_le_length hp)
  refine List.ext_getElem hlen fun i h1 h2 => ?_
  rw [← List.getD_eq_getElem _ 0 h1, getD_padTo, List.getD_eq_getElem _ 0 h2]

theorem digitsValue_padTo {p : List Int} (hp : p ≠ []) (n : Nat) : digitsValue (padTo p n) = digitsValue p := by
  conv_rhs => rw [← padTo_length hp]
  simp [padTo, digitsValue_append]

theorem isSigLength_padTo {p : List Int} {n ls : Nat} (hp : p ≠ []) (hn : sigLength p ≤ n)
    (h : IsSigLength p ls) : IsSigLength (padTo p n) ls := by
  have hls := h.unique (isSigLength_sigLength p)
  rcases h with ⟨hz, h1⟩ | ⟨h1, -, hne, hz⟩
  · exact .inl ⟨fun d hd => (mem_padTo hd).elim (hz d) id, h1⟩
  · exact .inr ⟨h1, by rw [length_padTo hp hn]; omega, by rwa [getD_padTo],
      fun i hi => by rw [getD_padTo]; exact hz i hi⟩

end Sys2Proof.Machine
end

section
/-! PROOF. What the commit of NORM writes and leaves alone, and the settled statements (R130 to R138). -/

namespace Sys2Proof.Machine

/-! ### Digits of a state -/

/-- A digit is the stored word read as a signed number (R41). -/
theorem State.digitWord_of_digit {s : State} {k : BufIx} {i : Nat} {d : Int} (h : s.digit k i = some d) :
    s.digitWord k i = some (BitVec.ofInt 64 d) := by
  obtain ⟨w, hw, rfl⟩ := Option.map_eq_some_iff.1 h
  rw [BitVec.ofInt_toInt]
  exact hw

/-- A written `int64` digit reads back as itself. -/
theorem State.digit_writeDigits {s : State} {k : BufIx} {ds : List Int} {i : Nat} {d : Int} (h : ds[i]? = some d)
    (hd : inInt64 d = true) : (s.writeDigits k ds).digit k i = some d := by
  have hround : (BitVec.ofInt 64 d).toInt = d := by
    simp only [inInt64, decide_eq_true_eq] at hd
    rw [BitVec.toInt_ofInt]
    exact Int.bmod_eq_of_le (by omega) (by omega)
  change Option.map BitVec.toInt ((s.writeDigits k ds).digitWord k i) = some d
  rw [State.digitWord_writeDigits h, Option.map_some, hround]

/-- Memories in which the same word is readable at `a` agree on its bytes. -/
theorem Memory.read_eq_of_readWord {m n : Memory} {a b : Nat} {w : Word} (hm : m.readWord a = some w)
    (hn : n.readWord a = some w) (hb : a ≤ b ∧ b < a + 8) : m.read b = n.read b := by
  have hslice := congrArg (Memory.read · b) ((Memory.readWord_some hm).trans (Memory.readWord_some hn).symm)
  simpa [Memory.read_slice, hb] using hslice

/-- Writing the digits a buffer holds changes no byte. -/
theorem State.sameMemory_writeDigits_digits {s : State} {k : BufIx} {n : Nat} {ds : List Int}
    (h : s.digits k n = some ds) : SameMemory s (s.writeDigits k ds) := by
  intro b
  by_cases hb : digitAddr k 0 ≤ b ∧ b < digitAddr k 0 + 8 * ds.length
  · have hi : (b - digitAddr k 0) / 8 < ds.length := by omega
    have hs := State.digitWord_of_digit ((State.digits_eq_some_iff.1 h).2 _ hi)
    have hw := State.digitWord_writeDigits (s := s) (k := k) (List.getElem?_eq_getElem hi)
    refine Memory.read_eq_of_readWord hw hs ?_
    rw [← digitAddr_add]
    omega
  · exact State.read_writeDigits_outside (by omega)

/-! ### The commit (R133, R135) -/

section
variable {x : BufIx} {p : List Int} {neg : Bool} {s : State}

/-- The commit writes the significant digits of phase 2, padded over the new length and the scratch array. -/
theorem commitNorm_eq : commitNorm x p neg s =
    ((s.writeDigits x (padTo p (max (nextPow2 (sigLength p)) p.length))).setLen x (nextPow2 (sigLength p))).setSign x
      (normSign (decide (significant p = 0)) (s.sign x) neg) := rfl

theorem sign_commitNorm :
    (commitNorm x p neg s).sign x = normSign (decide (significant p = 0)) (s.sign x) neg := by
  rw [commitNorm_eq, State.sign_setSign, if_pos rfl]

theorem len_commitNorm (h : nextPow2 (sigLength p) < 2 ^ 32) :
    (commitNorm x p neg s).len x = nextPow2 (sigLength p) := by
  rw [commitNorm_eq, State.len_setSign, State.len_setLen, if_pos rfl, Nat.mod_eq_of_lt h]

/-- The commit leaves every other DLEN and DSIGN alone. -/
theorem sameOtherLengths_commitNorm : SameOtherLengths s (commitNorm x p neg s) x := by
  intro k hk
  rw [commitNorm_eq, State.len_setSign, State.len_setLen, State.sign_setSign, if_neg hk.symm, if_neg hk.symm]
  exact ⟨rfl, rfl⟩

/-- The commit leaves every byte past the padding, and of every other buffer, alone. -/
theorem sameOutside_commitNorm (hp : p ≠ []) :
    SameOutside s (commitNorm x p neg s) (digitAddr x 0) (8 * max (nextPow2 (sigLength p)) p.length) := by
  intro b hb
  refine State.read_writeDigits_outside (ds := padTo p (max (nextPow2 (sigLength p)) p.length)) ?_
  rwa [length_padTo hp ((le_nextPow2 _).trans (le_max_left ..))]

/-- Over the whole written range the buffer holds the digits of phase 2, zeros above them. -/
theorem digit_commitNorm {i : Nat} (hp : p ≠ []) (hdigits : ∀ d ∈ p, 0 ≤ d ∧ d ≤ 9)
    (hi : i < max (nextPow2 (sigLength p)) p.length) :
    (commitNorm x p neg s).digit x i = some (p.getD i 0) := by
  have hlen := length_padTo hp ((le_nextPow2 (sigLength p)).trans (le_max_left _ p.length))
  have hget : (padTo p (max (nextPow2 (sigLength p)) p.length))[i]? = some (p.getD i 0) := by
    rw [← hlen] at hi
    rw [← getD_padTo p (max (nextPow2 (sigLength p)) p.length), List.getD_eq_getElem _ 0 hi,
      List.getElem?_eq_getElem hi]
  have hd : 0 ≤ p.getD i 0 ∧ p.getD i 0 ≤ 9 := by
    rcases mem_padTo (List.mem_of_getElem? hget) with h | h
    · exact hdigits _ h
    · omega
  exact State.digit_writeDigits hget (decide_eq_true (by omega))

/-- Up to its new length the buffer holds the significant digits of phase 2, padded with zeros. -/
theorem digits_commitNorm (hp : p ≠ []) (hdigits : ∀ d ∈ p, 0 ≤ d ∧ d ≤ 9) :
    (commitNorm x p neg s).digits x (nextPow2 (sigLength p)) = some (padTo p (nextPow2 (sigLength p))) := by
  refine State.digits_eq_some_iff.2 ⟨length_padTo hp (le_nextPow2 _), fun i hi => ?_⟩
  rw [length_padTo hp (le_nextPow2 _)] at hi
  rw [digit_commitNorm hp hdigits (lt_max_of_lt_left hi), ← getD_padTo p (nextPow2 (sigLength p)),
    List.getD_eq_getElem]

/-- The commit leaves a canonical buffer (R130). -/
theorem canonical_commitNorm (hp : p ≠ []) (hdigits : ∀ d ∈ p, 0 ≤ d ∧ d ≤ 9)
    (hcap : nextPow2 (sigLength p) ≤ s.cfg.nMax) (hlt : nextPow2 (sigLength p) < 2 ^ 32) :
    (commitNorm x p neg s).canonical x := by
  have hls := le_nextPow2 (sigLength p)
  unfold State.canonical
  rw [len_commitNorm hlt, sign_commitNorm]
  refine ⟨_, digits_commitNorm hp hdigits, ⟨_, rfl⟩, (one_le_sigLength p).trans hls, hcap, ?_,
    ⟨_, isSigLength_padTo hp hls (isSigLength_sigLength p), isNextPow2_nextPow2 _⟩, fun hzero => ?_⟩
  · intro d hd
    rcases mem_padTo hd with hd | rfl
    · exact hdigits d hd
    · decide
  · have hpadded : ∀ d ∈ padTo p (nextPow2 (sigLength p)), 0 ≤ d := fun d hd => (hzero d hd).ge
    have hval : digitsValue p = 0 := by
      rw [← digitsValue_padTo hp, (digitsValue_eq_zero_iff hpadded).2 hzero]
    have hsig : significant p = 0 :=
      significant_eq_zero_iff.2 ((digitsValue_eq_zero_iff fun d hd => (hdigits d hd).1).1 hval)
    simp [normSign, hsig]

/-- The value the commit leaves is that of the digits of phase 2 under the sign of R134. -/
theorem value_commitNorm (hp : p ≠ []) (hdigits : ∀ d ∈ p, 0 ≤ d ∧ d ≤ 9) (hlt : nextPow2 (sigLength p) < 2 ^ 32) :
    (commitNorm x p neg s).value x =
      some (if (commitNorm x p neg s).sign x then -digitsValue p else digitsValue p) := by
  rw [State.value, len_commitNorm hlt, digits_commitNorm hp hdigits, Option.map_some, digitsValue_padTo hp]

end

/-! ### A NORM without error -/

theorem normInput_ne_nil (ds : List Int) : normInput ds ≠ [] := by
  unfold normInput
  split_ifs with h
  · simp
  · exact h

theorem digitsValue_normInput (ds : List Int) : digitsValue (normInput ds) = digitsValue ds := by
  unfold normInput
  split_ifs with h <;> simp [h]

/-- What phase 1 hands to phase 2 is not empty and fits the buffer. -/
theorem phase1_normInput_length {nMax : Nat} {ds u : List Int} (hpos : 0 < nMax) (hlen : ds.length ≤ nMax)
    (h : phase1 nMax (normInput ds) = .ok u) : u ≠ [] ∧ u.length ≤ nMax := by
  obtain ⟨-, -, hle, -, hmax⟩ := phase1_eq_ok (normInput_ne_nil ds) h
  have hin : (normInput ds).length ≤ nMax := by
    unfold normInput
    split_ifs
    · exact hpos
    · exact hlen
  have hone := List.length_pos_of_ne_nil (normInput_ne_nil ds)
  exact ⟨List.ne_nil_of_length_pos (by omega), by omega⟩

/-- A NORM without error commits the digits of phase 2, a nonempty list whose padded length fits the buffer. -/
theorem exec_norm_ok {x : BufIx} {s t : State} (h : exec (.norm x) s = .next t) (herr : t.err = .none) :
    ∃ ds u, s.digits x (s.len x) = some ds ∧ phase1 s.cfg.nMax (normInput ds) = .ok u ∧ phase2 u ≠ [] ∧
      nextPow2 (sigLength (phase2 u)) ≤ s.cfg.nMax ∧
      t = (commitNorm x (phase2 u) (rawNegative u) s).complete .none := by
  rcases CmdResult.finish_eq_next_iff.1 h with ⟨r, hr, rfl⟩ | ⟨e, r, hr, rfl⟩
  · obtain ⟨hlen, ds, u, hds, hu, rfl⟩ := cmdNorm_ok hr
    rw [← (State.digits_eq_some_iff.1 hds).1] at hlen
    obtain ⟨hne, hfit⟩ := phase1_normInput_length (Nat.two_pow_pos _) hlen hu
    have hp : phase2 u ≠ [] := by simpa [← List.length_eq_zero_iff] using hne
    have hcap : nextPow2 (sigLength (phase2 u)) ≤ s.cfg.nMax :=
      nextPow2_le ((sigLength_le_length hp).trans (by rwa [length_phase2]))
    exact ⟨ds, u, hds, hu, hp, hcap, rfl⟩
  · obtain ⟨-, ⟨rfl, -⟩ | ⟨-, -, ⟨rfl, -⟩ | ⟨rfl, -⟩⟩⟩ := cmdNorm_error hr <;> cases herr

theorem nMax_lt_two_pow {cfg : Params} (h : cfg.log2Nmax ≤ 23) : cfg.nMax < 2 ^ 32 :=
  Nat.pow_lt_pow_right (by decide) (by omega)

/-- The sign NORM leaves, by the value of the raw digits (R134). -/
theorem normSign_phase2 {u : List Int} (h : ∀ d ∈ u, -9 ≤ d ∧ d ≤ 9) (old : Bool) :
    normSign (decide (significant (phase2 u) = 0)) old (rawNegative u) =
      if digitsValue u = 0 then false else old ^^ decide (digitsValue u < 0) := by
  have hzero : significant (phase2 u) = 0 ↔ digitsValue u = 0 := by
    rw [significant_eq_zero_iff, ← digitsValue_eq_zero_iff fun d hd => (phase2_digits u d hd).1, digitsValue_phase2 h,
      abs_eq_zero]
  simp only [normSign, rawNegative_eq h, hzero, decide_eq_true_eq]

/-- A magnitude under the sign of R134 is the signed value it came from. -/
theorem signed_abs (old : Bool) (v : Int) :
    (if (if v = 0 then false else old ^^ decide (v < 0)) = true then -|v| else |v|) = if old then -v else v := by
  rcases lt_trichotomy v 0 with hv | rfl | hv
  · cases old <;> simp [hv, hv.ne, abs_of_neg]
  · simp
  · cases old <;> simp [hv.ne', hv.not_gt, abs_of_pos hv]

/-- Settles O30: the commit leaves a canonical buffer (R130); phase 1 keeps the value and phase 2 its magnitude, so
the sign rule restores the represented value (R134). -/
theorem normLeavesCanonicalSameValue : Obligations.NormLeavesCanonicalSameValue := by
  intro x s t hcfg h herr
  obtain ⟨ds, u, hds, hu, hp, hcap, rfl⟩ := exec_norm_ok h herr
  obtain ⟨hu9, hval, -, -, -⟩ := phase1_eq_ok (normInput_ne_nil ds) hu
  rw [digitsValue_normInput] at hval
  have hsign : (commitNorm x (phase2 u) (rawNegative u) s).sign x =
      if digitsValue ds = 0 then false else s.sign x ^^ decide (digitsValue ds < 0) := by
    rw [sign_commitNorm, normSign_phase2 hu9, hval]
  have hlt := hcap.trans_lt (nMax_lt_two_pow hcfg)
  refine ⟨canonical_commitNorm hp (phase2_digits u) hcap hlt,
    ⟨if s.sign x then -digitsValue ds else digitsValue ds, ?_, ?_⟩, fun ds' hds' => ?_⟩
  · simp [State.value, hds]
  · change (commitNorm x (phase2 u) (rawNegative u) s).value x = _
    rw [value_commitNorm hp (phase2_digits u) hlt, hsign, digitsValue_phase2 hu9, hval, signed_abs]
  · cases hds.symm.trans hds'
    exact hsign

/-- Settles O32: the writes of the commit, read back entry by entry. -/
theorem normLengthAndPadding : Obligations.NormLengthAndPadding := by
  intro x s t ds u hcfg h herr hds hu
  obtain ⟨ds', u', hds', hu', hp, hcap, rfl⟩ := exec_norm_ok h herr
  cases hds.symm.trans hds'
  cases hu.symm.trans hu'
  have hlen : ((commitNorm x (phase2 u) (rawNegative u) s).complete .none).len x =
      nextPow2 (sigLength (phase2 u)) :=
    len_commitNorm (neg := rawNegative u) (hcap.trans_lt (nMax_lt_two_pow hcfg))
  have hdigit : ∀ i, i < max (nextPow2 (sigLength (phase2 u))) (phase2 u).length →
      ((commitNorm x (phase2 u) (rawNegative u) s).complete .none).digit x i = some ((phase2 u).getD i 0) :=
    fun i hi => digit_commitNorm (neg := rawNegative u) hp (phase2_digits u) hi
  have hls := le_nextPow2 (sigLength (phase2 u))
  rw [hlen, ← length_phase2 u]
  refine ⟨⟨_, isSigLength_sigLength _, isNextPow2_nextPow2 _, fun i hi => hdigit i ?_, fun i hi hmax => ?_⟩,
    (one_le_sigLength _).trans hls, hcap, sameOtherLengths_commitNorm (neg := rawNegative u),
    sameOutside_commitNorm (neg := rawNegative u) hp⟩
  · exact lt_max_of_lt_left (hi.trans_le hls)
  · rw [hdigit i hmax, getD_of_significant_le ((le_max_right ..).trans hi)]

/-! ### A canonical buffer (R137, R138) -/

theorem cmdNorm_of_phase1 {x : BufIx} {s : State} {ds u : List Int} (hlen : s.len x ≤ s.cfg.nMax)
    (hds : s.digits x (s.len x) = some ds) (hu : phase1 s.cfg.nMax (normInput ds) = .ok u) :
    cmdNorm x s = .ok (commitNorm x (phase2 u) (rawNegative u) s) := by
  simp only [cmdNorm, if_neg (not_lt.2 hlen), hds, hu]

theorem State.setLen_len (s : State) (k : BufIx) : s.setLen k (s.len k) = s := by
  simp [State.setLen, State.len]

theorem State.setSign_sign (s : State) (k : BufIx) : s.setSign k (s.sign k) = s := by
  simp [State.setSign, State.sign]

/-- R137: NORM of a canonical buffer writes the digits, the length and the sign it finds. -/
theorem cmdNorm_of_canonical {x : BufIx} {s : State} (h : s.canonical x) :
    ∃ ds, s.digits x (s.len x) = some ds ∧ cmdNorm x s = .ok (s.writeDigits x ds) := by
  obtain ⟨ds, hds, -, hone, hle, hdigits, ⟨ls, hls, hnext⟩, hsign⟩ := h
  refine ⟨ds, hds, ?_⟩
  have hlen := (State.digits_eq_some_iff.1 hds).1
  have hne : ds ≠ [] := List.ne_nil_of_length_pos (by omega)
  have hphase1 : phase1 s.cfg.nMax (normInput ds) = .ok ds := by
    rw [normInput, if_neg hne]
    exact phase1_of_digits hne fun d hd => ⟨by have := hdigits d hd; omega, (hdigits d hd).2⟩
  have hcap : nextPow2 (sigLength ds) = s.len x := by
    rw [← hls.unique (isSigLength_sigLength ds)]
    exact (isNextPow2_nextPow2 ls).unique hnext
  have hnorm : normSign (decide (significant ds = 0)) (s.sign x) false = s.sign x := by
    rw [normSign, Bool.xor_false]
    split_ifs with hz
    · exact (hsign (significant_eq_zero_iff.1 (of_decide_eq_true hz))).symm
    · rfl
  have hpad : padTo ds (max (s.len x) ds.length) = ds := by rw [← hlen, max_self, padTo_length hne]
  have hsetLen : (s.writeDigits x ds).setLen x (s.len x) = s.writeDigits x ds := State.setLen_len ..
  have hsetSign : (s.writeDigits x ds).setSign x (s.sign x) = s.writeDigits x ds := State.setSign_sign ..
  rw [cmdNorm_of_phase1 hle hds hphase1, phase2_of_digits hdigits, rawNegative_of_digits hdigits, commitNorm_eq,
    hnorm, hcap, hpad, hsetLen, hsetSign]

/-- Settles O33: the first NORM leaves a canonical buffer, and a canonical buffer passes NORM unchanged. -/
theorem normIsIdempotent : Obligations.NormIsIdempotent := by
  intro x s t hcfg h herr
  obtain ⟨hcanonical, -, -⟩ := normLeavesCanonicalSameValue x s t hcfg h herr
  obtain ⟨ds, hds, hcmd⟩ := cmdNorm_of_canonical hcanonical
  refine ⟨(t.writeDigits x ds).complete .none, CmdResult.finish_eq_next_iff.2 (.inl ⟨_, hcmd, rfl⟩), rfl, ?_, rfl, rfl⟩
  exact State.sameMemory_writeDigits_digits hds

end Sys2Proof.Machine
end

section
/-! PROOF. Residue arithmetic and the modular root table (spec/41_transform.md R163, R165). -/

namespace Sys2Proof.Machine

/-- Fermat: `NINV(n)` is the inverse of `n` (R165). -/
theorem mul_ninv {p : Params} (hp : p.Legal) {n : Nat} (h : ¬p.nttP ∣ n) :
    n * (n ^ (p.nttP - 2) % p.nttP) % p.nttP = 1 := by
  have h2 := hp.two_lt
  have hfermat : n ^ (p.nttP - 1) % p.nttP = 1 := by
    have h := Nat.ModEq.pow_totient ((Nat.Prime.coprime_iff_not_dvd hp.prime).2 h).symm
    rwa [Nat.totient_prime hp.prime, Nat.ModEq, Nat.mod_eq_of_lt (a := 1) (by omega)] at h
  have hexp : p.nttP - 2 + 1 = p.nttP - 1 := by omega
  rw [Nat.mul_mod_mod, ← pow_succ', hexp, hfermat]

/-- Settles O24: the primitives are their definitions, and `NINV` is Fermat's inverse. -/
theorem modularPrimitivesAreResidueArithmetic : Obligations.ModularPrimitivesAreResidueArithmetic := by
  intro p x y n hp hx hy
  have hscale : scaleElem p .m x n = elemOfResidue (x.residue * (n ^ (p.nttP - 2) % p.nttP) % p.nttP) := by
    rw [scaleElem, mulMod, invMod_eq]
  refine ⟨rfl, rfl, rfl, rfl, hscale, ?_, fun h0 hn => mul_ninv hp (Nat.not_dvd_of_pos_of_lt h0 hn)⟩
  have hlt := hp.lt_pow
  calc x.residue * y.residue < 2 ^ 32 * 2 ^ 32 := Nat.mul_lt_mul'' (by omega) (by omega)
    _ = 2 ^ 64 := by rw [← pow_add]

theorem two_pow_twosFuel_dvd (fuel n : Nat) : 2 ^ twosFuel fuel n ∣ n := by
  induction fuel generalizing n with
  | zero => exact one_dvd n
  | succ fuel ih =>
    unfold twosFuel
    split_ifs with h0 h2
    · exact one_dvd n
    · rw [pow_succ]
      exact (Nat.mul_dvd_mul_right (ih _) 2).trans (Nat.div_mul_cancel (Nat.dvd_of_mod_eq_zero h2)).dvd
    · exact one_dvd n

theorem two_pow_dvd_of_le_nttLog2Max {p : Params} {j : Nat} (h : j ≤ nttLog2Max p) : 2 ^ j ∣ p.nttP - 1 :=
  (pow_dvd_pow 2 h).trans (two_pow_twosFuel_dvd _ _)

theorem rootModular_fwd (p : Params) (j : Nat) :
    rootModular p .fwd j = p.nttG ^ ((p.nttP - 1) / 2 ^ j) % p.nttP := powMod_eq ..

theorem rootModular_inv (p : Params) (j : Nat) :
    rootModular p .inv j = rootModular p .fwd j ^ (p.nttP - 2) % p.nttP := powMod_eq ..

section
variable {p : Params} {j : Nat} (hj1 : 1 ≤ j) (hj : j ≤ nttLog2Max p)
include hj1 hj

/-- `NTT_P - 1` splits into the level, its half and the exponent of the level's root. -/
theorem exists_level_split : ∃ i c, j = i + 1 ∧ p.nttP - 1 = 2 ^ i * (2 * c) ∧
    rootModular p .fwd j = p.nttG ^ c % p.nttP := by
  obtain ⟨c, hc⟩ := two_pow_dvd_of_le_nttLog2Max hj
  have hj' : j = j - 1 + 1 := by omega
  refine ⟨j - 1, c, hj', ?_, ?_⟩
  · rw [hc, ← mul_assoc, ← pow_succ, ← hj']
  · rw [rootModular_fwd, hc, Nat.mul_div_cancel_left _ (Nat.two_pow_pos j)]

/-- The root of the level below is the square of the level's root, in both directions (R163). -/
theorem rootModular_pred (dir : Dir) : rootModular p dir (j - 1) = rootModular p dir j ^ 2 % p.nttP := by
  have hfwd : rootModular p .fwd (j - 1) = rootModular p .fwd j ^ 2 % p.nttP := by
    obtain ⟨i, c, rfl, hc, hroot⟩ := exists_level_split hj1 hj
    rw [hroot, rootModular_fwd, hc, Nat.add_sub_cancel, Nat.mul_div_cancel_left _ (Nat.two_pow_pos i), ← Nat.pow_mod,
      ← pow_mul, mul_comm c]
  cases dir with
  | fwd => exact hfwd
  | inv => rw [rootModular_inv, rootModular_inv, hfwd, ← Nat.pow_mod, ← Nat.pow_mod, pow_right_comm]

variable (hp : p.Legal)
include hp

/-- `r^(2^(j-1)) = NTT_G^((NTT_P-1)/2) = -1`, so the order of `r` divides `2^j` and no smaller power of two (R163). -/
theorem orderOf_rootModular : orderOf ((rootModular p .fwd j : ℕ) : ZMod p.nttP) = 2 ^ j := by
  have h2 := hp.two_lt
  have : Fact (2 < p.nttP) := ⟨h2⟩
  obtain ⟨i, c, rfl, hc, hroot⟩ := exists_level_split hj1 hj
  have hgenerator : (p.nttG : ZMod p.nttP) ^ ((p.nttP - 1) / 2) = -1 := by
    have h := congrArg (Nat.cast (R := ZMod p.nttP)) hp.generator
    rwa [ZMod.natCast_mod, Nat.cast_pow, Nat.cast_sub (by omega), ZMod.natCast_self, zero_sub, Nat.cast_one] at h
  have hhalf : (p.nttP - 1) / 2 = c * 2 ^ i := by
    rw [hc, mul_left_comm, Nat.mul_div_cancel_left _ two_pos, mul_comm]
  have hpow : ((rootModular p .fwd (i + 1) : ℕ) : ZMod p.nttP) ^ 2 ^ i = -1 := by
    rw [hroot, ZMod.natCast_mod, Nat.cast_pow, ← pow_mul, ← hhalf, hgenerator]
  refine orderOf_eq_prime_pow ?_ ?_
  · rw [hpow]
    exact ZMod.neg_one_ne_one
  · rw [pow_succ, pow_mul, hpow, neg_one_sq]

/-- A root of unity is no multiple of `NTT_P`, so its `NINV` is its inverse (R163). -/
theorem rootModular_mul_inv : rootModular p .fwd j * rootModular p .inv j % p.nttP = 1 := by
  rw [rootModular_inv]
  refine mul_ninv hp fun hdvd => ?_
  have : Fact p.nttP.Prime := ⟨hp.prime⟩
  have hone := pow_orderOf_eq_one ((rootModular p .fwd j : ℕ) : ZMod p.nttP)
  rw [orderOf_rootModular hj1 hj hp, (ZMod.natCast_eq_zero_iff _ _).2 hdvd, zero_pow (Nat.two_pow_pos j).ne'] at hone
  exact zero_ne_one hone

end

/-- Settles O22: repeated squaring gives the values; the order follows from the generator's condition of R7. -/
theorem modularRootsHaveExactOrder : Obligations.ModularRootsHaveExactOrder := by
  intro p j hp hj1 hj
  refine ⟨rootModular_fwd p j, rootModular_inv p j, rootModular_mul_inv hj1 hj hp, orderOf_rootModular hj1 hj hp,
    fun dir _ => rootModular_pred hj1 hj dir, ?_⟩
  rintro rfl
  decide +kernel

end Sys2Proof.Machine
end

section
/-! PROOF. What a rounded quotient of units is: the nearest binary64 value (spec/00_scope.md R13). -/

namespace Sys2Proof.Machine

/-! ### Magnitudes -/

/-- The units of `2^-1074` that the 63 bits of a finite magnitude stand for. -/
def magnitudeUnits (m : Nat) : Nat :=
  if m / 2 ^ 52 = 0 then m % 2 ^ 52 else (2 ^ 52 + m % 2 ^ 52) * 2 ^ (m / 2 ^ 52 - 1)

/-- The patterns of one binade, its upper end included, count the multiples of its unit. -/
theorem magnitudeUnits_scale {s k : Nat} (hlo : s = 0 ∨ 2 ^ 52 ≤ k) (hhi : k ≤ 2 ^ 53) :
    magnitudeUnits (s * 2 ^ 52 + k) = k * 2 ^ s := by
  unfold magnitudeUnits
  rcases Nat.lt_or_ge k (2 ^ 52) with hk | hk
  · obtain rfl : s = 0 := by omega
    rw [if_pos (by omega), Nat.mod_eq_of_lt (by omega)]
    simp
  · rw [if_neg (by omega)]
    rcases hhi.lt_or_eq with hlt | rfl
    · have he : (s * 2 ^ 52 + k) / 2 ^ 52 = s + 1 := by omega
      have hf : 2 ^ 52 + (s * 2 ^ 52 + k) % 2 ^ 52 = k := by omega
      rw [he, hf, Nat.add_sub_cancel]
    · have he : (s * 2 ^ 52 + 2 ^ 53) / 2 ^ 52 = s + 1 + 1 := by omega
      have hf : 2 ^ 52 + (s * 2 ^ 52 + 2 ^ 53) % 2 ^ 52 = 2 ^ 52 := by omega
      rw [he, hf, Nat.add_sub_cancel, pow_succ 2 s, pow_succ 2 52]
      ring

/-- Every magnitude lies in a binade. -/
theorem exists_scale (m : Nat) : ∃ s k, m = s * 2 ^ 52 + k ∧ (s = 0 ∨ 2 ^ 52 ≤ k) ∧ k < 2 ^ 53 := by
  by_cases h : m < 2 ^ 52
  · exact ⟨0, m, by omega, by omega, by omega⟩
  · exact ⟨m / 2 ^ 52 - 1, 2 ^ 52 + m % 2 ^ 52, by omega, by omega, by omega⟩

theorem magnitudeUnits_strictMono : StrictMono magnitudeUnits := by
  refine strictMono_nat_of_lt_succ fun m => ?_
  obtain ⟨s, k, rfl, hlo, hhi⟩ := exists_scale m
  rw [Nat.add_assoc, magnitudeUnits_scale hlo hhi.le, magnitudeUnits_scale (by omega) (by omega)]
  exact Nat.mul_lt_mul_of_pos_right (Nat.lt_succ_self k) (Nat.two_pow_pos s)

/-- The 63 bits below the sign. -/
def magnitude (w : Word) : Nat := w.toNat % 2 ^ 63

theorem isFiniteFloat_iff {w : Word} : isFiniteFloat w ↔ magnitude w < infMagnitude := by
  unfold isFiniteFloat magnitude infMagnitude
  omega

theorem floatSign_eq (w : Word) : floatSign w = decide (2 ^ 63 ≤ w.toNat) := by
  have := w.isLt
  rw [floatSign, BitVec.getLsbD, Nat.testBit_eq_decide_div_mod_eq]
  congr 1
  rw [eq_iff_iff]
  omega

theorem toNat_packMagnitude (neg : Bool) {m : Nat} (h : m < 2 ^ 63) :
    (packMagnitude neg m).toNat = (if neg then 2 ^ 63 else 0) + m := by
  rw [packMagnitude, BitVec.toNat_ofNat, Nat.mod_eq_of_lt]
  split_ifs <;> omega

theorem magnitude_packMagnitude (neg : Bool) {m : Nat} (h : m < 2 ^ 63) :
    magnitude (packMagnitude neg m) = m := by
  rw [magnitude, toNat_packMagnitude neg h]
  split_ifs <;> omega

theorem floatSign_packMagnitude (neg : Bool) {m : Nat} (h : m < 2 ^ 63) :
    floatSign (packMagnitude neg m) = neg := by
  rw [floatSign_eq, toNat_packMagnitude neg h]
  cases neg
  · exact decide_eq_false (by rw [if_neg Bool.false_ne_true]; omega)
  · exact decide_eq_true (by rw [if_pos rfl]; omega)

/-- A finite pattern stands for its magnitude, in units, under its sign. -/
theorem floatValue_eq (w : Word) :
    floatValue w = (if floatSign w then -1 else 1) * ((magnitudeUnits (magnitude w) : ℚ) / unitsPerOne) := by
  have he : magnitude w / 2 ^ 52 = w.toNat / 2 ^ 52 % 2 ^ 11 := by unfold magnitude; omega
  have hf : magnitude w % 2 ^ 52 = w.toNat % 2 ^ 52 := by unfold magnitude; omega
  have hone : (unitsPerOne : ℚ) = 2 ^ 1074 := by rw [unitsPerOne, Nat.cast_pow, Nat.cast_ofNat]
  have hscale : ∀ e : Nat, (2 : ℚ) ^ ((e + 1 : ℕ) - 1075 : ℤ) = 2 ^ e / unitsPerOne := fun e => by
    rw [hone, ← zpow_natCast, ← zpow_natCast, ← zpow_sub₀ (by norm_num)]
    congr 1
    push_cast
    ring
  simp only [floatValue, magnitudeUnits, he, hf]
  generalize w.toNat / 2 ^ 52 % 2 ^ 11 = e
  obtain _ | e := e
  · rw [if_pos rfl, if_pos rfl, Nat.zero_max, hscale 0, pow_zero, mul_assoc, mul_one_div]
  · rw [if_neg e.succ_ne_zero, if_neg e.succ_ne_zero, Nat.max_eq_left (by omega), hscale e, Nat.add_sub_cancel,
      Nat.cast_mul, Nat.cast_pow, Nat.cast_ofNat, mul_assoc, mul_div_assoc]

/-! ### The nearest magnitude -/

/-- `m` is the magnitude nearest to `q` units, ties to the even pattern: the one below `q` or the one above. -/
def IsNearestMagnitude (q : ℝ) (m : Nat) : Prop :=
  ∃ a : Nat, (magnitudeUnits a : ℝ) ≤ q ∧ q < magnitudeUnits (a + 1) ∧
    (m = a ∧ (2 * q < magnitudeUnits a + magnitudeUnits (a + 1) ∨
        2 * q = magnitudeUnits a + magnitudeUnits (a + 1) ∧ a % 2 = 0) ∨
      m = a + 1 ∧ (magnitudeUnits a + magnitudeUnits (a + 1) < 2 * q ∨
        2 * q = magnitudeUnits a + magnitudeUnits (a + 1) ∧ a % 2 = 1))

theorem magnitudeUnits_le {m n : Nat} (h : m ≤ n) : (magnitudeUnits m : ℝ) ≤ magnitudeUnits n :=
  Nat.cast_le.2 (magnitudeUnits_strictMono.monotone h)

/-- The nearer end of a gap around `q` is as near as any number outside the gap; another is as near only when `q` is
the gap's midpoint. -/
theorem nearest_of_gap {l u w v q : ℝ} (hl : l ≤ q) (hu : q < u) (hv : v ≤ l ∨ u ≤ v)
    (hw : w = l ∧ 2 * q ≤ l + u ∨ w = u ∧ l + u ≤ 2 * q) :
    |w - q| ≤ |v - q| ∧ (|v - q| = |w - q| → v = w ∨ 2 * q = l + u) := by
  have hvdist : v ≤ l ∧ |v - q| = q - v ∨ u ≤ v ∧ |v - q| = v - q :=
    hv.imp (fun h => ⟨h, by rw [abs_sub_comm, abs_of_nonneg (by linarith)]⟩)
      fun h => ⟨h, abs_of_nonneg (by linarith)⟩
  rcases hw with ⟨rfl, hmid⟩ | ⟨rfl, hmid⟩
  · rw [abs_sub_comm w, abs_of_nonneg (sub_nonneg.2 hl)]
    rcases hvdist with ⟨h, hd⟩ | ⟨h, hd⟩
    · exact ⟨by linarith, fun _ => .inl (by linarith)⟩
    · exact ⟨by linarith, fun _ => .inr (by linarith)⟩
  · rw [abs_of_nonneg (sub_nonneg.2 hu.le)]
    rcases hvdist with ⟨h, hd⟩ | ⟨h, hd⟩
    · exact ⟨by linarith, fun _ => .inr (by linarith)⟩
    · exact ⟨by linarith, fun _ => .inl (by linarith)⟩

/-- No magnitude, under either sign, is nearer than the nearest; one as near is the same, or the nearest is even. -/
theorem IsNearestMagnitude.le {q : ℝ} {m : Nat} (h : IsNearestMagnitude q m) {v : ℝ} {n : Nat}
    (hv : v = magnitudeUnits n ∨ v = -magnitudeUnits n) :
    |(magnitudeUnits m : ℝ) - q| ≤ |v - q| ∧
      (|v - q| = |(magnitudeUnits m : ℝ) - q| → v = magnitudeUnits m ∨ m % 2 = 0) := by
  obtain ⟨a, hlo, hhi, hm⟩ := h
  have hgap : v ≤ magnitudeUnits a ∨ (magnitudeUnits (a + 1) : ℝ) ≤ v := by
    rcases hv with rfl | rfl
    · exact (Nat.lt_or_ge a n).symm.imp magnitudeUnits_le magnitudeUnits_le
    · exact .inl ((neg_nonpos.2 (Nat.cast_nonneg _)).trans (Nat.cast_nonneg _))
  obtain ⟨hle, htie⟩ := nearest_of_gap hlo hhi hgap (w := magnitudeUnits m) <|
    hm.imp (fun ⟨hm, hnear⟩ => ⟨by rw [hm], hnear.elim LT.lt.le fun h => h.1.le⟩)
      fun ⟨hm, hnear⟩ => ⟨by rw [hm], hnear.elim LT.lt.le fun h => h.1.ge⟩
  refine ⟨hle, fun h => (htie h).imp_right fun hmid => ?_⟩
  rcases hm with ⟨rfl, hnear⟩ | ⟨rfl, hnear⟩
  · exact (hnear.resolve_left hmid.not_lt).2
  · have hodd := (hnear.resolve_left hmid.not_gt).2
    omega

/-- The nearest magnitude is at most an odd pattern exactly below the midpoint above that pattern. -/
theorem IsNearestMagnitude.le_odd_iff {q : ℝ} {m b : Nat} (h : IsNearestMagnitude q m) (hb : b % 2 = 1) :
    m ≤ b ↔ 2 * q < magnitudeUnits b + magnitudeUnits (b + 1) := by
  have hstep : (magnitudeUnits b : ℝ) < magnitudeUnits (b + 1) :=
    Nat.cast_lt.2 (magnitudeUnits_strictMono b.lt_succ_self)
  obtain ⟨a, hlo, hhi, hm⟩ := h
  rcases lt_trichotomy a b with hab | rfl | hab
  · have := magnitudeUnits_le (Nat.succ_le_of_lt hab)
    exact ⟨fun _ => by linarith, fun _ => by omega⟩
  · rcases hm with ⟨rfl, hnear⟩ | ⟨rfl, hnear⟩
    · exact ⟨fun _ => hnear.resolve_right fun h => by omega, fun _ => le_rfl⟩
    · exact ⟨fun _ => by omega, fun _ => by rcases hnear with h | ⟨h, -⟩ <;> linarith⟩
  · have := magnitudeUnits_le (Nat.succ_le_of_lt hab)
    exact ⟨fun _ => by omega, fun _ => by linarith⟩

/-! ### From units to values -/

theorem unitsPerOne_eq : (unitsPerOne : ℝ) = 2 ^ 1074 := by
  rw [unitsPerOne, Nat.cast_pow 2 1074, Nat.cast_ofNat]

theorem unitsPerOne_pos : (0 : ℝ) < unitsPerOne := by
  rw [unitsPerOne_eq]
  exact pow_pos two_pos 1074

/-- Twice the midpoint between the last magnitude of a binade and the first of the next. -/
theorem midpoint_binades (s : Nat) : (magnitudeUnits (s * 2 ^ 52 + (2 ^ 53 - 1)) : ℝ) +
    magnitudeUnits (s * 2 ^ 52 + (2 ^ 53 - 1) + 1) = (2 ^ 54 - 1) * 2 ^ s := by
  rw [Nat.add_assoc, magnitudeUnits_scale (by omega) (by omega), magnitudeUnits_scale (by omega) (by omega)]
  push_cast
  ring

/-- The midpoint above the greatest finite magnitude is the overflow threshold. -/
theorem midpoint_overflow : (magnitudeUnits (infMagnitude - 1) : ℝ) + magnitudeUnits (infMagnitude - 1 + 1) =
    2 * ((2 ^ 1024 - 2 ^ 970) * unitsPerOne) := by
  have hlast : infMagnitude - 1 = 2045 * 2 ^ 52 + (2 ^ 53 - 1) := by decide
  have h1024 : (2 : ℝ) ^ 1024 = 2 ^ 970 * 2 ^ 54 := by rw [← pow_add]
  have h2045 : (2 : ℝ) ^ 2045 = 2 ^ 970 * 2 ^ 1074 * 2 := by rw [← pow_add, ← pow_succ]
  rw [hlast, midpoint_binades, unitsPerOne_eq, h1024, h2045]
  generalize (2 : ℝ) ^ 970 = a
  generalize (2 : ℝ) ^ 1074 = b
  ring

/-- The value of a pattern in units, counted along the sign `neg`. -/
def unitsAlong (neg : Bool) (w : Word) : Int :=
  if floatSign w = neg then magnitudeUnits (magnitude w) else -magnitudeUnits (magnitude w)

theorem unitsAlong_cases (neg : Bool) (w : Word) : (unitsAlong neg w : ℝ) = magnitudeUnits (magnitude w) ∨
    (unitsAlong neg w : ℝ) = -magnitudeUnits (magnitude w) := by
  unfold unitsAlong
  split_ifs
  · exact .inl (Int.cast_natCast _)
  · exact .inr (by rw [Int.cast_neg, Int.cast_natCast])

theorem unitsAlong_packMagnitude (neg : Bool) {m : Nat} (h : m < 2 ^ 63) :
    unitsAlong neg (packMagnitude neg m) = magnitudeUnits m := by
  rw [unitsAlong, if_pos (floatSign_packMagnitude neg h), magnitude_packMagnitude neg h]

theorem floatValue_eq_unitsAlong (neg : Bool) (w : Word) :
    (floatValue w : ℝ) = (if neg then -1 else 1) * (unitsAlong neg w / unitsPerOne) := by
  rw [floatValue_eq, unitsAlong]
  generalize unitsPerOne = c
  cases neg <;> cases floatSign w <;> simp [neg_div]

theorem abs_sign_mul (neg : Bool) (x : ℝ) : |(if neg then -1 else 1) * x| = |x| := by
  cases neg <;> simp

/-- Distances along a sign are distances in units. -/
theorem abs_floatValue_sub (neg : Bool) (w : Word) (q : ℝ) :
    |(floatValue w : ℝ) - (if neg then -1 else 1) * (q / unitsPerOne)| = |unitsAlong neg w - q| / unitsPerOne := by
  rw [floatValue_eq_unitsAlong neg, ← mul_sub, ← sub_div, abs_sign_mul, abs_div, abs_of_pos unitsPerOne_pos]

section
variable {q : ℝ} {m : Nat} (h : IsNearestMagnitude q m) (neg : Bool)
include h

theorem IsNearestMagnitude.abs_eq : |(if neg then -1 else 1) * (q / unitsPerOne)| = q / unitsPerOne := by
  obtain ⟨a, ha, -⟩ := h
  rw [abs_sign_mul, abs_of_nonneg (div_nonneg ((Nat.cast_nonneg _).trans ha) unitsPerOne_pos.le)]

/-- The nearest magnitude is finite exactly below the overflow threshold. -/
theorem IsNearestMagnitude.lt_inf_iff : m < infMagnitude ↔ q / unitsPerOne < 2 ^ 1024 - 2 ^ 970 := by
  have hpos : 0 < infMagnitude := by decide
  rw [← Nat.le_sub_one_iff_lt hpos, h.le_odd_iff (by decide), midpoint_overflow, div_lt_iff₀ unitsPerOne_pos]
  exact mul_lt_mul_iff_right₀ two_pos

theorem IsNearestMagnitude.roundsTo_of_lt (hm : m < infMagnitude) :
    RoundsTo ((if neg then -1 else 1) * (q / unitsPerOne)) (packMagnitude neg m) := by
  have hone := unitsPerOne_pos
  have hm63 : m < 2 ^ 63 := hm.trans (by decide)
  unfold RoundsTo
  rw [h.abs_eq, if_pos (h.lt_inf_iff.1 hm)]
  have hunits : (unitsAlong neg (packMagnitude neg m) : ℝ) = magnitudeUnits m := by
    rw [unitsAlong_packMagnitude neg hm63, Int.cast_natCast]
  refine ⟨isFiniteFloat_iff.2 (by rwa [magnitude_packMagnitude neg hm63]), fun v _ => ?_, fun v _ htie => ?_⟩
  · rw [abs_floatValue_sub, abs_floatValue_sub, hunits]
    exact (div_le_div_iff_of_pos_right hone).2 (h.le (unitsAlong_cases neg v)).1
  · rw [abs_floatValue_sub, abs_floatValue_sub, hunits, div_left_inj' hone.ne'] at htie
    refine ((h.le (unitsAlong_cases neg v)).2 htie).imp (fun heq => ?_) fun heven => ?_
    · have hval : (floatValue v : ℝ) = floatValue (packMagnitude neg m) := by
        rw [floatValue_eq_unitsAlong neg, floatValue_eq_unitsAlong neg, heq, hunits]
      exact_mod_cast hval
    · rw [toNat_packMagnitude neg hm63]
      split_ifs <;> omega

theorem IsNearestMagnitude.roundsTo_of_le (hm : infMagnitude ≤ m) :
    RoundsTo ((if neg then -1 else 1) * (q / unitsPerOne)) (packMagnitude neg infMagnitude) := by
  have hbig : ¬q / unitsPerOne < 2 ^ 1024 - 2 ^ 970 := h.lt_inf_iff.not.1 hm.not_gt
  have hpos : 0 < q / unitsPerOne := by
    have : (2 : ℝ) ^ 970 < 2 ^ 1024 := pow_lt_pow_right₀ one_lt_two (by omega)
    exact (sub_pos.2 this).trans_le (not_lt.1 hbig)
  unfold RoundsTo
  rw [h.abs_eq, if_neg hbig]
  cases neg
  · rw [if_neg Bool.false_ne_true, one_mul, if_neg hpos.not_gt]
    decide
  · rw [if_pos rfl, neg_one_mul, if_pos (neg_neg_of_pos hpos)]
    decide

/-- The nearest magnitude, cut at the infinity and packed under a sign, is the rounded value (R13). -/
theorem IsNearestMagnitude.roundsTo :
    RoundsTo ((if neg then -1 else 1) * (q / unitsPerOne)) (packMagnitude neg (min m infMagnitude)) := by
  rcases Nat.lt_or_ge m infMagnitude with hm | hm
  · rw [min_eq_left hm.le]
    exact h.roundsTo_of_lt neg hm
  · rw [min_eq_right hm]
    exact h.roundsTo_of_le neg hm

end

/-- The scale of a quotient puts its significand in a binade, or below the first. -/
theorem div_scale_bounds (n : Nat) : n / 2 ^ (Nat.log2 n - 52) < 2 ^ 53 ∧
    (Nat.log2 n - 52 = 0 ∨ 2 ^ 52 ≤ n / 2 ^ (Nat.log2 n - 52)) := by
  rw [Nat.div_lt_iff_lt_mul (Nat.two_pow_pos _), Nat.le_div_iff_mul_le (Nat.two_pow_pos _), ← pow_add, ← pow_add]
  refine ⟨Nat.lt_log2_self.trans_le (Nat.pow_le_pow_right two_pos (by omega)), ?_⟩
  by_cases h : Nat.log2 n ≤ 52
  · exact .inl (by omega)
  · have hn : n ≠ 0 := by rintro rfl; exact h (by decide)
    exact .inr ((Nat.le_log2 hn).1 (by omega))

/-- Rounding the quotient at its scale gives the nearest magnitude. -/
theorem isNearestMagnitude_nearestEven {num den scale : Nat} (hden : 0 < den)
    (hscale : scale = Nat.log2 (num / den) - 52) :
    IsNearestMagnitude (num / den) (scale * 2 ^ 52 +
      nearestEven (num / (den * 2 ^ scale)) (num % (den * 2 ^ scale)) (den * 2 ^ scale)) := by
  obtain ⟨hhi, hlo⟩ := div_scale_bounds (num / den)
  rw [← hscale, Nat.div_div_eq_div_mul] at hhi hlo
  have hr := Nat.mod_lt num (Nat.mul_pos hden (Nat.two_pow_pos scale))
  have hnum := Nat.div_add_mod num (den * 2 ^ scale)
  generalize num / (den * 2 ^ scale) = k at *
  generalize num % (den * 2 ^ scale) = r at *
  have hdenR : (0 : ℝ) < den := Nat.cast_pos.2 hden
  have hq : (num / den : ℝ) = k * 2 ^ scale + r / den := by
    rw [← hnum]
    push_cast
    field_simp
  have hr0 : (0 : ℝ) ≤ r / den := by positivity
  have hr1 : (r / den : ℝ) < 2 ^ scale := by
    rw [div_lt_iff₀ hdenR, mul_comm]
    exact_mod_cast hr
  have hlt : 2 * r < den * 2 ^ scale ↔ 2 * (r / den : ℝ) < 2 ^ scale := by
    rw [← mul_div_assoc, div_lt_iff₀ hdenR, mul_comm _ (den : ℝ)]
    exact_mod_cast Iff.rfl
  have hgt : den * 2 ^ scale < 2 * r ↔ 2 ^ scale < 2 * (r / den : ℝ) := by
    rw [← mul_div_assoc, lt_div_iff₀ hdenR, mul_comm _ (den : ℝ)]
    exact_mod_cast Iff.rfl
  have heq : 2 * r = den * 2 ^ scale → 2 * (r / den : ℝ) = 2 ^ scale := fun h =>
    le_antisymm (not_lt.1 (hgt.not.1 h.not_gt)) (not_lt.1 (hlt.not.1 h.not_lt))
  refine ⟨scale * 2 ^ 52 + k, ?_⟩
  rw [Nat.add_assoc, magnitudeUnits_scale hlo hhi.le, magnitudeUnits_scale (by omega) (by omega), hq]
  push_cast
  refine ⟨by linarith, by linarith, ?_⟩
  unfold nearestEven
  split_ifs with hup
  · refine .inr ⟨rfl, hup.imp (fun h => ?_) fun ⟨h, hodd⟩ => ⟨?_, by omega⟩⟩
    · linarith [hgt.1 h]
    · linarith [heq h]
  · obtain ⟨hle, heven⟩ := not_or.1 hup
    rcases (not_lt.1 hle).lt_or_eq with h | h
    · exact .inl ⟨rfl, .inl (by linarith [hlt.1 h])⟩
    · exact .inl ⟨rfl, .inr ⟨by linarith [heq h], by omega⟩⟩

/-- Rounding a quotient of naturals, in units, is correct (R13). -/
theorem roundsTo_roundUnits (neg : Bool) (num : Nat) {den : Nat} (hden : 0 < den) :
    RoundsTo ((if neg then -1 else 1) * (num / den / unitsPerOne)) (roundUnits neg num den) :=
  (isNearestMagnitude_nearestEven hden rfl).roundsTo neg

theorem floatOfInt_zero : floatOfInt 0 = 0 := by decide +kernel

/-- `b64(n)` is correct (R13, R221). -/
theorem isB64_floatOfInt (n : Int) : IsB64 (n : ℝ) (floatOfInt n) := by
  have hval : (if decide (n < 0) then -1 else 1) * ((n.natAbs * unitsPerOne : ℕ) / (1 : ℕ) / unitsPerOne : ℝ) = n := by
    rw [Nat.cast_mul, Nat.cast_one, div_one, mul_div_assoc, div_self unitsPerOne_pos.ne', mul_one, Nat.cast_natAbs]
    split_ifs with hn
    · rw [abs_of_neg (of_decide_eq_true hn), Int.cast_neg, neg_one_mul, neg_neg]
    · rw [abs_of_nonneg (not_lt.1 fun h => hn (decide_eq_true h)), one_mul]
  have hround := roundsTo_roundUnits (decide (n < 0)) (n.natAbs * unitsPerOne) one_pos
  rw [hval] at hround
  exact ⟨hround, fun hn => by rw [Int.cast_eq_zero.1 hn, floatOfInt_zero]⟩

end Sys2Proof.Machine
end

section
/-! PROOF. The complex primitives and the complex root table (spec/41_transform.md R161, R162). -/

namespace Sys2Proof.Machine

/-! ### The complex primitives (R161) -/

theorem fadd_comm (a b : Word) : fadd a b = fadd b a := by
  unfold fadd
  cases unpack a with
  | nan => cases unpack b <;> rfl
  | inf s =>
    cases unpack b with
    | nan => rfl
    | inf t =>
      rcases eq_or_ne s t with rfl | h
      · rfl
      · simp only [if_neg h, if_neg h.symm]
    | fin t v => rfl
  | fin s u =>
    cases unpack b with
    | nan => rfl
    | inf t => rfl
    | fin t v => simp only [Bool.and_comm t, add_comm (signedUnits t v)]

theorem fmul_comm (a b : Word) : fmul a b = fmul b a := by
  unfold fmul
  cases unpack a <;> cases unpack b <;> simp only [Bool.xor_comm, Nat.mul_comm]

/-- Settles O28: the primitives are their definitions, the scale is `b64(n)`, and the operations commute. -/
theorem complexProductCommutes : Obligations.ComplexProductCommutes := by
  intro p x y n
  refine ⟨rfl, rfl, rfl, rfl, ⟨floatOfInt n, ?_, rfl⟩, ?_, fun _ _ => rfl⟩
  · exact_mod_cast isB64_floatOfInt n
  · simp only [mulElem]
    rw [fmul_comm x.lo y.lo, fmul_comm x.hi y.hi, fmul_comm x.lo y.hi, fmul_comm x.hi y.lo, fadd_comm]

/-! ### Rounding between bounds -/

theorem RoundsTo.abs_lt_overflow {x : ℝ} {w : Word} (h : RoundsTo x w) (hw : isFiniteFloat w) :
    |x| < 2 ^ 1024 - 2 ^ 970 := by
  by_contra hx
  unfold RoundsTo at h
  rw [if_neg hx] at h
  refine absurd hw ?_
  rw [h, isFiniteFloat_iff]
  split_ifs <;> decide

/-- The upper of two numbers is as near exactly from their midpoint up. -/
theorem abs_sub_le_abs_sub_of_lt {a b : ℝ} (h : a < b) (y : ℝ) : |b - y| ≤ |a - y| ↔ a + b ≤ 2 * y := by
  rw [← sq_le_sq]
  constructor <;> intro _ <;> nlinarith

/-- The lower of two numbers is as near exactly from their midpoint down. -/
theorem abs_sub_le_abs_sub_of_gt {a b : ℝ} (h : b < a) (y : ℝ) : |b - y| ≤ |a - y| ↔ 2 * y ≤ a + b := by
  rw [← sq_le_sq]
  constructor <;> intro _ <;> nlinarith

/-- What two numbers round to, every number between them rounds to: a midpoint between them is one of them. -/
theorem RoundsTo.of_between {x y z : ℝ} {w : Word} (hx : RoundsTo x w) (hz : RoundsTo z w) (hw : isFiniteFloat w)
    (hxy : x ≤ y) (hyz : y ≤ z) : RoundsTo y w := by
  have hxlt := hx.abs_lt_overflow hw
  have hzlt := hz.abs_lt_overflow hw
  have hylt : |y| < 2 ^ 1024 - 2 ^ 970 :=
    abs_lt.2 ⟨(abs_lt.1 hxlt).1.trans_le hxy, hyz.trans_lt (abs_lt.1 hzlt).2⟩
  unfold RoundsTo at *
  rw [if_pos hxlt] at hx
  rw [if_pos hzlt] at hz
  rw [if_pos hylt]
  obtain ⟨-, hxle, hxtie⟩ := hx
  obtain ⟨-, hzle, hztie⟩ := hz
  refine ⟨hw, fun v hv => ?_, fun v hv htie => ?_⟩ <;>
    rcases lt_trichotomy (floatValue v : ℝ) (floatValue w) with hvw | hvw | hvw
  · have hmid := (abs_sub_le_abs_sub_of_lt hvw x).1 (hxle v hv)
    exact (abs_sub_le_abs_sub_of_lt hvw y).2 (by linarith)
  · rw [hvw]
  · have hmid := (abs_sub_le_abs_sub_of_gt hvw z).1 (hzle v hv)
    exact (abs_sub_le_abs_sub_of_gt hvw y).2 (by linarith)
  · have hmid := (abs_sub_le_abs_sub_of_lt hvw x).1 (hxle v hv)
    have htop := (abs_sub_le_abs_sub_of_gt hvw y).1 htie.le
    obtain rfl : x = y := by linarith
    exact hxtie v hv htie
  · exact .inl (by exact_mod_cast hvw)
  · have hmid := (abs_sub_le_abs_sub_of_gt hvw z).1 (hzle v hv)
    have hbottom := (abs_sub_le_abs_sub_of_lt hvw y).1 htie.le
    obtain rfl : y = z := by linarith
    exact hztie v hv htie

/-! ### Bounds for the cosines and sines of the levels -/

/-- The unit of the bounds: a bound `b` stands for `b / boundScale`. -/
def boundScale : Nat := 2 ^ 160

/-- A lower bound of `cos (2 pi / 2^(i+2))`, by halving the angle `i` times from a right angle. -/
def cosLower : Nat → Nat
  | 0 => 0
  | i + 1 => Nat.sqrt ((boundScale ^ 2 + boundScale * cosLower i) / 2)

/-- An upper bound of the same. -/
def cosUpper : Nat → Nat
  | 0 => 0
  | i + 1 => Nat.sqrt ((boundScale ^ 2 + boundScale * cosUpper i) / 2) + 1

/-- A lower bound of `sin (2 pi / 2^(i+2))`. -/
def sinLower (i : Nat) : Nat := Nat.sqrt (boundScale ^ 2 - cosUpper i ^ 2)

/-- An upper bound of the same. -/
def sinUpper (i : Nat) : Nat := Nat.sqrt (boundScale ^ 2 - cosLower i ^ 2) + 1

theorem natSqrt_le_of_le_sq {a : Nat} {y : ℝ} (hy : 0 ≤ y) (h : (a : ℝ) ≤ y ^ 2) : (Nat.sqrt a : ℝ) ≤ y := by
  have hsq : (Nat.sqrt a : ℝ) ^ 2 ≤ a := by exact_mod_cast Nat.sqrt_le' a
  exact abs_le_of_sq_le_sq' (hsq.trans h) hy |>.2

theorem le_natSqrt_of_sq_lt {a : Nat} {y : ℝ} (h : y ^ 2 < a + 1) : y ≤ (Nat.sqrt a + 1 : ℕ) := by
  have hsq : (a + 1 : ℝ) ≤ ((Nat.sqrt a + 1 : ℕ) : ℝ) ^ 2 := by exact_mod_cast Nat.succ_le_succ_sqrt' a
  exact abs_le_of_sq_le_sq' (h.le.trans hsq) (Nat.cast_nonneg _) |>.2

theorem half_lt_div_two_add_one (b : Nat) : (b : ℝ) / 2 < (b / 2 : ℕ) + 1 := by
  have h : (b : ℝ) < 2 * ((b / 2 : ℕ) + 1) := by exact_mod_cast (by omega : b < 2 * (b / 2 + 1))
  linarith

theorem boundScale_pos : (0 : ℝ) < boundScale := Nat.cast_pos.2 (by decide)

theorem rootAngle_mem (i : Nat) : 0 ≤ 2 * Real.pi / 2 ^ (i + 2) ∧ 2 * Real.pi / 2 ^ (i + 2) ≤ Real.pi / 2 := by
  have hpi := Real.pi_pos
  refine ⟨by positivity, ?_⟩
  rw [div_le_div_iff₀ (by positivity) two_pos, pow_add]
  nlinarith [one_le_pow₀ (M₀ := ℝ) (a := 2) one_le_two (n := i)]

theorem cos_rootAngle_nonneg (i : Nat) : 0 ≤ Real.cos (2 * Real.pi / 2 ^ (i + 2)) :=
  Real.cos_nonneg_of_mem_Icc ⟨by linarith [(rootAngle_mem i).1, Real.pi_pos], (rootAngle_mem i).2⟩

theorem sin_rootAngle_nonneg (i : Nat) : 0 ≤ Real.sin (2 * Real.pi / 2 ^ (i + 2)) :=
  Real.sin_nonneg_of_nonneg_of_le_pi (rootAngle_mem i).1 (by linarith [(rootAngle_mem i).2, Real.pi_pos])

/-- The half-angle formula between levels. -/
theorem cos_sq_rootAngle (i : Nat) : Real.cos (2 * Real.pi / 2 ^ (i + 1 + 2)) ^ 2 =
    (1 + Real.cos (2 * Real.pi / 2 ^ (i + 2))) / 2 := by
  have h : 2 * (2 * Real.pi / 2 ^ (i + 1 + 2)) = 2 * Real.pi / 2 ^ (i + 2) := by
    rw [Nat.add_right_comm, pow_succ]
    ring
  rw [Real.cos_sq, h]
  ring

theorem cos_rootAngle_bounds (i : Nat) :
    (cosLower i : ℝ) ≤ Real.cos (2 * Real.pi / 2 ^ (i + 2)) * boundScale ∧
      Real.cos (2 * Real.pi / 2 ^ (i + 2)) * boundScale ≤ cosUpper i := by
  have hscale := boundScale_pos
  induction i with
  | zero =>
    have h : 2 * Real.pi / 2 ^ (0 + 2) = Real.pi / 2 := by ring
    rw [h, Real.cos_pi_div_two, zero_mul]
    exact ⟨Nat.cast_zero.le, Nat.cast_zero.ge⟩
  | succ i ih =>
    obtain ⟨hlo, hhi⟩ := ih
    have hsq := cos_sq_rootAngle i
    generalize Real.cos (2 * Real.pi / 2 ^ (i + 2)) = c at *
    have hnonneg := cos_rootAngle_nonneg (i + 1)
    generalize Real.cos (2 * Real.pi / 2 ^ (i + 1 + 2)) = c' at *
    constructor
    · refine natSqrt_le_of_le_sq (mul_nonneg hnonneg hscale.le) (Nat.cast_div_le.trans ?_)
      push_cast
      rw [mul_pow, hsq]
      nlinarith
    · refine le_natSqrt_of_sq_lt (lt_of_le_of_lt ?_ (half_lt_div_two_add_one _))
      push_cast
      rw [mul_pow, hsq]
      nlinarith

theorem sin_rootAngle_bounds (i : Nat) :
    (sinLower i : ℝ) ≤ Real.sin (2 * Real.pi / 2 ^ (i + 2)) * boundScale ∧
      Real.sin (2 * Real.pi / 2 ^ (i + 2)) * boundScale ≤ sinUpper i := by
  obtain ⟨hlo, hhi⟩ := cos_rootAngle_bounds i
  have hcos := mul_nonneg (cos_rootAngle_nonneg i) boundScale_pos.le
  have hsin := mul_nonneg (sin_rootAngle_nonneg i) boundScale_pos.le
  have hsq : (Real.sin (2 * Real.pi / 2 ^ (i + 2)) * boundScale) ^ 2 =
      (boundScale ^ 2 : ℕ) - (Real.cos (2 * Real.pi / 2 ^ (i + 2)) * boundScale) ^ 2 := by
    rw [mul_pow, Real.sin_sq]
    push_cast
    ring
  have hlosq := pow_le_pow_left₀ (Nat.cast_nonneg _) hlo 2
  have hhisq := pow_le_pow_left₀ hcos hhi 2
  constructor
  · refine natSqrt_le_of_le_sq hsin ?_
    rw [hsq]
    rcases le_total (cosUpper i ^ 2) (boundScale ^ 2) with hle | hle
    · rw [Nat.cast_sub hle, Nat.cast_pow (cosUpper i)]
      linarith
    · rw [Nat.sub_eq_zero_of_le hle, Nat.cast_zero, ← hsq]
      exact sq_nonneg _
  · refine le_natSqrt_of_sq_lt ?_
    rw [hsq]
    have h : ((boundScale ^ 2 : ℕ) : ℝ) ≤ (boundScale ^ 2 - cosLower i ^ 2 : ℕ) + (cosLower i : ℝ) ^ 2 := by
      exact_mod_cast le_tsub_add
    linarith

/-! ### The table -/

/-- Both bounds round to `w`, a finite pattern which is `+0.0` where the lower bound is zero. -/
abbrev BoundsRoundTo (neg : Bool) (lo hi : Nat) (w : Word) : Prop :=
  (lo = 0 → w = 0) ∧ magnitude w < infMagnitude ∧
    roundUnits neg (lo * unitsPerOne) boundScale = w ∧ roundUnits neg (hi * unitsPerOne) boundScale = w

theorem BoundsRoundTo.isB64 {neg : Bool} {lo hi : Nat} {w : Word} (h : BoundsRoundTo neg lo hi w) {x : ℝ}
    (hx : (lo : ℝ) ≤ x * boundScale ∧ x * boundScale ≤ hi) : IsB64 ((if neg then -1 else 1) * x) w := by
  have hscale := boundScale_pos
  obtain ⟨hzero, hfinite, hlo, hhi⟩ := h
  have hround : ∀ b : Nat, roundUnits neg (b * unitsPerOne) boundScale = w →
      RoundsTo ((if neg then -1 else 1) * (b / boundScale)) w := fun b hb => by
    have h := roundsTo_roundUnits neg (b * unitsPerOne) (Nat.cast_pos.1 hscale)
    rwa [hb, Nat.cast_mul, div_right_comm, mul_div_assoc, div_self unitsPerOne_pos.ne', mul_one] at h
  have hxlo : (lo : ℝ) / boundScale ≤ x := (div_le_iff₀ hscale).2 hx.1
  have hxhi : x ≤ (hi : ℝ) / boundScale := (le_div_iff₀ hscale).2 hx.2
  refine ⟨?_, fun h0 => hzero ?_⟩
  · have hw := isFiniteFloat_iff.2 hfinite
    cases neg
    · exact (hround lo hlo).of_between (hround hi hhi) hw (by simpa using hxlo) (by simpa using hxhi)
    · exact (hround hi hhi).of_between (hround lo hlo) hw (by simpa using hxhi) (by simpa using hxlo)
  · have hx0 : x = 0 := by cases neg <;> simpa using h0
    rw [hx0, zero_mul] at hx
    exact Nat.cast_nonpos.1 hx.1

theorem rootComplex_within_bounds : ∀ i < 22,
    BoundsRoundTo false (cosLower i) (cosUpper i) (rootComplex .fwd (i + 2)).lo ∧
    BoundsRoundTo false (sinLower i) (sinUpper i) (rootComplex .fwd (i + 2)).hi ∧
    BoundsRoundTo true (sinLower i) (sinUpper i) (rootComplex .inv (i + 2)).hi := by
  decide +kernel

/-- At level 1 the entries are `b64(-1)` and `b64(0)`, for `cos pi` and `sin pi`. -/
theorem rootComplex_one (dir : Dir) : rootComplex dir 1 = { lo := floatOfInt (-1), hi := floatOfInt 0 } := by
  cases dir <;> decide +kernel

/-- Settles O23: at level 1 the entries are integers; above it the bounds round to the entries, and so does every
number between them. -/
theorem complexRootsAreCorrectlyRounded : Obligations.ComplexRootsAreCorrectlyRounded := by
  intro j hj1 hj23
  obtain rfl | ⟨i, rfl⟩ : j = 1 ∨ ∃ i, j = i + 2 := by
    rcases hj1.eq_or_lt with h | h
    · exact .inl h.symm
    · exact .inr ⟨j - 2, by omega⟩
  · have hcos : Real.cos (2 * Real.pi / 2 ^ 1) = ((-1 : ℤ) : ℝ) := by simp
    have hsin : Real.sin (2 * Real.pi / 2 ^ 1) = ((0 : ℤ) : ℝ) := by simp
    rw [rootComplex_one, rootComplex_one, hcos, hsin, ← Int.cast_neg, neg_zero]
    exact ⟨isB64_floatOfInt (-1), isB64_floatOfInt 0, isB64_floatOfInt (-1), isB64_floatOfInt 0⟩
  · obtain ⟨hcos, hsin, hneg⟩ := rootComplex_within_bounds i (by omega)
    have hcosB64 := hcos.isB64 (cos_rootAngle_bounds i)
    have hsinB64 := hsin.isB64 (sin_rootAngle_bounds i)
    have hnegB64 := hneg.isB64 (sin_rootAngle_bounds i)
    rw [if_neg Bool.false_ne_true, one_mul] at hcosB64 hsinB64
    rw [if_pos rfl, neg_one_mul] at hnegB64
    exact ⟨hcosB64, hsinB64, hcosB64, hnegB64⟩

end Sys2Proof.Machine
end

section
/-! PROOF. Conversions between digits and binary64 values: exact where they can be (spec/43_convert.md R221), to the
nearest integer with halves away from zero (R222). -/

namespace Sys2Proof.Machine

/-! ### Integers as binary64 values (R221) -/

/-- A finite magnitude stands for a number below the overflow threshold. -/
theorem abs_floatValue_lt {v : Word} (hv : isFiniteFloat v) : |(floatValue v : ℝ)| < 2 ^ 1024 - 2 ^ 970 := by
  have hlast : magnitude v ≤ infMagnitude - 1 := Nat.le_sub_one_of_lt (isFiniteFloat_iff.1 hv)
  have hmag := magnitudeUnits_le hlast
  have hnext : (magnitudeUnits (infMagnitude - 1) : ℝ) < magnitudeUnits (infMagnitude - 1 + 1) :=
    Nat.cast_lt.2 (magnitudeUnits_strictMono (Nat.lt_succ_self _))
  have hunits : |(unitsAlong false v : ℝ)| = magnitudeUnits (magnitude v) := by
    rcases unitsAlong_cases false v with h | h <;> simp [h]
  rw [floatValue_eq_unitsAlong false, abs_sign_mul, abs_div, hunits, abs_of_pos unitsPerOne_pos,
    div_lt_iff₀ unitsPerOne_pos]
  have hmid := midpoint_overflow
  generalize (2 ^ 1024 - 2 ^ 970 : ℝ) = threshold at *
  linarith

/-- Rounding the value of a finite pattern gives that value. -/
theorem RoundsTo.eq_of_finite {v w : Word} (h : RoundsTo (floatValue v) w) (hv : isFiniteFloat v) :
    isFiniteFloat w ∧ floatValue w = floatValue v := by
  unfold RoundsTo at h
  rw [if_pos (abs_floatValue_lt hv)] at h
  obtain ⟨hw, hnearest, -⟩ := h
  have hdist : |(floatValue w : ℝ) - floatValue v| ≤ 0 := by simpa using hnearest v hv
  have hval : (floatValue w : ℝ) = floatValue v := sub_eq_zero.1 (abs_nonpos_iff.1 hdist)
  exact ⟨hw, by exact_mod_cast hval⟩

/-- A positive number up to `2^53` shifts into the normal significands, the upper end included. -/
theorem significand_bounds {n : Nat} (hpos : 0 < n) (hn : n ≤ 2 ^ 53) :
    2 ^ 52 ≤ n * 2 ^ (52 - Nat.log2 n) ∧ n * 2 ^ (52 - Nat.log2 n) ≤ 2 ^ 53 := by
  constructor
  · calc 2 ^ 52 ≤ 2 ^ (Nat.log2 n + (52 - Nat.log2 n)) := Nat.pow_le_pow_right two_pos (by omega)
      _ = 2 ^ Nat.log2 n * 2 ^ (52 - Nat.log2 n) := pow_add ..
      _ ≤ n * 2 ^ (52 - Nat.log2 n) := Nat.mul_le_mul_right _ (Nat.log2_self_le hpos.ne')
  · rcases le_or_gt (Nat.log2 n) 52 with h | h
    · calc n * 2 ^ (52 - Nat.log2 n) ≤ 2 ^ (Nat.log2 n + 1) * 2 ^ (52 - Nat.log2 n) :=
            Nat.mul_le_mul_right _ Nat.lt_log2_self.le
        _ = 2 ^ 53 := by rw [← pow_add]; congr 1; omega
    · rwa [Nat.sub_eq_zero_of_le h.le, pow_zero, mul_one]

/-- Every natural number up to `2^53` is one a finite magnitude stands for. -/
theorem exists_magnitudeUnits_eq {n : Nat} (hn : n ≤ 2 ^ 53) :
    ∃ m < infMagnitude, magnitudeUnits m = n * unitsPerOne := by
  obtain rfl | hpos := n.eq_zero_or_pos
  · exact ⟨0, by decide, (Nat.zero_mul _).symm⟩
  obtain ⟨hlo, hhi⟩ := significand_bounds hpos hn
  refine ⟨(1074 - (52 - Nat.log2 n)) * 2 ^ 52 + n * 2 ^ (52 - Nat.log2 n), ?_, ?_⟩
  · unfold infMagnitude
    omega
  · rw [magnitudeUnits_scale (.inr hlo) hhi, mul_assoc, ← pow_add, unitsPerOne]
    congr 2
    omega

/-- An integer up to `2^53` in magnitude is the value of a finite pattern. -/
theorem exists_floatValue_eq {d : Int} (hd : |d| ≤ 2 ^ 53) : ∃ v, isFiniteFloat v ∧ floatValue v = (d : ℚ) := by
  obtain ⟨m, hm, hunits⟩ := exists_magnitudeUnits_eq (n := d.natAbs) (by rw [Int.abs_eq_natAbs] at hd; omega)
  have hm63 : m < 2 ^ 63 := hm.trans (by decide)
  have hone : (unitsPerOne : ℚ) ≠ 0 := by exact_mod_cast unitsPerOne_pos.ne'
  refine ⟨packMagnitude (decide (d < 0)) m, ?_, ?_⟩
  · rwa [isFiniteFloat_iff, magnitude_packMagnitude _ hm63]
  · rw [floatValue_eq, floatSign_packMagnitude _ hm63, magnitude_packMagnitude _ hm63, hunits, Nat.cast_mul,
      mul_div_assoc, div_self hone, mul_one, Nat.cast_natAbs]
    rcases lt_or_ge d 0 with h | h
    · simp [h, abs_of_neg h]
    · simp [h.not_gt, abs_of_nonneg h]

/-- `b64(d)` is exact up to `2^53` in magnitude (R221). -/
theorem floatValue_floatOfInt {d : Int} (hd : |d| ≤ 2 ^ 53) :
    isFiniteFloat (floatOfInt d) ∧ floatValue (floatOfInt d) = (d : ℚ) := by
  obtain ⟨v, hv, hval⟩ := exists_floatValue_eq hd
  have hround : RoundsTo (floatValue v) (floatOfInt d) := by
    rw [hval, Rat.cast_intCast]
    exact (isB64_floatOfInt d).1
  rw [← hval]
  exact hround.eq_of_finite hv

/-- The modular conversion is the nonnegative remainder (R12, R221). -/
theorem residue_toSeq {p : Params} (d : Int) (hpos : 0 < p.nttP) (hlt : p.nttP < 2 ^ 32) :
    ((toSeq p .m d).residue : Int) = d % p.nttP := by
  have hnonneg : 0 ≤ d % (p.nttP : Int) := Int.emod_nonneg d (by omega)
  have hbound : d % (p.nttP : Int) < p.nttP := Int.emod_lt_of_pos d (by omega)
  change ((BitVec.ofNat 64 (Int.fmod d p.nttP).toNat).toNat : Int) = d % p.nttP
  rw [Int.fmod_eq_emod_of_nonneg d (by omega), BitVec.toNat_ofNat, Nat.mod_eq_of_lt (by omega)]
  exact Int.toNat_of_nonneg hnonneg

/-- Settles O14: `b64` rounds correctly and a representable integer rounds to itself; the residue is the remainder. -/
theorem digitConversionIsRoundedOrReduced : Obligations.DigitConversionIsRoundedOrReduced := by
  intro p d _ _
  exact ⟨isB64_floatOfInt d, rfl, floatValue_floatOfInt, fun hpos hlt => ⟨residue_toSeq d hpos hlt, rfl⟩⟩

/-! ### ROUND (R222) -/

/-- A finite pattern unpacks to its sign and the units of its magnitude. -/
theorem unpack_of_finite {w : Word} (h : isFiniteFloat w) :
    unpack w = .fin (floatSign w) (magnitudeUnits (magnitude w)) := by
  have hsign : decide (w.toNat / 2 ^ 63 = 1) = floatSign w := by
    have := w.isLt
    rw [floatSign_eq, decide_eq_decide]
    omega
  have he : magnitude w / 2 ^ 52 = w.toNat / 2 ^ 52 % 2 ^ 11 := by unfold magnitude; omega
  have hf : magnitude w % 2 ^ 52 = w.toNat % 2 ^ 52 := by unfold magnitude; omega
  unfold isFiniteFloat at h
  simp only [unpack, if_neg h, hsign, magnitudeUnits, he, hf]
  split_ifs <;> rfl

/-- ROUND fails on an infinity and on a NaN. -/
theorem roundToDigit_of_not_finite {w : Word} (h : ¬isFiniteFloat w) : roundToDigit w = none := by
  have h2047 : w.toNat / 2 ^ 52 % 2 ^ 11 = 2047 := not_not.1 h
  by_cases hf : w.toNat % 2 ^ 52 = 0 <;> simp only [roundToDigit, unpack, h2047, hf, if_true, if_false]

/-- ROUND on a finite pattern: the half-up quotient of its units, under its sign, when in `int64`. -/
theorem roundToDigit_eq_some_iff {w : Word} {r : Int} :
    roundToDigit w = some r ↔ isFiniteFloat w ∧ (-(2 ^ 63) ≤ r ∧ r ≤ 2 ^ 63 - 1) ∧
      r = signedUnits (floatSign w)
        ((2 * magnitudeUnits (magnitude w) + unitsPerOne) / (2 * unitsPerOne)) := by
  by_cases h : isFiniteFloat w
  · simp only [roundToDigit, unpack_of_finite h, h, true_and]
    generalize signedUnits _ _ = n
    simp only [inInt64, decide_eq_true_eq, Option.ite_none_right_eq_some, Option.some.injEq]
    exact ⟨fun ⟨hn, heq⟩ => heq ▸ ⟨hn, rfl⟩, fun ⟨hr, heq⟩ => heq ▸ ⟨hr, rfl⟩⟩
  · simp [roundToDigit_of_not_finite h, h]

/-- `r` is an integer nearest to `x` and, where `x` is halfway between two, the one farther from zero (R222). -/
def IsNearestHalfAway (x : ℚ) (r : Int) : Prop := |x - r| ≤ 1 / 2 ∧ (|x - r| = 1 / 2 → |x| < |(r : ℚ)|)

theorem isNearestHalfAway_neg {x : ℚ} {r : Int} : IsNearestHalfAway (-x) (-r) ↔ IsNearestHalfAway x r := by
  unfold IsNearestHalfAway
  rw [Int.cast_neg, abs_neg, abs_neg, ← abs_neg (x - r), neg_sub, neg_sub_neg]

/-- At and above zero, halves away from zero are halves up. -/
theorem isNearestHalfAway_iff_floor {x : ℚ} (hx : 0 ≤ x) {r : Int} : IsNearestHalfAway x r ↔ ⌊x + 1 / 2⌋ = r := by
  rw [Int.floor_eq_iff, IsNearestHalfAway, abs_le, abs_of_nonneg hx]
  constructor
  · rintro ⟨⟨hlo, hhi⟩, htie⟩
    refine ⟨by linarith, lt_of_le_of_ne (by linarith) fun heq => ?_⟩
    have hdist : x - r = 1 / 2 := by linarith
    have hr : (0 : ℚ) ≤ r := by
      have : (-1 : ℚ) < r := by linarith
      have : -1 < r := by exact_mod_cast this
      exact_mod_cast Int.add_one_le_iff.2 this
    have hlt := htie (by rw [hdist, abs_of_pos one_half_pos])
    rw [abs_of_nonneg hr] at hlt
    linarith
  · rintro ⟨hlo, hhi⟩
    refine ⟨⟨by linarith, by linarith⟩, fun htie => ?_⟩
    rcases (abs_eq one_half_pos.le).1 htie with h | h
    · linarith
    · have := le_abs_self (r : ℚ)
      linarith

/-- The half-up quotient of a number of units by the units of one. -/
theorem floor_half_up (u : Nat) {c : Nat} (hc : 0 < c) :
    ⌊(u : ℚ) / c + 1 / 2⌋ = ((2 * u + c) / (2 * c) : Nat) := by
  have hcQ : (c : ℚ) ≠ 0 := Nat.cast_ne_zero.2 hc.ne'
  have hsum : (u : ℚ) / c + 1 / 2 = (2 * u + c : Nat) / (2 * c : Nat) := by
    push_cast
    field_simp
  rw [hsum, Rat.floor_natCast_div_natCast, Int.natCast_ediv]

/-- The half-up quotient of the units of a finite pattern, under its sign, is the nearest integer to its value. -/
theorem eq_signedUnits_iff {w : Word} {r : Int} :
    r = signedUnits (floatSign w) ((2 * magnitudeUnits (magnitude w) + unitsPerOne) / (2 * unitsPerOne)) ↔
      IsNearestHalfAway (floatValue w) r := by
  have hnonneg : (0 : ℚ) ≤ (magnitudeUnits (magnitude w) : ℚ) / unitsPerOne :=
    div_nonneg (Nat.cast_nonneg _) (Nat.cast_nonneg _)
  have hfloor := floor_half_up (magnitudeUnits (magnitude w)) (c := unitsPerOne) (Nat.cast_pos.1 unitsPerOne_pos)
  rw [floatValue_eq, signedUnits, ← hfloor]
  cases floatSign w with
  | false =>
    rw [if_neg Bool.false_ne_true, if_neg Bool.false_ne_true, one_mul, isNearestHalfAway_iff_floor hnonneg, eq_comm]
  | true =>
    rw [if_pos rfl, if_pos rfl, neg_one_mul, ← neg_neg r, isNearestHalfAway_neg, isNearestHalfAway_iff_floor hnonneg,
      neg_inj, eq_comm]

/-- Settles O16: ROUND of a finite pattern is the half-up quotient of its units, which is the nearest integer. -/
theorem roundIsNearestHalfAway : Obligations.RoundIsNearestHalfAway := by
  intro v r
  rw [roundToDigit_eq_some_iff, eq_signedUnits_iff, IsNearestHalfAway, and_assoc]

end Sys2Proof.Machine
end

section
/-! PROOF. STOREDIG stores the digits of a sequence (spec/43_convert.md R225, R226). -/

namespace Sys2Proof.Machine

/-- The limit of either domain is within the capacity (R104). -/
theorem limit_le (p : Params) (dom : Dom) : limit p dom ≤ p.log2Nmax := by
  cases dom
  · exact le_rfl
  · exact min_le_left _ _

/-- The residue check constrains modular elements only (R164). -/
theorem residuesLegal_iff {p : Params} {dom : Dom} {es : List Elem} :
    residuesLegal p dom es = true ↔ (dom = .m → ∀ e ∈ es, e.residue < p.nttP) := by
  cases dom <;> simp [residuesLegal]

/-- STOREDIG's own effect, when every low word is written, legal in the domain and has a digit (R225). -/
theorem cmdStoredig_eq_ok {dom : Dom} {logn : Nat} {x y : BufIx} {s : State} {es : List Elem} {ds : List Int}
    (hlogn : logn ≤ limit s.cfg dom) (hes : s.elems .m y (2 ^ logn) = some es)
    (hlegal : residuesLegal s.cfg dom es = true) (hds : storedDigits dom es = some ds) :
    cmdStoredig dom logn x y s = .ok ((s.writeDigits x ds).setLen x (2 ^ logn)) := by
  simp only [cmdStoredig, if_neg hlogn.not_gt, hes, hlegal, if_true, hds]

/-! ### The elements STOREDIG reads -/

/-- The first `n` elements as the modular reading gives them, from their low words (R44). -/
def lowElems (lo : Nat → Word) (n : Nat) : List Elem := (List.range n).map fun i => { lo := lo i, hi := 0 }

section
variable {lo : Nat → Word} {n : Nat}

theorem State.elems_m_eq_lowElems {s : State} {y : BufIx} (h : ∀ i, i < n → s.elemLo y i = some (lo i)) :
    s.elems .m y n = some (lowElems lo n) := by
  refine State.elems_eq_some_iff.2 ⟨by simp [lowElems], fun i hi => ?_⟩
  have hin : i < n := by simpa [lowElems] using hi
  simp only [lowElems, List.getElem_map, List.getElem_range]
  exact congrArg (Option.map fun w => ({ lo := w, hi := 0 } : Elem)) (h i hin)

theorem residuesLegal_lowElems {p : Params} {dom : Dom}
    (h : dom = .m → ∀ i, i < n → (lo i).toNat < p.nttP) : residuesLegal p dom (lowElems lo n) = true := by
  refine residuesLegal_iff.2 fun hm e he => ?_
  obtain ⟨i, hi, rfl⟩ := List.mem_map.1 he
  exact h hm i (List.mem_range.1 hi)

theorem storedDigits_lowElems {dom : Dom} {d : Nat → Int} (h : ∀ i, i < n → toDigit dom (lo i) = some (d i)) :
    storedDigits dom (lowElems lo n) = some ((List.range n).map d) := by
  rw [storedDigits_eq_some_iff, lowElems, List.forall₂_map_left_iff, List.forall₂_map_right_iff, List.forall₂_same]
  exact fun i hi => h i (List.mem_range.1 hi)

end

/-- Settles O15: STOREDIG reads the low words, finds a digit for each, writes the digits and sets the length. -/
theorem storedigStoresTheDigits : Obligations.StoredigStoresTheDigits := by
  intro dom logn x y s lo d hcap hlogn hlo hres hdig
  have hok := cmdStoredig_eq_ok (x := x) hlogn (State.elems_m_eq_lowElems hlo) (residuesLegal_lowElems hres)
    (storedDigits_lowElems hdig)
  have hlt : 2 ^ logn < 2 ^ 32 :=
    Nat.pow_lt_pow_right one_lt_two (hlogn.trans ((limit_le s.cfg dom).trans hcap) |>.trans_lt (by decide))
  refine ⟨_, congrArg CmdResult.finish hok, ⟨rfl, rfl, rfl, rfl, rfl, rfl, rfl, rfl, rfl⟩, fun i hi => ?_, ?_, rfl,
    fun k hk => ?_, fun b hb => ?_⟩
  · exact State.digitWord_writeDigits (by simp [hi])
  · rw [State.len_complete, State.len_setLen, if_pos rfl, Nat.mod_eq_of_lt hlt]
  · rw [State.len_complete, State.len_setLen, if_neg hk.symm]
    exact ⟨rfl, rfl⟩
  · exact State.read_writeDigits_outside (by simpa using hb)

end Sys2Proof.Machine
end

section
/-! PROOF. The control rules (spec/45_control.md): NOP, its only word (R260), and a CMD write in either phase (R261). -/

namespace Sys2Proof

/-! ### The opcode of a word that decodes -/

/-- The check of R107 answers the command it is given, or no command. -/
theorem eq_of_requireZero_eq_ok {fields : List Nat} {i j : Instr} (h : requireZero fields j = .ok i) : j = i := by
  unfold requireZero at h
  split_ifs at h
  exact Decoded.ok.inj h

/-- The decoder dispatches on the OPC field (R102, R107). -/
theorem opcode_of_decode_ok {w : Word} {i : Instr} (h : decode w = .ok i) : i.opcode = field w 0 8 := by
  unfold decode at h
  split_ifs at h
  split at h
  case h_10 => cases h
  all_goals
    next hopc =>
      rw [← eq_of_requireZero_eq_ok h, hopc]
      rfl

/-- Under OPC 0 the fields that must be 0 make up the whole word (R105, R260). -/
theorem eq_zero_of_decode_ok_of_opc_zero {w : Word} {i : Instr} (hd : decode w = .ok i) (hopc : field w 0 8 = 0) :
    w = 0 := by
  obtain ⟨-, hzero⟩ := zeroFields_of_decode_ok hd
  rw [hopc] at hzero
  have hmasked : w &&& fieldsMask ((0, 8) :: zeroFields 0) = 0 :=
    and_fieldsMask_of_zero (List.forall_mem_cons.2 ⟨hopc, hzero⟩)
  have hmask : fieldsMask ((0, 8) :: zeroFields 0) = BitVec.allOnes 64 := by decide
  rwa [hmask, BitVec.and_allOnes] at hmasked

theorem decode_eq_ok_nop_iff {w : Word} : decode w = .ok .nop ↔ w = 0 := by
  constructor
  · intro h
    exact eq_zero_of_decode_ok_of_opc_zero h (opcode_of_decode_ok h).symm
  · rintro rfl
    rfl

/-- A word other than NOP's with OPC 0 is illegal (R260). -/
theorem decode_reject_of_opc_zero {w : Word} (hopc : field w 0 8 = 0) (hw : w ≠ 0) : ∃ e, decode w = .reject e := by
  cases hd : decode w with
  | ok i => exact absurd (eq_zero_of_decode_ok_of_opc_zero hd hopc) hw
  | reject e => exact ⟨e, rfl⟩

end Sys2Proof

namespace Sys2Proof.Machine

/-- NOP is its completion (R260, R263). -/
theorem exec_nop (s : State) : exec .nop s = .next (s.complete .none) := rfl

theorem engineStep_of_reject {w : Word} {e : DecodeReject} (hd : decode w = .reject e) (s : State) :
    engineStep w s = .next (s.complete .badcmd) := by
  simp only [engineStep, hd]

/-- A CMD write when `Busy` is an overrun, whatever the word (R38, R261). -/
theorem hostAccess_write_cmd_of_busy {s : State} {w : Word} (h : s.phase = .busy w) (v : Word) :
    hostAccess (.write 64 (s.cfg.apertureBase + 0x030) v) s = .next { s with ovr := true, resp := .ack } := by
  simp [hostAccess, hostWrite, route_cmd, Target.guarded, writeTarget, State.writeCmd, h]

/-- Settles O5: the write reaches CMD, and the phase decides between acceptance and overrun. -/
theorem commandWriteIsAcceptedOrOverruns : Obligations.CommandWriteIsAcceptedOrOverruns := by
  intro s v
  exact ⟨fun hidle => ⟨_, hostAccess_write_cmd_of_idle hidle v⟩,
    fun _ hbusy => ⟨_, hostAccess_write_cmd_of_busy hbusy v⟩⟩

/-- Settles O8: under OPC 0 every other bit of the word is reserved, so 0 decodes and no other word does. -/
theorem nopOnlyCompletes : Obligations.NopOnlyCompletes := by
  refine ⟨exec_nop, fun w => decode_eq_ok_nop_iff, fun s w hopc hw => ?_⟩
  have hfield : field w 0 8 = 0 := by rwa [field, pow_zero, Nat.div_one]
  obtain ⟨e, hd⟩ := decode_reject_of_opc_zero hfield hw
  exact engineStep_of_reject hd s

end Sys2Proof.Machine
end

section
/-! PROOF. The soft reset (spec/70_reset_and_hazards.md R311): the registers it clears, and the write set of the
command in flight, which it abandons (R312). -/

namespace Sys2Proof.Machine

/-! ### The write that resets -/

/-- The register map has CTRL at offset 0x020 (R71). -/
theorem route_ctrl (p : Params) : route p 64 (p.apertureBase + 0x020) = .reaches .ctrl := by
  rw [route_reaches_iff, Nat.add_sub_cancel_left]
  exact ⟨by omega, by omega, rfl, rfl, rfl⟩

/-- A CTRL write with SRST set is the soft reset, in either phase (R36, R311). -/
theorem hostAccess_write_ctrl_of_srst (s : State) {v : Word} (h : v.getLsbD 1 = true) :
    hostAccess (.write 64 (s.cfg.apertureBase + 0x020) v) s = .next { s.softReset with resp := .ack } := by
  simp [hostAccess, hostWrite, route_ctrl, Target.guarded, writeTarget, State.writeCtrl, h]

/-! ### The registers -/

@[simp] theorem State.len_softReset (s : State) (k : BufIx) : s.softReset.len k = 0 := by
  fin_cases k <;> rfl

@[simp] theorem State.sign_softReset (s : State) (k : BufIx) : s.softReset.sign k = false := by
  fin_cases k <;> rfl

@[simp] theorem State.mem_softReset (s : State) : s.softReset.mem = eraseAll s.mem (abandonedBytes s) := rfl

/-! ### The buffers -/

theorem abandonedBytes_of_idle {s : State} (hp : s.phase = .idle) : abandonedBytes s = [] := by
  simp only [abandonedBytes, hp]

theorem abandonedBytes_of_decode_reject {s : State} {w : Word} {e : DecodeReject} (hp : s.phase = .busy w)
    (hd : decode w = .reject e) : abandonedBytes s = [] := by
  simp only [abandonedBytes, hp, hd]

theorem abandonedBytes_of_decode_ok {s : State} {w : Word} {i : Instr} (hp : s.phase = .busy w)
    (hd : decode w = .ok i) : abandonedBytes s = writeSet s.cfg i := by
  simp only [abandonedBytes, hp, hd]

/-- With nothing to abandon the soft reset leaves memory as it is. -/
theorem sameMemory_softReset {s : State} (h : abandonedBytes s = []) : SameMemory s s.softReset := by
  intro b
  rw [State.mem_softReset, h]
  rfl

open Classical in
/-- A byte after the soft reset of a command in flight (R311, R312). -/
theorem State.read_softReset_of_decode_ok {s : State} {w : Word} {i : Instr} (hp : s.phase = .busy w)
    (hd : decode w = .ok i) (b : Nat) :
    s.softReset.mem.read b = if inWriteSet s.cfg i b then none else s.mem.read b := by
  rw [State.mem_softReset, abandonedBytes_of_decode_ok hp hd, read_eraseAll_writeSet]

/-- Settles O43: the write is the soft reset in either phase, and what it erases is the write set of the command in
flight, empty when `Idle` and for an illegal word. -/
theorem softResetAbandonsTheCommand : Obligations.SoftResetAbandonsTheCommand := by
  intro s v hv
  refine ⟨_, hostAccess_write_ctrl_of_srst s hv, rfl, rfl, rfl, rfl,
    fun k => ⟨State.len_softReset s k, State.sign_softReset s k⟩, rfl, rfl, fun hidle => ?_,
    fun w hbusy => ⟨fun hillegal => ?_, fun i hd b => ⟨fun hin => ?_, fun hout => ?_⟩⟩⟩
  · exact sameMemory_softReset (abandonedBytes_of_idle hidle)
  · cases hd : decode w with
    | ok i => exact absurd hd (hillegal i)
    | reject e => exact sameMemory_softReset (abandonedBytes_of_decode_reject hbusy hd)
  · exact (State.read_softReset_of_decode_ok hbusy hd b).trans (if_pos hin)
  · exact (State.read_softReset_of_decode_ok hbusy hd b).trans (if_neg hout)

end Sys2Proof.Machine
end

section
/-! PROOF. Encoding and decoding are inverse to each other, and a word decodes exactly when it matches a row of the
opcode table (spec/30_encoding.md R107, R109). -/

namespace Sys2Proof

/-! ### The fields of a packed word (R101, R109) -/

section
variable {opc dom logn x y z : Nat} (hopc : opc < 2 ^ 8) (hdom : dom < 2 ^ 1) (hlogn : logn < 2 ^ 5)
  (hx : x < 2 ^ 2) (hy : y < 2 ^ 2) (hz : z < 2 ^ 2)
include hopc hdom hlogn hx hy hz

theorem toNat_packFields : (packFields opc dom logn x y z).toNat =
    opc + dom * 2 ^ 8 + logn * 2 ^ 16 + x * 2 ^ 24 + y * 2 ^ 26 + z * 2 ^ 28 := by
  rw [packFields, BitVec.toNat_ofNat]
  omega

/-- The fields of a packed word are the numbers it was packed from, and its reserved bits are 0. -/
theorem field_packFields : (field (packFields opc dom logn x y z) 9 7 = 0 ∧
      field (packFields opc dom logn x y z) 21 3 = 0 ∧ field (packFields opc dom logn x y z) 30 34 = 0) ∧
    field (packFields opc dom logn x y z) 0 8 = opc ∧ field (packFields opc dom logn x y z) 8 1 = dom ∧
    field (packFields opc dom logn x y z) 16 5 = logn ∧ field (packFields opc dom logn x y z) 24 2 = x ∧
    field (packFields opc dom logn x y z) 26 2 = y ∧ field (packFields opc dom logn x y z) 28 2 = z := by
  simp only [field, toNat_packFields hopc hdom hlogn hx hy hz]
  omega

end

theorem field_lt (w : Word) (lo len : Nat) : field w lo len < 2 ^ len := Nat.mod_lt _ (Nat.two_pow_pos len)

/-- A word whose reserved bits are 0 is packed from its fields. -/
theorem packFields_fields {w : Word} (h : field w 9 7 = 0 ∧ field w 21 3 = 0 ∧ field w 30 34 = 0) :
    packFields (field w 0 8) (field w 8 1) (field w 16 5) (field w 24 2) (field w 26 2) (field w 28 2) = w := by
  have hw := w.isLt
  refine BitVec.eq_of_toNat_eq ?_
  rw [toNat_packFields (field_lt ..) (field_lt ..) (field_lt ..) (field_lt ..) (field_lt ..) (field_lt ..)]
  simp only [field] at h ⊢
  omega

/-! ### Operands and their fields (R103, R105) -/

theorem Dom.bit_lt (d : Dom) : d.bit < 2 ^ 1 := by cases d <;> decide

@[simp] theorem domOfBit_bit (d : Dom) : domOfBit d.bit = d := by cases d <;> rfl

@[simp] theorem bit_domOfBit_field (w : Word) (lo : Nat) : (domOfBit (field w lo 1)).bit = field w lo 1 := by
  have := field_lt w lo 1
  obtain h | h : field w lo 1 = 0 ∨ field w lo 1 = 1 := by omega
  all_goals rw [h]; rfl

@[simp] theorem bufIxOf_val (k : BufIx) : bufIxOf k = k := by simp [bufIxOf]

@[simp] theorem val_bufIxOf_field (w : Word) (lo : Nat) : (bufIxOf (field w lo 2)).val = field w lo 2 :=
  Nat.mod_eq_of_lt (field_lt w lo 2)

@[simp] theorem lognFits_field (w : Word) (lo : Nat) : lognFits (field w lo 5) = true :=
  decide_eq_true (field_lt w lo 5)

/-! ### Decoding an encoded command, encoding a decoded word (R107, R109) -/

/-- Settles O1: the decoder finds in the packed word the opcode and the fields it was packed from, and 0 in every
reserved or unused field. -/
theorem decodeOfEncode : Obligations.DecodeOfEncode := by
  have hzero : (0 : Nat) < 2 ^ 2 := by decide
  intro i hwf
  cases i with
  | nop => rfl
  | loadseq d n x y =>
    simp [decode, encode, requireZero,
      field_packFields (opc := 1) (by decide) d.bit_lt (of_decide_eq_true hwf) x.isLt y.isLt hzero]
  | storedig d n x y =>
    simp [decode, encode, requireZero,
      field_packFields (opc := 2) (by decide) d.bit_lt (of_decide_eq_true hwf) x.isLt y.isLt hzero]
  | fwd d n x =>
    simp [decode, encode, requireZero,
      field_packFields (opc := 3) (by decide) d.bit_lt (of_decide_eq_true hwf) x.isLt hzero hzero]
  | inv d n x =>
    simp [decode, encode, requireZero,
      field_packFields (opc := 4) (by decide) d.bit_lt (of_decide_eq_true hwf) x.isLt hzero hzero]
  | pmul d n x y z =>
    simp [decode, encode, requireZero,
      field_packFields (opc := 5) (by decide) d.bit_lt (of_decide_eq_true hwf) x.isLt y.isLt z.isLt]
  | pmac d n x y z =>
    simp [decode, encode, requireZero,
      field_packFields (opc := 6) (by decide) d.bit_lt (of_decide_eq_true hwf) x.isLt y.isLt z.isLt]
  | norm x =>
    simp [decode, encode, requireZero,
      field_packFields (opc := 7) (by decide) (dom := 0) (by decide) (logn := 0) (by decide) x.isLt hzero hzero]
  | mul d x y z =>
    simp [decode, encode, requireZero,
      field_packFields (opc := 8) (by decide) d.bit_lt (logn := 0) (by decide) x.isLt y.isLt z.isLt]

/-- Settles O2: the decoded command has the word's own fields as operands, and the fields it does not use are 0. -/
theorem encodeOfDecode : Obligations.EncodeOfDecode := by
  intro w i h
  unfold decode at h
  split_ifs at h with hset
  have hpack := packFields_fields (w := w) (by omega)
  split at h
  case h_10 => cases h
  all_goals
    next hopc =>
      have hcmd := eq_of_requireZero_eq_ok h
      unfold requireZero at h
      split_ifs at h with hzero
      rw [← hcmd]
      refine ⟨by simp [Instr.wf], Eq.trans ?_ hpack⟩
      simp_all [encode]

/-! ### The rows of the opcode table (R107) -/

/-- Words that agree under a field's mask agree in the field. -/
theorem field_eq_of_and_fieldMask_eq {v w : Word} {lo len : Nat} (hlen : lo + len ≤ 64)
    (h : v &&& fieldMask lo len = w &&& fieldMask lo len) : field v lo len = field w lo len := by
  have hlt : ∀ u : Word, field u lo len * 2 ^ lo < 2 ^ 64 := fun u =>
    calc field u lo len * 2 ^ lo < 2 ^ len * 2 ^ lo := Nat.mul_lt_mul_of_pos_right (field_lt ..) (Nat.two_pow_pos lo)
      _ = 2 ^ (lo + len) := by rw [← pow_add, Nat.add_comm]
      _ ≤ 2 ^ 64 := Nat.pow_le_pow_right two_pos hlen
  rw [and_fieldMask, and_fieldMask, ← BitVec.toNat_inj, BitVec.toNat_ofNat, BitVec.toNat_ofNat,
    Nat.mod_eq_of_lt (hlt v), Nat.mod_eq_of_lt (hlt w)] at h
  exact Nat.eq_of_mul_eq_mul_right (Nat.two_pow_pos lo) h

/-- A mask of fields keeps each of them. -/
theorem fieldsMask_and_fieldMask {fs : List (Nat × Nat)} {f : Nat × Nat} (hf : f ∈ fs) :
    fieldsMask fs &&& fieldMask f.1 f.2 = fieldMask f.1 f.2 := by
  induction fs with
  | nil => cases hf
  | cons g fs ih =>
    change (fieldMask g.1 g.2 ||| fieldsMask fs) &&& fieldMask f.1 f.2 = fieldMask f.1 f.2
    refine BitVec.eq_of_getLsbD_eq fun i _ => ?_
    rcases List.mem_cons.1 hf with rfl | hf
    · simp only [BitVec.getLsbD_and, BitVec.getLsbD_or]
      cases (fieldMask f.1 f.2).getLsbD i <;> simp
    · have hi := congrArg (·.getLsbD i) (ih hf)
      simp only [BitVec.getLsbD_and, BitVec.getLsbD_or] at hi ⊢
      rw [Bool.and_or_distrib_right, hi]
      cases (fieldMask f.1 f.2).getLsbD i <;> simp

/-- A word that a mask of fields takes to `v` has the fields of `v`. -/
theorem field_eq_of_and_fieldsMask {w v : Word} {fs : List (Nat × Nat)} {f : Nat × Nat} (h : w &&& fieldsMask fs = v)
    (hf : f ∈ fs) (hlen : f.1 + f.2 ≤ 64) : field w f.1 f.2 = field v f.1 f.2 := by
  refine field_eq_of_and_fieldMask_eq hlen ?_
  rw [← h, BitVec.and_assoc, fieldsMask_and_fieldMask hf]

/-- The row of an opcode: its mask covers the OPC field and the opcode's zero fields. -/
def opcodeRow (opc : Nat) : Word × Word := (fieldsMask ((0, 8) :: zeroFields opc), BitVec.ofNat 64 opc)

theorem opcodeRows_eq : opcodeRows = (List.range 9).map opcodeRow := by decide

theorem mem_opcodeRows_iff {r : Word × Word} : r ∈ opcodeRows ↔ ∃ opc < 9, r = opcodeRow opc := by
  simp [opcodeRows_eq, eq_comm]

/-- The match of a row has the opcode in OPC and 0 in the opcode's zero fields. -/
theorem field_opcode : ∀ opc < 9, field (BitVec.ofNat 64 opc) 0 8 = opc ∧
    ∀ f ∈ zeroFields opc, f.1 + f.2 ≤ 64 ∧ field (BitVec.ofNat 64 opc) f.1 f.2 = 0 := by
  decide

/-- What the row of an opcode tests: the OPC field is the opcode, and the opcode's zero fields are 0. -/
theorem zeroFields_of_row {w : Word} {opc : Nat} (hopc : opc < 9) (h : w &&& (opcodeRow opc).1 = (opcodeRow opc).2) :
    field w 0 8 = opc ∧ ∀ f ∈ zeroFields opc, field w f.1 f.2 = 0 := by
  obtain ⟨hmatch, hzero⟩ := field_opcode opc hopc
  refine ⟨?_, fun f hf => ?_⟩
  · exact (field_eq_of_and_fieldsMask h List.mem_cons_self (by decide)).trans hmatch
  · obtain ⟨hlen, hf0⟩ := hzero f hf
    exact (field_eq_of_and_fieldsMask h (List.mem_cons_of_mem _ hf) hlen).trans hf0

theorem requireZero_of_fields_zero {w : Word} {fs : List (Nat × Nat)} (h : ∀ f ∈ fs, field w f.1 f.2 = 0) (i : Instr) :
    requireZero (fs.map fun f => field w f.1 f.2) i = .ok i := by
  rw [requireZero, if_pos]
  simpa using h

/-- A word with a defined opcode whose zero fields are 0 decodes (R107). -/
theorem decode_ok_of_zeroFields {w : Word} (hopc : field w 0 8 < 9)
    (hzero : ∀ f ∈ zeroFields (field w 0 8), field w f.1 f.2 = 0) : ∃ i, decode w = .ok i := by
  obtain ⟨hreserved, hunused⟩ := List.forall_mem_append.1 hzero
  have hset : ¬(field w 9 7 ≠ 0 ∨ field w 21 3 ≠ 0 ∨ field w 30 34 ≠ 0) := by
    simpa [reservedFields] using hreserved
  have hok := requireZero_of_fields_zero hunused
  unfold decode
  rw [if_neg hset]
  generalize field w 0 8 = opc at hopc hok
  interval_cases opc
  all_goals exact ⟨_, hok _⟩

/-- Settles O3: a row tests the opcode and its zero fields, which is what the decoder tests; two rows that match have
the word's OPC field in common. -/
theorem decodesExactlyTheTableRows : Obligations.DecodesExactlyTheTableRows := by
  intro w
  refine ⟨⟨fun ⟨i, hi⟩ => row_of_decode_ok hi, fun ⟨r, hr, hrow⟩ => ?_⟩, fun r hr q hq hrow hqow => ?_⟩
  · obtain ⟨opc, hlt, rfl⟩ := mem_opcodeRows_iff.1 hr
    obtain ⟨hopc, hzero⟩ := zeroFields_of_row hlt hrow
    subst hopc
    exact decode_ok_of_zeroFields hlt hzero
  · obtain ⟨opc, hlt, rfl⟩ := mem_opcodeRows_iff.1 hr
    obtain ⟨opc', hlt', rfl⟩ := mem_opcodeRows_iff.1 hq
    rw [← (zeroFields_of_row hlt hrow).1, ← (zeroFields_of_row hlt' hqow).1]

/-- Settles O4: each word decodes by evaluation. -/
theorem specWordsDecode : Obligations.SpecWordsDecode := by
  unfold Obligations.SpecWordsDecode
  decide

end Sys2Proof
end

section
/-! PROOF. What every command can do to the state: a few kinds of writes to the buffers of its write set, then its
completion (spec/45_control.md R263, spec/70_reset_and_hazards.md R312). -/

namespace Sys2Proof.Machine

/-! ### Effects -/

/-- `t` is reached from `s` by writes to the first `n` entries of sequence buffers of `seqs` and of digit buffers of
`digs`, and by setting lengths and signs of digit buffers of `digs`. -/
inductive Effect (n : Nat) (seqs digs : BufIx → Prop) (s : State) : State → Prop where
  | refl : Effect n seqs digs s s
  | writeElems {t : State} {x : BufIx} {es : List Elem} (h : Effect n seqs digs s t) (hx : seqs x)
      (hlen : es.length ≤ n) : Effect n seqs digs s (t.writeElems x es)
  | writeDigits {t : State} {x : BufIx} {ds : List Int} (h : Effect n seqs digs s t) (hx : digs x)
      (hlen : ds.length ≤ n) : Effect n seqs digs s (t.writeDigits x ds)
  | setLen {t : State} {x : BufIx} (h : Effect n seqs digs s t) (hx : digs x) (len : Nat) :
      Effect n seqs digs s (t.setLen x len)
  | setSign {t : State} {x : BufIx} (h : Effect n seqs digs s t) (hx : digs x) (b : Bool) :
      Effect n seqs digs s (t.setSign x b)

namespace Effect

section
variable {n : Nat} {seqs digs : BufIx → Prop} {s t : State} (h : Effect n seqs digs s t)
include h

theorem cfg_eq : t.cfg = s.cfg := by
  induction h with
  | refl => rfl
  | _ => assumption

theorem trans {u : State} (h' : Effect n seqs digs t u) : Effect n seqs digs s u := by
  induction h' with
  | refl => exact h
  | writeElems _ hx hlen ih => exact ih.writeElems hx hlen
  | writeDigits _ hx hlen ih => exact ih.writeDigits hx hlen
  | setLen _ hx len ih => exact ih.setLen hx len
  | setSign _ hx b ih => exact ih.setSign hx b

/-- Completing after an effect leaves the control state as completion of `s` leaves it (R263). -/
theorem completed (e : ErrCode) : Completed s (t.complete e) e := by
  induction h with
  | refl => exact ⟨rfl, rfl, rfl, rfl, rfl, rfl, rfl, rfl, rfl⟩
  | writeElems _ _ _ ih => exact ⟨rfl, rfl, rfl, ih.cfg, ih.ie, ih.ovr, ih.curCmd, ih.events, ih.resp⟩
  | writeDigits _ _ _ ih => exact ⟨rfl, rfl, rfl, ih.cfg, ih.ie, ih.ovr, ih.curCmd, ih.events, ih.resp⟩
  | setLen _ _ _ ih => exact ⟨rfl, rfl, rfl, ih.cfg, ih.ie, ih.ovr, ih.curCmd, ih.events, ih.resp⟩
  | setSign _ _ _ ih => exact ⟨rfl, rfl, rfl, ih.cfg, ih.ie, ih.ovr, ih.curCmd, ih.events, ih.resp⟩

/-- A byte outside the entries an effect may write reads as before. -/
theorem read_eq {b : Nat} (hs : ∀ k, seqs k → b < elemAddr k 0 ∨ elemAddr k 0 + 16 * n ≤ b)
    (hd : ∀ k, digs k → b < digitAddr k 0 ∨ digitAddr k 0 + 8 * n ≤ b) : t.mem.read b = s.mem.read b := by
  induction h with
  | refl => rfl
  | @writeElems t x es _ hx hlen ih =>
    have hout := hs x hx
    rw [State.read_writeElems_outside (by omega), ih]
  | @writeDigits t x ds _ hx hlen ih =>
    have hout := hd x hx
    rw [State.read_writeDigits_outside (by omega), ih]
  | setLen _ _ _ ih => exact ih
  | setSign _ _ _ ih => exact ih

theorem sameLengths (hd : ∀ k, ¬digs k) : SameLengths s t := by
  induction h with
  | refl => exact ⟨rfl, rfl⟩
  | writeElems _ _ _ ih => exact ih
  | writeDigits _ _ _ ih => exact ih
  | setLen _ hx => exact absurd hx (hd _)
  | setSign _ hx => exact absurd hx (hd _)

/-- Only lengths and signs of the digit buffers of an effect change. -/
theorem sameOtherLengths {k : BufIx} (hk : ¬digs k) : t.len k = s.len k ∧ t.sign k = s.sign k := by
  induction h with
  | refl => exact ⟨rfl, rfl⟩
  | writeElems _ _ _ ih => exact ih
  | writeDigits _ _ _ ih => exact ih
  | @setLen t x _ hx len ih =>
    have hne : x ≠ k := fun hxk => hk (hxk ▸ hx)
    rw [State.len_setLen, if_neg hne, State.sign_setLen]
    exact ih
  | @setSign t x _ hx b ih =>
    have hne : x ≠ k := fun hxk => hk (hxk ▸ hx)
    rw [State.sign_setSign, if_neg hne, State.len_setSign]
    exact ih

end

end Effect

/-! ### The effect of each command (R312) -/

/-- The sequence buffers of a command's write set. -/
def writesSequence : Instr → BufIx → Prop
  | .loadseq _ _ x _, k => k = x
  | .fwd _ _ x, k => k = x
  | .inv _ _ x, k => k = x
  | .pmul _ _ x _ _, k => k = x
  | .pmac _ _ x _ _, k => k = x
  | .mul _ _ _ _, k => k = 0 ∨ k = 1
  | _, _ => False

/-- The digit buffers of a command's write set. -/
def writesDigits : Instr → BufIx → Prop
  | .storedig _ _ x _, k => k = x
  | .norm x, k => k = x
  | .mul _ x _ _, k => k = x
  | _, _ => False

theorem inWriteSet_of_writesSequence {p : Params} {i : Instr} {k : BufIx} {b : Nat} (hk : writesSequence i k)
    (hb : inSequence p k b) : inWriteSet p i b := by
  cases i with
  | mul dom x y z =>
    rcases hk with rfl | rfl
    · exact .inl hb
    · exact .inr (.inl hb)
  | nop => exact hk.elim
  | storedig => exact hk.elim
  | norm => exact hk.elim
  | _ => exact (hk : k = _) ▸ hb

theorem inWriteSet_of_writesDigits {p : Params} {i : Instr} {k : BufIx} {b : Nat} (hk : writesDigits i k)
    (hb : inDigits p k b) : inWriteSet p i b := by
  cases i with
  | storedig dom logn x y => exact (hk : k = x) ▸ hb
  | norm x => exact (hk : k = x) ▸ hb
  | mul dom x y z => exact .inr (.inr ((hk : k = x) ▸ hb))
  | _ => exact hk.elim

/-- `u` is the state a command's statements end in, with or without an error. -/
def CmdResult.EndsIn (r : CmdResult) (u : State) : Prop := r = .ok u ∨ ∃ e, r = .error e u

theorem two_pow_le_nMax {p : Params} {dom : Dom} {logn : Nat} (h : logn ≤ limit p dom) : 2 ^ logn ≤ p.nMax :=
  Nat.pow_le_pow_right two_pos (h.trans (limit_le p dom))

section
variable {n : Nat} {seqs digs : BufIx → Prop} {dom : Dom} {logn : Nat} {x y z : BufIx} {s u : State}

theorem cmdLoadseq_effect (hn : logn ≤ limit s.cfg dom → 2 ^ logn ≤ n) (hx : seqs x)
    (h : (cmdLoadseq dom logn x y s).EndsIn u) : Effect n seqs digs s u := by
  rcases h with h | ⟨e, h⟩
  · obtain ⟨-, hlogn, hlen, ds, hds, rfl⟩ := cmdLoadseq_ok h
    refine Effect.refl.writeElems hx ?_
    have := (State.digits_eq_some_iff.1 hds).1
    have := hn hlogn
    rw [List.length_map, List.length_append, List.length_replicate]
    omega
  · rw [(cmdLoadseq_error h).1]
    exact .refl

theorem cmdStoredig_effect (hn : logn ≤ limit s.cfg dom → 2 ^ logn ≤ n) (hx : digs x)
    (h : (cmdStoredig dom logn x y s).EndsIn u) : Effect n seqs digs s u := by
  rcases h with h | ⟨e, h⟩
  · obtain ⟨hlogn, es, ds, hes, -, hds, rfl⟩ := cmdStoredig_ok h
    refine (Effect.refl.writeDigits hx ?_).setLen hx _
    rw [← (storedDigits_eq_some_iff.1 hds).length_eq, (State.elems_eq_some_iff.1 hes).1]
    exact hn hlogn
  · rw [(cmdStoredig_error h).1]
    exact .refl

theorem cmdFwd_effect (hn : logn ≤ limit s.cfg dom → 2 ^ logn ≤ n) (hx : seqs x)
    (h : (cmdFwd dom logn x s).EndsIn u) : Effect n seqs digs s u := by
  rcases h with h | ⟨e, h⟩
  · obtain ⟨hlogn, a, ha, -, rfl⟩ := cmdFwd_ok h
    refine Effect.refl.writeElems hx ?_
    rw [length_transform _ _ _ _ _ (State.elems_eq_some_iff.1 ha).1]
    exact hn hlogn
  · rw [(cmdFwd_error h).1]
    exact .refl

theorem cmdInv_effect (hn : logn ≤ limit s.cfg dom → 2 ^ logn ≤ n) (hx : seqs x)
    (h : (cmdInv dom logn x s).EndsIn u) : Effect n seqs digs s u := by
  rcases h with h | ⟨e, h⟩
  · obtain ⟨hlogn, a, ha, -, rfl⟩ := cmdInv_ok h
    refine Effect.refl.writeElems hx ?_
    rw [List.length_map, length_transform _ _ _ _ _ (State.elems_eq_some_iff.1 ha).1]
    exact hn hlogn
  · rw [(cmdInv_error h).1]
    exact .refl

theorem cmdPmul_effect (hn : logn ≤ limit s.cfg dom → 2 ^ logn ≤ n) (hx : seqs x)
    (h : (cmdPmul dom logn x y z s).EndsIn u) : Effect n seqs digs s u := by
  rcases h with h | ⟨e, h⟩
  · obtain ⟨hlogn, as, bs, has, -, -, -, rfl⟩ := cmdPmul_ok h
    refine Effect.refl.writeElems hx ?_
    have := (State.elems_eq_some_iff.1 has).1
    have := hn hlogn
    rw [List.length_zipWith]
    omega
  · rw [(cmdPmul_error h).1]
    exact .refl

theorem cmdPmac_effect (hn : logn ≤ limit s.cfg dom → 2 ^ logn ≤ n) (hx : seqs x)
    (h : (cmdPmac dom logn x y z s).EndsIn u) : Effect n seqs digs s u := by
  rcases h with h | ⟨e, h⟩
  · obtain ⟨hlogn, accs, as, bs, hcs, -, -, -, -, -, rfl⟩ := cmdPmac_ok h
    refine Effect.refl.writeElems hx ?_
    have := (State.elems_eq_some_iff.1 hcs).1
    have := hn hlogn
    rw [List.length_zipWith]
    omega
  · rw [(cmdPmac_error h).1]
    exact .refl

/-- The digits a NORM without error commits fit the buffer, padding included. -/
theorem commitNorm_bounds {ds v : List Int} (hlen : s.len x ≤ s.cfg.nMax) (hds : s.digits x (s.len x) = some ds)
    (hv : phase1 s.cfg.nMax (normInput ds) = .ok v) :
    phase2 v ≠ [] ∧ nextPow2 (sigLength (phase2 v)) ≤ s.cfg.nMax ∧ (phase2 v).length ≤ s.cfg.nMax := by
  rw [← (State.digits_eq_some_iff.1 hds).1] at hlen
  obtain ⟨hne, hfit⟩ := phase1_normInput_length (Nat.two_pow_pos _) hlen hv
  have hp : phase2 v ≠ [] := by simpa [← List.length_eq_zero_iff] using hne
  have hfit : (phase2 v).length ≤ s.cfg.nMax := by rwa [length_phase2]
  exact ⟨hp, nextPow2_le ((sigLength_le_length hp).trans hfit), hfit⟩

theorem cmdNorm_effect (hn : s.cfg.nMax ≤ n) (hx : digs x) (h : (cmdNorm x s).EndsIn u) : Effect n seqs digs s u := by
  rcases h with h | ⟨e, h⟩
  · obtain ⟨hlen, ds, v, hds, hv, rfl⟩ := cmdNorm_ok h
    obtain ⟨hp, hcap, hfit⟩ := commitNorm_bounds hlen hds hv
    rw [commitNorm_eq]
    refine ((Effect.refl.writeDigits hx ?_).setLen hx _).setSign hx _
    rw [length_padTo hp ((le_nextPow2 _).trans (le_max_left ..))]
    exact (max_le hcap hfit).trans hn
  · rw [(cmdNorm_error h).1]
    exact .refl

/-- The effects of two commands, one after the other. -/
theorem andThen_effect {r : CmdResult} {k : State → CmdResult} (h : (r.andThen k).EndsIn u)
    (hr : ∀ v, r.EndsIn v → Effect n seqs digs s v)
    (hk : ∀ v w, v.cfg = s.cfg → (k v).EndsIn w → Effect n seqs digs v w) : Effect n seqs digs s u := by
  have hnext : ∀ {v}, r = .ok v → (k v).EndsIn u → Effect n seqs digs s u := fun hv hu =>
    (hr _ (.inl hv)).trans (hk _ u (hr _ (.inl hv)).cfg_eq hu)
  rcases h with h | ⟨e, h⟩
  · obtain ⟨v, hv, hu⟩ := CmdResult.andThen_eq_ok_iff.1 h
    exact hnext hv (.inl hu)
  · rcases CmdResult.andThen_eq_error_iff.1 h with h | ⟨v, hv, hu⟩
    · exact hr u (.inr ⟨e, h⟩)
    · exact hnext hv (.inr ⟨e, hu⟩)

theorem mulSequence_effect (hn : 2 ^ logn ≤ n) (h0 : seqs 0) (h1 : seqs 1)
    (h : (mulSequence dom logn y z s).EndsIn u) : Effect n seqs digs s u := by
  refine andThen_effect h (fun v h => andThen_effect h (fun v h => andThen_effect h (fun v h =>
    andThen_effect h (fun v h => andThen_effect h (fun v h => ?_) ?_) ?_) ?_) ?_) ?_
  · exact cmdLoadseq_effect (fun _ => hn) h0 h
  · exact fun _ _ _ => cmdLoadseq_effect (fun _ => hn) h1
  · exact fun _ _ _ => cmdFwd_effect (fun _ => hn) h0
  · exact fun _ _ _ => cmdFwd_effect (fun _ => hn) h1
  · exact fun _ _ _ => cmdPmul_effect (fun _ => hn) h0
  · exact fun _ _ _ => cmdInv_effect (fun _ => hn) h0

theorem EndsIn_error_iff {e : ErrCode} {t : State} : (CmdResult.error e t).EndsIn u ↔ u = t := by
  simp [CmdResult.EndsIn, eq_comm]

theorem cmdMul_effect (hn : s.cfg.nMax ≤ n) (h0 : seqs 0) (h1 : seqs 1) (hx : digs x)
    (h : (cmdMul dom x y z s).EndsIn u) : Effect n seqs digs s u := by
  unfold cmdMul at h
  simp only at h
  split_ifs at h with hlen hlogn
  · rw [EndsIn_error_iff.1 h]
    exact .refl
  · rw [EndsIn_error_iff.1 h]
    exact .refl
  · have hk := (two_pow_le_nMax (not_lt.1 hlogn)).trans hn
    refine andThen_effect h (fun v h => andThen_effect h (fun v h => andThen_effect h (fun v h => ?_) ?_) ?_) ?_
    · exact mulSequence_effect hk h0 h1 h
    · exact fun _ _ _ => cmdStoredig_effect (fun _ => hk) hx
    · rintro v w - (h | ⟨e, h⟩)
      · cases h
        exact Effect.refl.setSign hx _
      · cases h
    · exact fun v _ hcfg => cmdNorm_effect (hcfg ▸ hn) hx

end

/-! ### Every command -/

/-- The statements of a command, before its completion (R262). -/
def cmd : Instr → State → CmdResult
  | .nop => cmdNop
  | .loadseq dom logn x y => cmdLoadseq dom logn x y
  | .storedig dom logn x y => cmdStoredig dom logn x y
  | .fwd dom logn x => cmdFwd dom logn x
  | .inv dom logn x => cmdInv dom logn x
  | .pmul dom logn x y z => cmdPmul dom logn x y z
  | .pmac dom logn x y z => cmdPmac dom logn x y z
  | .norm x => cmdNorm x
  | .mul dom x y z => cmdMul dom x y z

/-- A command is its statements and their completion (R262, R263). -/
theorem exec_eq_finish (i : Instr) (s : State) : exec i s = (cmd i s).finish := by cases i <;> rfl

theorem cmd_effect {i : Instr} {s u : State} (h : (cmd i s).EndsIn u) :
    Effect s.cfg.nMax (writesSequence i) (writesDigits i) s u := by
  cases i with
  | nop =>
    rcases h with h | ⟨e, h⟩ <;> cases h
    exact .refl
  | loadseq => exact cmdLoadseq_effect two_pow_le_nMax rfl h
  | storedig => exact cmdStoredig_effect two_pow_le_nMax rfl h
  | fwd => exact cmdFwd_effect two_pow_le_nMax rfl h
  | inv => exact cmdInv_effect two_pow_le_nMax rfl h
  | pmul => exact cmdPmul_effect two_pow_le_nMax rfl h
  | pmac => exact cmdPmac_effect two_pow_le_nMax rfl h
  | norm => exact cmdNorm_effect le_rfl rfl h
  | mul => exact cmdMul_effect le_rfl (.inl rfl) (.inr rfl) rfl h

/-- A command that answers a next state has completed after an effect within its write set. -/
theorem exec_eq_next {i : Instr} {s t : State} (h : exec i s = .next t) :
    ∃ u, Effect s.cfg.nMax (writesSequence i) (writesDigits i) s u ∧ t = u.complete t.err := by
  rw [exec_eq_finish, CmdResult.finish_eq_next_iff] at h
  rcases h with ⟨u, hu, rfl⟩ | ⟨e, u, hu, rfl⟩
  · exact ⟨u, cmd_effect (.inl hu), rfl⟩
  · exact ⟨u, cmd_effect (.inr ⟨e, hu⟩), rfl⟩

/-- Settles O9: an effect changes no control register, and completion sets the phase, DONE and ERR. -/
theorem completionKeepsControlState : Obligations.CompletionKeepsControlState := by
  intro i s t h
  obtain ⟨u, hu, ht⟩ := exec_eq_next h
  have hcompleted : Completed s t t.err := by
    rw [ht]
    exact hu.completed t.err
  exact ⟨hcompleted, fun hie => by rw [State.irq, hcompleted.ie, hcompleted.done, hie]; rfl⟩

/-- Settles O11: the buffers of a command's effect make up its write set. -/
theorem commandWritesOnlyItsWriteSet : Obligations.CommandWritesOnlyItsWriteSet := by
  intro i s t b h hout
  obtain ⟨u, hu, ht⟩ := exec_eq_next h
  rw [ht]
  refine hu.read_eq (fun k hk => ?_) fun k hk => ?_
  · have hseq : ¬inSequence s.cfg k b := fun hb => hout (inWriteSet_of_writesSequence hk hb)
    rw [inSequence, ← elemAddr_add k s.cfg.nMax] at hseq
    omega
  · have hdig : ¬inDigits s.cfg k b := fun hb => hout (inWriteSet_of_writesDigits hk hb)
    rw [inDigits, ← digitAddr_add k s.cfg.nMax] at hdig
    omega

/-- Except for MUL an error of a command leaves the state it started from (R271). -/
theorem cmd_error {i : Instr} {e : ErrCode} {s u : State} (hi : ∀ dom x y z, i ≠ .mul dom x y z)
    (h : cmd i s = .error e u) : u = s := by
  cases i with
  | nop => cases h
  | loadseq => exact (cmdLoadseq_error h).1
  | storedig => exact (cmdStoredig_error h).1
  | fwd => exact (cmdFwd_error h).1
  | inv => exact (cmdInv_error h).1
  | pmul => exact (cmdPmul_error h).1
  | pmac => exact (cmdPmac_error h).1
  | norm => exact (cmdNorm_error h).1
  | mul dom x y z => exact absurd rfl (hi dom x y z)

/-- Settles O10: every other command raises its errors before it writes. -/
theorem errorWritesNothingExceptMul : Obligations.ErrorWritesNothingExceptMul := by
  intro i s t hi h herr
  rw [exec_eq_finish, CmdResult.finish_eq_next_iff] at h
  rcases h with ⟨u, -, rfl⟩ | ⟨e, u, hu, rfl⟩
  · exact absurd rfl herr
  · rw [cmd_error hi hu]
    rfl

end Sys2Proof.Machine
end

section
/-! PROOF. The invariant, at reset and over a step (spec/10_state.md, spec/45_control.md): the canonical form of
memory, its bounds, and what BUSY says of CUR_CMD, DONE and ERR. -/

namespace Sys2Proof.Machine

/-! ### Memory within the buffers -/

/-- A memory in canonical form that holds buffer entries only: the second and third part of the invariant. -/
def Memory.Bounded (p : Params) (m : Memory) : Prop := m.wf ∧ ∀ c ∈ m, inBuffers p c.1

theorem Memory.bounded_nil (p : Params) : Memory.Bounded p [] := ⟨List.Pairwise.nil, by simp⟩

/-- Writing words inside the buffers keeps memory bounded. -/
theorem Memory.Bounded.writeWords {p : Params} {m : Memory} (h : m.Bounded p) {a : Nat} {ws : List Word}
    (ha : ∀ b, a ≤ b → b < a + 8 * ws.length → inBuffers p b) : (m.writeWords a ws).Bounded p := by
  refine ⟨Memory.wf_writeWords h.1 a ws, fun c hc => ?_⟩
  rcases Memory.mem_write hc with hc | ⟨hlo, hhi⟩
  · exact h.2 c hc
  · exact ha c.1 hlo (by rwa [length_flatMap_bytesOfWord] at hhi)

theorem Memory.Bounded.eraseAll {p : Params} {m : Memory} (h : m.Bounded p) (rs : List (Nat × Nat)) :
    (eraseAll m rs).Bounded p :=
  ⟨wf_eraseAll h.1 rs, fun c hc => h.2 c (mem_eraseAll hc)⟩

/-- The entries of a digit buffer below the capacity are buffer bytes. -/
theorem inBuffers_digits {p : Params} {k : BufIx} {i n b : Nat} (hn : i + n ≤ p.nMax) (hlo : digitAddr k i ≤ b)
    (hhi : b < digitAddr k i + 8 * n) : inBuffers p b := by
  rw [← digitAddr_add] at hlo hhi
  exact ⟨k, .inl (by omega)⟩

/-- The elements of a sequence buffer below the capacity are buffer bytes. -/
theorem inBuffers_elems {p : Params} {k : BufIx} {i n b : Nat} (hn : i + n ≤ p.nMax) (hlo : elemAddr k i ≤ b)
    (hhi : b < elemAddr k i + 16 * n) : inBuffers p b := by
  rw [← elemAddr_add] at hlo hhi
  exact ⟨k, .inr (by omega)⟩

/-- The writes of a command keep memory bounded. -/
theorem Effect.bounded {n : Nat} {seqs digs : BufIx → Prop} {s t : State} (h : Effect n seqs digs s t)
    (hn : n ≤ s.cfg.nMax) (hs : s.mem.Bounded s.cfg) : t.mem.Bounded s.cfg := by
  induction h with
  | refl => exact hs
  | @writeElems t x es _ _ hlen ih =>
    refine ih.writeWords fun b hlo hhi => inBuffers_elems (i := 0) (n := es.length) (by omega) hlo ?_
    rw [length_flatMap_elems] at hhi
    omega
  | @writeDigits t x ds _ _ hlen ih =>
    refine ih.writeWords fun b hlo hhi => inBuffers_digits (i := 0) (n := ds.length) (by omega) hlo ?_
    rwa [List.length_map] at hhi
  | setLen _ _ _ ih => exact ih
  | setSign _ _ _ ih => exact ih

/-! ### The invariant -/

theorem State.Inv.bounded {s : State} (h : s.Inv) : s.mem.Bounded s.cfg := ⟨h.memory, h.buffers⟩

/-- In `Idle` the invariant speaks of the capacity and memory only. -/
theorem State.inv_of_idle {s : State} (hp : s.phase = .idle) (hcap : 1 ≤ s.cfg.log2Nmax ∧ s.cfg.log2Nmax ≤ 23)
    (hm : s.mem.Bounded s.cfg) : s.Inv :=
  ⟨hcap, hm.1, hm.2, fun w hw => by rw [hp] at hw; cases hw⟩

theorem inv_resetWith {p : Params} (hcap : 1 ≤ p.log2Nmax ∧ p.log2Nmax ≤ 23) (es : List Event) :
    (State.resetWith p es).Inv :=
  State.inv_of_idle rfl hcap (Memory.bounded_nil p)

/-- Settles O40: reset leaves the phase `Idle` and memory empty. -/
theorem resetMeetsTheInvariant : Obligations.ResetMeetsTheInvariant :=
  ⟨inv_resetWith (by decide) [], fun _ es hlo hhi => inv_resetWith ⟨hlo, hhi⟩ es⟩

section
variable {s t : State} (hs : s.Inv)
include hs

/-- A completed command leaves the phase `Idle` and has written within the buffers. -/
theorem exec_keeps_inv {i : Instr} (h : exec i s = .next t) : t.Inv := by
  obtain ⟨u, hu, ht⟩ := exec_eq_next h
  have hcfg := hu.cfg_eq
  rw [ht]
  exact State.inv_of_idle rfl (hcfg ▸ hs.capacity) (hcfg ▸ hu.bounded le_rfl hs.bounded)

theorem engineTurn_keeps_inv (h : engineTurn s = .next t) : t.Inv := by
  rcases engineTurn_cases h with ⟨-, rfl⟩ | ⟨w, r, -, -, rfl⟩ | ⟨w, i, -, -, hexec⟩
  · exact hs
  · exact State.inv_of_idle rfl hs.capacity hs.bounded
  · exact exec_keeps_inv hs hexec

/-- A CTRL write sets IE, which the invariant does not speak of, or resets, which unwrites. -/
theorem writeCtrl_keeps_inv (v : Word) : (s.writeCtrl v).Inv := by
  unfold State.writeCtrl
  split_ifs
  · exact State.inv_of_idle rfl hs.capacity (hs.bounded.eraseAll _)
  · exact ⟨hs.capacity, hs.memory, hs.buffers, hs.inFlight⟩

/-- A CMD write accepts its word or sets OVR. -/
theorem writeCmd_keeps_inv (v : Word) : (s.writeCmd v).Inv := by
  unfold State.writeCmd
  split
  · exact ⟨hs.capacity, hs.memory, hs.buffers, fun w hw => by cases hw; exact ⟨rfl, rfl, rfl⟩⟩
  · exact ⟨hs.capacity, hs.memory, hs.buffers, hs.inFlight⟩

theorem writeStatus_keeps_inv (v : Word) : (s.writeStatus v).Inv := by
  refine ⟨hs.capacity, hs.memory, hs.buffers, fun w hw => ?_⟩
  obtain ⟨hcmd, hdone, herr⟩ := hs.inFlight w hw
  exact ⟨hcmd, by rw [State.done_writeStatus, hdone, Bool.false_and], herr⟩

theorem keeps_inv_of_mem {m : Memory} (hm : m.Bounded s.cfg) : ({ s with mem := m } : State).Inv :=
  ⟨hs.capacity, hm.1, hm.2, hs.inFlight⟩

theorem writeTarget_keeps_inv (v : Word) (tgt : Target) : (writeTarget s v tgt).Inv := by
  cases tgt with
  | ctrl => exact writeCtrl_keeps_inv hs v
  | status => exact writeStatus_keeps_inv hs v
  | cmd => exact writeCmd_keeps_inv hs v
  | dlen k => exact ⟨hs.capacity, hs.memory, hs.buffers, hs.inFlight⟩
  | dsign k => exact ⟨hs.capacity, hs.memory, hs.buffers, hs.inFlight⟩
  | digit k i =>
    simp only [writeTarget]
    split_ifs with hi
    · exact keeps_inv_of_mem hs (hs.bounded.writeWords fun b => inBuffers_digits (n := 1) (by omega))
    · exact hs
  | elem k i high =>
    simp only [writeTarget]
    have hhalf : (if high then 8 else 0) ≤ 8 := by split_ifs <;> omega
    generalize (if high then 8 else 0) = half at hhalf
    split_ifs with hi
    · refine keeps_inv_of_mem hs (hs.bounded.writeWords fun b hlo hhi => inBuffers_elems (k := k) (n := 1) hi ?_ ?_)
      · omega
      · rw [List.length_singleton] at hhi
        omega
    · exact hs
  | _ => exact hs

theorem hostAccess_keeps_inv {a : HostAccess} (h : hostAccess a s = .next t) : t.Inv := by
  rcases hostAccess_cases h with rfl | ⟨-, -, -, w, -, -, -, rfl⟩ | ⟨-, -, v, tgt, -, -, -, rfl⟩
  · exact ⟨hs.capacity, hs.memory, hs.buffers, hs.inFlight⟩
  · exact ⟨hs.capacity, hs.memory, hs.buffers, hs.inFlight⟩
  · have hw := writeTarget_keeps_inv hs v tgt
    exact ⟨hw.capacity, hw.memory, hw.buffers, hw.inFlight⟩

theorem takeEvent_keeps_inv {e : Event} (h : takeEvent e s = .next t) : t.Inv := by
  cases e with
  | host a => exact hostAccess_keeps_inv hs h
  | engine => exact engineTurn_keeps_inv hs h
  | powerOnReset =>
    cases h
    exact inv_resetWith hs.capacity s.events

end

/-- Settles O41: each input keeps the invariant: a host access by what it writes, the engine by the effect of its
command, power-on reset by leaving nothing written. -/
theorem stepKeepsTheInvariant : Obligations.StepKeepsTheInvariant := by
  intro s t hs h
  rcases step_cases h with ⟨-, h⟩ | ⟨e, es, -, h⟩
  · exact engineTurn_keeps_inv hs h
  · exact takeEvent_keeps_inv (s := s.dropEvent) ⟨hs.capacity, hs.memory, hs.buffers, hs.inFlight⟩ h

end Sys2Proof.Machine
end

section
/-! PROOF. When commands end in an error or at an unwritten entry (spec/60_exceptions.md R270 to R276,
spec/10_state.md R49). -/

namespace Sys2Proof.Machine

/-! ### The outcome of a command, from its statements -/

theorem exec_of_ok {i : Instr} {s t : State} (h : cmd i s = .ok t) : exec i s = .next (t.complete .none) := by
  rw [exec_eq_finish, h]
  rfl

theorem exec_of_error {i : Instr} {s t : State} {e : ErrCode} (h : cmd i s = .error e t) :
    exec i s = .next (t.complete e) := by
  rw [exec_eq_finish, h]
  rfl

/-! ### Length errors (R104, R274) -/

section
variable {dom : Dom} {logn : Nat} {x y z : BufIx} {s : State}

theorem cmdLoadseq_len (h : s.cfg.nMax < s.len y) : cmdLoadseq dom logn x y s = .error .len s := by
  simp only [cmdLoadseq, if_pos h]

theorem cmdLoadseq_size (hlen : s.len y ≤ s.cfg.nMax) (h : limit s.cfg dom < logn ∨ 2 ^ logn < s.len y) :
    cmdLoadseq dom logn x y s = .error .size s := by
  simp only [cmdLoadseq, if_neg hlen.not_gt]
  rcases h with h | h
  · rw [if_pos h]
  · rw [if_pos h, ite_self]

theorem cmdNorm_len (h : s.cfg.nMax < s.len x) : cmdNorm x s = .error .len s := by
  simp only [cmdNorm, if_pos h]

section
variable (h : limit s.cfg dom < logn)
include h

theorem cmdStoredig_size : cmdStoredig dom logn x y s = .error .size s := by simp only [cmdStoredig, if_pos h]
theorem cmdFwd_size : cmdFwd dom logn x s = .error .size s := by simp only [cmdFwd, if_pos h]
theorem cmdInv_size : cmdInv dom logn x s = .error .size s := by simp only [cmdInv, if_pos h]
theorem cmdPmul_size : cmdPmul dom logn x y z s = .error .size s := by simp only [cmdPmul, if_pos h]
theorem cmdPmac_size : cmdPmac dom logn x y z s = .error .size s := by simp only [cmdPmac, if_pos h]

end

end

/-- Settles O37: each command checks its lengths before anything else, ERR_LEN before ERR_SIZE. -/
theorem lengthErrorsComeFirst : Obligations.LengthErrorsComeFirst := by
  intro dom logn lim x y z s hlim
  obtain rfl : limit s.cfg dom = lim := by
    rw [hlim]
    cases dom <;> rfl
  refine ⟨rfl, fun _ => rfl, rfl, fun h => ⟨?_, ?_, ?_, ?_⟩, fun h => ⟨fun hlen => ?_, ?_, ?_, ?_, ?_, ?_⟩,
    fun hlen _ h => ?_, fun hy hz h => ?_⟩
  · exact exec_of_error (cmdLoadseq_len h)
  · exact exec_of_error (cmdNorm_len h)
  · exact exec_of_error (cmdMul_len (.inl h))
  · exact exec_of_error (cmdMul_len (.inr h))
  · exact exec_of_error (cmdLoadseq_size hlen (.inl h))
  · exact exec_of_error (cmdStoredig_size h)
  · exact exec_of_error (cmdFwd_size h)
  · exact exec_of_error (cmdInv_size h)
  · exact exec_of_error (cmdPmul_size h)
  · exact exec_of_error (cmdPmac_size h)
  · exact exec_of_error (cmdLoadseq_size hlen (.inr h))
  · refine exec_of_error (cmdMul_size hy hz (not_le.1 fun hk => h.not_ge ?_))
    exact (ceilLog2_le_iff _ _).1 hk

/-! ### The residue check and ROUND (R164, R225) -/

section
variable {dom : Dom} {logn : Nat} {x y z : BufIx} {s : State} (hlogn : logn ≤ limit s.cfg dom)
include hlogn

/-- FWD of written elements: the residue check decides. -/
theorem cmdFwd_of_elems {a : List Elem} (ha : s.elems dom x (2 ^ logn) = some a) :
    cmdFwd dom logn x s = if residuesLegal s.cfg dom a then .ok (s.writeElems x (transform s.cfg dom .fwd logn a))
      else .error .residue s := by
  simp only [cmdFwd, if_neg hlogn.not_gt, ha]

theorem cmdInv_of_elems {a : List Elem} (ha : s.elems dom x (2 ^ logn) = some a) :
    cmdInv dom logn x s = if residuesLegal s.cfg dom a then
        .ok (s.writeElems x ((transform s.cfg dom .inv logn a).map fun y => scaleElem s.cfg dom y (2 ^ logn)))
      else .error .residue s := by
  simp only [cmdInv, if_neg hlogn.not_gt, ha]

theorem cmdPmul_of_elems {as bs : List Elem} (has : s.elems dom y (2 ^ logn) = some as)
    (hbs : s.elems dom z (2 ^ logn) = some bs) :
    cmdPmul dom logn x y z s = if residuesLegal s.cfg dom as && residuesLegal s.cfg dom bs then
        .ok (s.writeElems x (List.zipWith (mulElem s.cfg dom) as bs))
      else .error .residue s := by
  simp only [cmdPmul, if_neg hlogn.not_gt, has, hbs]

theorem cmdPmac_of_elems {cs as bs : List Elem} (hcs : s.elems dom x (2 ^ logn) = some cs)
    (has : s.elems dom y (2 ^ logn) = some as) (hbs : s.elems dom z (2 ^ logn) = some bs) :
    cmdPmac dom logn x y z s =
      if residuesLegal s.cfg dom cs && residuesLegal s.cfg dom as && residuesLegal s.cfg dom bs then
        .ok (s.writeElems x (List.zipWith (addElem s.cfg dom) cs (List.zipWith (mulElem s.cfg dom) as bs)))
      else .error .residue s := by
  simp only [cmdPmac, if_neg hlogn.not_gt, hcs, has, hbs]

theorem cmdStoredig_residue {es : List Elem} (hes : s.elems .m y (2 ^ logn) = some es)
    (h : residuesLegal s.cfg dom es = false) : cmdStoredig dom logn x y s = .error .residue s := by
  simp [cmdStoredig, hlogn.not_gt, hes, h]

theorem cmdStoredig_round {es : List Elem} (hes : s.elems .m y (2 ^ logn) = some es)
    (hlegal : residuesLegal s.cfg dom es = true) (h : storedDigits dom es = none) :
    cmdStoredig dom logn x y s = .error .round s := by
  simp [cmdStoredig, hlogn.not_gt, hes, hlegal, h]

end

section
variable {dom : Dom} {k : BufIx} {n : Nat} {s : State} {a : Nat → Elem}

/-- The first `n` elements, read one by one. -/
theorem State.elems_of_elem (h : ∀ i, i < n → s.elem dom k i = some (a i)) :
    s.elems dom k n = some ((List.range n).map a) :=
  State.elems_eq_some_iff.2 ⟨by simp, fun i hi => by simpa using h i (by simpa using hi)⟩

theorem residuesLegal_map_range {p : Params} (h : dom = .m → ∀ i, i < n → (a i).residue < p.nttP) :
    residuesLegal p dom ((List.range n).map a) = true := by
  refine residuesLegal_iff.2 fun hm e he => ?_
  obtain ⟨i, hi, rfl⟩ := List.mem_map.1 he
  exact h hm i (List.mem_range.1 hi)

/-- One illegal residue fails the check. -/
theorem residuesLegal_eq_false {p : Params} {i : Nat} (hi : i < n) (h : p.nttP ≤ (a i).residue) :
    residuesLegal p .m ((List.range n).map a) = false := by
  rw [← Bool.not_eq_true, residuesLegal_iff]
  exact fun hall => h.not_gt (hall rfl _ (List.mem_map_of_mem (List.mem_range.2 hi)))

end

/-- Settles O38: the elements a command reads are written, so the residue check comes, and it fails. -/
theorem illegalResidueIsAnError : Obligations.IllegalResidueIsAnError := by
  intro logn x y z s c a b hlogn
  refine ⟨fun hc ⟨i, hi, hres⟩ => ?_, fun hab ⟨i, hi, hres⟩ => ?_, fun hcab ⟨i, hi, hres⟩ => ?_⟩
  · have hes := State.elems_of_elem hc
    have hbad := residuesLegal_eq_false hi hres
    refine ⟨exec_of_error ?_, exec_of_error ?_, exec_of_error ?_⟩
    · exact (cmdFwd_of_elems hlogn hes).trans (by rw [hbad]; rfl)
    · exact (cmdInv_of_elems hlogn hes).trans (by rw [hbad]; rfl)
    · exact cmdStoredig_residue hlogn hes hbad
  · refine exec_of_error ((cmdPmul_of_elems hlogn (State.elems_of_elem fun j hj => (hab j hj).1)
      (State.elems_of_elem fun j hj => (hab j hj).2)).trans (if_neg ?_))
    rcases hres with hres | hres <;> simp [residuesLegal_eq_false hi hres]
  · refine exec_of_error ((cmdPmac_of_elems hlogn (State.elems_of_elem fun j hj => (hcab j hj).1)
      (State.elems_of_elem fun j hj => (hcab j hj).2.1) (State.elems_of_elem fun j hj => (hcab j hj).2.2)).trans
      (if_neg ?_))
    rcases hres with hres | hres | hres <;> simp [residuesLegal_eq_false hi hres]

/-- Settles O39: the low words are written, and one of them has no digit. -/
theorem unroundableElementIsAnError : Obligations.UnroundableElementIsAnError := by
  intro logn x y s lo hlogn hlo ⟨i, hi, hfail⟩
  refine exec_of_error (cmdStoredig_round hlogn (State.elems_m_eq_lowElems hlo) rfl ?_)
  by_contra hsome
  obtain ⟨ds, hds⟩ := Option.ne_none_iff_exists'.1 hsome
  have hall := storedDigits_eq_some_iff.1 hds
  rw [lowElems, List.forall₂_map_left_iff] at hall
  obtain ⟨hlen, hget⟩ := List.forall₂_iff_get.1 hall
  have hdigit := hget i (by simpa using hi) (by rw [← hlen]; simpa using hi)
  simp [toDigit, hfail] at hdigit

/-! ### Unwritten entries (R49) -/

/-- Every entry of every buffer is written. -/
def State.AllWritten (s : State) : Prop :=
  ∀ k j, j < s.cfg.nMax → (s.digitWord k j).isSome ∧ (s.elemLo k j).isSome ∧ (s.elemHi k j).isSome

/-- An aligned word stays written under aligned writes. -/
theorem Memory.isSome_readWord_writeWords {m : Memory} {a b : Nat} (ws : List Word) (hal : a % 8 = b % 8)
    (h : (m.readWord b).isSome) : ((m.writeWords a ws).readWord b).isSome := by
  by_cases hin : a ≤ b ∧ b < a + 8 * ws.length
  · obtain ⟨i, rfl⟩ : ∃ i, b = a + 8 * i := ⟨(b - a) / 8, by omega⟩
    rw [Memory.readWord_writeWords (by omega)]
    rfl
  · rwa [Memory.readWord_writeWords_outside (by omega)]

theorem digitAddr_mod (k : BufIx) (i : Nat) : digitAddr k i % 8 = 0 := by unfold digitAddr; omega

theorem elemAddr_mod (k : BufIx) (i : Nat) : elemAddr k i % 8 = 0 := by unfold elemAddr; omega

/-- Aligned writes keep every entry written. -/
theorem State.AllWritten.writeWords {s : State} (h : s.AllWritten) {a : Nat} (ha : a % 8 = 0) (ws : List Word) :
    ({ s with mem := s.mem.writeWords a ws } : State).AllWritten := by
  intro k j hj
  obtain ⟨hd, hlo, hhi⟩ := h k j hj
  have := digitAddr_mod k j
  have := elemAddr_mod k j
  exact ⟨Memory.isSome_readWord_writeWords ws (by omega) hd, Memory.isSome_readWord_writeWords ws (by omega) hlo,
    Memory.isSome_readWord_writeWords ws (by omega) hhi⟩

theorem Effect.allWritten {n : Nat} {seqs digs : BufIx → Prop} {s t : State} (h : Effect n seqs digs s t)
    (hs : s.AllWritten) : t.AllWritten := by
  induction h with
  | refl => exact hs
  | writeElems _ _ _ ih => exact ih.writeWords (elemAddr_mod _ 0) _
  | writeDigits _ _ _ ih => exact ih.writeWords (digitAddr_mod _ 0) _
  | setLen _ _ _ ih => exact ih
  | setSign _ _ _ ih => exact ih

section
variable {s : State} (h : s.AllWritten)
include h

theorem State.AllWritten.digits_ne_none {n : Nat} (hn : n ≤ s.cfg.nMax) (k : BufIx) : s.digits k n ≠ none := by
  rw [State.digits_eq_collect, ← Option.isSome_iff_ne_none]
  refine collect_isSome fun j _ hj => ?_
  rw [State.digit, digitIn, Option.isSome_map]
  exact (h k j (by omega)).1

theorem State.AllWritten.elems_ne_none {n : Nat} (hn : n ≤ s.cfg.nMax) (dom : Dom) (k : BufIx) :
    s.elems dom k n ≠ none := by
  rw [State.elems_eq_collect, ← Option.isSome_iff_ne_none]
  refine collect_isSome fun j _ hj => ?_
  obtain ⟨-, hlo, hhi⟩ := h k j (by omega)
  cases dom with
  | c =>
    obtain ⟨lo, hlo⟩ := Option.isSome_iff_exists.1 hlo
    obtain ⟨hi, hhi⟩ := Option.isSome_iff_exists.1 hhi
    unfold State.elemLo at hlo
    unfold State.elemHi at hhi
    simp [State.elem, elemIn, hlo, hhi]
  | m =>
    rw [State.elem, elemIn, Option.isSome_map]
    exact hlo

end

/-- `r` ends in no fault but that of an unwritten read, and in none from `s` if all entries are written. -/
def CmdResult.FaultsUnwritten (r : CmdResult) (s : State) : Prop :=
  ∀ f, r = .fault f → f = .unwrittenRead ∧ ¬s.AllWritten

section
variable {dom : Dom} {logn : Nat} {x y z : BufIx} {s : State}

theorem cmdLoadseq_faultsUnwritten : (cmdLoadseq dom logn x y s).FaultsUnwritten s := by
  intro f h
  unfold cmdLoadseq at h
  simp only at h
  split_ifs at h with hlen
  split at h
  next hnone =>
    cases h
    exact ⟨rfl, fun hs => hs.digits_ne_none (not_lt.1 hlen) y hnone⟩
  next => cases h

theorem cmdStoredig_faultsUnwritten : (cmdStoredig dom logn x y s).FaultsUnwritten s := by
  intro f h
  unfold cmdStoredig at h
  simp only at h
  split_ifs at h with hlogn
  split at h
  next hnone =>
    cases h
    exact ⟨rfl, fun hs => hs.elems_ne_none (two_pow_le_nMax (not_lt.1 hlogn)) .m y hnone⟩
  next =>
    split_ifs at h
    split at h <;> cases h

theorem cmdFwd_faultsUnwritten : (cmdFwd dom logn x s).FaultsUnwritten s := by
  intro f h
  unfold cmdFwd at h
  split_ifs at h with hlogn
  split at h
  next hnone =>
    cases h
    exact ⟨rfl, fun hs => hs.elems_ne_none (two_pow_le_nMax (not_lt.1 hlogn)) dom x hnone⟩
  next => split_ifs at h

theorem cmdInv_faultsUnwritten : (cmdInv dom logn x s).FaultsUnwritten s := by
  intro f h
  unfold cmdInv at h
  simp only at h
  split_ifs at h with hlogn
  split at h
  next hnone =>
    cases h
    exact ⟨rfl, fun hs => hs.elems_ne_none (two_pow_le_nMax (not_lt.1 hlogn)) dom x hnone⟩
  next => split_ifs at h

theorem cmdPmul_faultsUnwritten : (cmdPmul dom logn x y z s).FaultsUnwritten s := by
  intro f h
  unfold cmdPmul at h
  simp only at h
  split_ifs at h with hlogn
  split at h
  next => split_ifs at h
  next hnone =>
    cases h
    refine ⟨rfl, fun hs => ?_⟩
    have hn := two_pow_le_nMax (not_lt.1 hlogn)
    obtain ⟨as, has⟩ := Option.ne_none_iff_exists'.1 (hs.elems_ne_none hn dom y)
    obtain ⟨bs, hbs⟩ := Option.ne_none_iff_exists'.1 (hs.elems_ne_none hn dom z)
    exact hnone as bs has hbs

theorem cmdPmac_faultsUnwritten : (cmdPmac dom logn x y z s).FaultsUnwritten s := by
  intro f h
  unfold cmdPmac at h
  simp only at h
  split_ifs at h with hlogn
  split at h
  next => split_ifs at h
  next hnone =>
    cases h
    refine ⟨rfl, fun hs => ?_⟩
    have hn := two_pow_le_nMax (not_lt.1 hlogn)
    obtain ⟨cs, hcs⟩ := Option.ne_none_iff_exists'.1 (hs.elems_ne_none hn dom x)
    obtain ⟨as, has⟩ := Option.ne_none_iff_exists'.1 (hs.elems_ne_none hn dom y)
    obtain ⟨bs, hbs⟩ := Option.ne_none_iff_exists'.1 (hs.elems_ne_none hn dom z)
    exact hnone cs as bs hcs has hbs

theorem cmdNorm_faultsUnwritten : (cmdNorm x s).FaultsUnwritten s := by
  intro f h
  unfold cmdNorm at h
  simp only at h
  split_ifs at h with hlen
  split at h
  next hnone =>
    cases h
    exact ⟨rfl, fun hs => hs.digits_ne_none (not_lt.1 hlen) x hnone⟩
  next => split at h <;> cases h

theorem ok_faultsUnwritten (t : State) : (CmdResult.ok t).FaultsUnwritten s := fun _ h => by cases h

theorem error_faultsUnwritten (e : ErrCode) (t : State) : (CmdResult.error e t).FaultsUnwritten s :=
  fun _ h => by cases h

end

/-! ### A command after another -/

/-- Statements that fault at unwritten entries only, and that leave written what is written. -/
structure KeepsWritten (k : State → CmdResult) : Prop where
  faults : ∀ s, (k s).FaultsUnwritten s
  allWritten : ∀ {s t}, (k s).EndsIn t → s.AllWritten → t.AllWritten

/-- Statements with an effect keep entries written. -/
theorem keepsWritten_of_effect {k : State → CmdResult} (hfault : ∀ s, (k s).FaultsUnwritten s)
    (heffect : ∀ {s t}, (k s).EndsIn t → ∃ n, Effect n (fun _ => True) (fun _ => True) s t) : KeepsWritten k :=
  ⟨hfault, fun h hs => (heffect h).elim fun _ heffect => heffect.allWritten hs⟩

/-- A command after another reads what the first leaves written. -/
theorem KeepsWritten.andThen {k l : State → CmdResult} (hk : KeepsWritten k) (hl : KeepsWritten l) :
    KeepsWritten fun s => (k s).andThen l where
  faults s f h := by
    rcases CmdResult.andThen_eq_fault_iff.1 h with h | ⟨v, hv, h⟩
    · exact hk.faults s f h
    · obtain ⟨hf, hnot⟩ := hl.faults v f h
      exact ⟨hf, fun hs => hnot (hk.allWritten (.inl hv) hs)⟩
  allWritten {s t} h hs := by
    rcases h with h | ⟨e, h⟩
    · obtain ⟨v, hv, ht⟩ := CmdResult.andThen_eq_ok_iff.1 h
      exact hl.allWritten (.inl ht) (hk.allWritten (.inl hv) hs)
    · rcases CmdResult.andThen_eq_error_iff.1 h with h | ⟨v, hv, ht⟩
      · exact hk.allWritten (.inr ⟨e, h⟩) hs
      · exact hl.allWritten (.inr ⟨e, ht⟩) (hk.allWritten (.inl hv) hs)

section
variable (dom : Dom) (logn : Nat) (x y z : BufIx)

theorem keepsWritten_loadseq : KeepsWritten (cmdLoadseq dom logn x y) :=
  keepsWritten_of_effect (fun _ => cmdLoadseq_faultsUnwritten) fun h =>
    ⟨_, cmdLoadseq_effect (fun _ => le_rfl) trivial h⟩

theorem keepsWritten_storedig : KeepsWritten (cmdStoredig dom logn x y) :=
  keepsWritten_of_effect (fun _ => cmdStoredig_faultsUnwritten) fun h =>
    ⟨_, cmdStoredig_effect (fun _ => le_rfl) trivial h⟩

theorem keepsWritten_fwd : KeepsWritten (cmdFwd dom logn x) :=
  keepsWritten_of_effect (fun _ => cmdFwd_faultsUnwritten) fun h =>
    ⟨_, cmdFwd_effect (fun _ => le_rfl) trivial h⟩

theorem keepsWritten_inv : KeepsWritten (cmdInv dom logn x) :=
  keepsWritten_of_effect (fun _ => cmdInv_faultsUnwritten) fun h =>
    ⟨_, cmdInv_effect (fun _ => le_rfl) trivial h⟩

theorem keepsWritten_pmul : KeepsWritten (cmdPmul dom logn x y z) :=
  keepsWritten_of_effect (fun _ => cmdPmul_faultsUnwritten) fun h =>
    ⟨_, cmdPmul_effect (fun _ => le_rfl) trivial h⟩

theorem keepsWritten_norm : KeepsWritten (cmdNorm x) :=
  keepsWritten_of_effect (fun _ => cmdNorm_faultsUnwritten) fun h =>
    ⟨_, cmdNorm_effect le_rfl trivial h⟩

theorem keepsWritten_setSign (b : Bool) : KeepsWritten fun t => .ok (t.setSign x b) where
  faults s := ok_faultsUnwritten _
  allWritten h hs := by
    rcases h with h | ⟨e, h⟩ <;> cases h
    exact hs

theorem keepsWritten_mulSequence : KeepsWritten (mulSequence dom logn y z) :=
  (((((keepsWritten_loadseq dom logn 0 y).andThen (keepsWritten_loadseq dom logn 1 z)).andThen
    (keepsWritten_fwd dom logn 0)).andThen (keepsWritten_fwd dom logn 1)).andThen
    (keepsWritten_pmul dom logn 0 0 1)).andThen (keepsWritten_inv dom logn 0)

theorem cmdMul_faultsUnwritten (s : State) : (cmdMul dom x y z s).FaultsUnwritten s := by
  unfold cmdMul
  simp only
  split_ifs
  · exact error_faultsUnwritten _ _
  · exact error_faultsUnwritten _ _
  · exact ((((keepsWritten_mulSequence dom _ y z).andThen (keepsWritten_storedig dom _ x 0)).andThen
      (keepsWritten_setSign x _)).andThen (keepsWritten_norm x)).faults s

end

/-- No command faults but at an unwritten entry (R49). -/
theorem cmd_faultsUnwritten (i : Instr) (s : State) : (cmd i s).FaultsUnwritten s := by
  cases i with
  | nop => exact ok_faultsUnwritten s
  | loadseq => exact cmdLoadseq_faultsUnwritten
  | storedig => exact cmdStoredig_faultsUnwritten
  | fwd => exact cmdFwd_faultsUnwritten
  | inv => exact cmdInv_faultsUnwritten
  | pmul => exact cmdPmul_faultsUnwritten
  | pmac => exact cmdPmac_faultsUnwritten
  | norm => exact cmdNorm_faultsUnwritten
  | mul dom x y z => exact cmdMul_faultsUnwritten dom x y z s

/-- A command completes, or faults at an entry that is unwritten. -/
theorem exec_next_or_fault (i : Instr) (s : State) :
    (∃ t, exec i s = .next t) ∨ (exec i s = .fault .unwrittenRead ∧ ¬s.AllWritten) := by
  rw [exec_eq_finish]
  cases h : cmd i s with
  | ok t => exact .inl ⟨_, rfl⟩
  | error e t => exact .inl ⟨_, rfl⟩
  | fault f =>
    obtain ⟨rfl, hnot⟩ := cmd_faultsUnwritten i s f h
    exact .inr ⟨rfl, hnot⟩

/-- Settles O12: a command faults at an unwritten entry only, and every write of MUL's expansion keeps entries
written for the reads after it. -/
theorem writtenBuffersNeverFault : Obligations.WrittenBuffersNeverFault := by
  refine ⟨fun i s _ hs => ?_, fun i s => (exec_next_or_fault i s).imp_right And.left⟩
  exact (exec_next_or_fault i s).resolve_right fun ⟨_, hnot⟩ => hnot hs

end Sys2Proof.Machine
end

section
/-! PROOF. The host's port (spec/20_memory.md R70 to R79, spec/10_state.md R32 to R40): where an access goes and what
it does there. -/

namespace Sys2Proof.Machine

/-! ### Aligned accesses (R70, R74) -/

theorem route_aligned (p : Params) {off : Nat} (hoff : off < 2 ^ 30) (hal : off % 8 = 0) :
    route p 64 (p.apertureBase + off) = .reaches (locate off) := by
  rw [route_reaches_iff, Nat.add_sub_cancel_left]
  exact ⟨by omega, by omega, rfl, hal, rfl⟩

section
variable {s : State} {addr : Nat} {tgt : Target} (hroute : route s.cfg 64 addr = .reaches tgt)
include hroute

theorem hostAccess_read_eq (hguard : (s.busy && tgt.guarded) = false) {w : Word} (hread : readTarget s tgt = some w) :
    hostAccess (.read 64 addr) s = .next { s with resp := .data w } := by
  simp only [hostAccess, hostRead, hroute, hguard, hread, Bool.false_eq_true, if_false]

theorem hostAccess_read_unwritten (hguard : (s.busy && tgt.guarded) = false) (hread : readTarget s tgt = none) :
    hostAccess (.read 64 addr) s = .fault .unwrittenRead := by
  simp only [hostAccess, hostRead, hroute, hguard, hread, Bool.false_eq_true, if_false]

theorem hostAccess_write_eq (hguard : (s.busy && tgt.guarded) = false) (v : Word) :
    hostAccess (.write 64 addr v) s = .next { writeTarget s v tgt with resp := .ack } := by
  simp only [hostAccess, hostWrite, hroute, hguard, Bool.false_eq_true, if_false]

/-- A guarded target is refused while BUSY (R320). -/
theorem hostAccess_guarded (hguard : (s.busy && tgt.guarded) = true) (v : Word) :
    hostAccess (.read 64 addr) s = .refused .hostHazard ∧
      hostAccess (.write 64 addr v) s = .refused .hostHazard := by
  simp only [hostAccess, hostRead, hostWrite, hroute, hguard, if_true, and_self]

end

theorem State.busy_of_idle {s : State} (h : s.phase = .idle) : s.busy = false := by simp only [State.busy, h]

theorem State.busy_iff {s : State} : s.busy = true ↔ ∃ w, s.phase = .busy w := by
  unfold State.busy
  split <;> simp_all

theorem idle_guard {s : State} (h : s.phase = .idle) (tgt : Target) : (s.busy && tgt.guarded) = false := by
  rw [State.busy_of_idle h, Bool.false_and]

/-- An unguarded target may be accessed in either phase. -/
theorem unguarded {s : State} {tgt : Target} (h : tgt.guarded = false) : (s.busy && tgt.guarded) = false := by
  rw [h, Bool.and_false]

/-! ### The address map (R71) -/

theorem locate_register {off : Nat} (h : off < 0x1000) : locate off = locateRegister off := if_pos h

theorem locate_dlen (k : BufIx) : locate (0x040 + 8 * k.val) = .dlen k := by fin_cases k <;> rfl

theorem locate_dsign (k : BufIx) : locate (0x060 + 8 * k.val) = .dsign k := by fin_cases k <;> rfl

theorem locate_digitAddr (k : BufIx) {i : Nat} (hi : i < 2 ^ 23) : locate (digitAddr k i) = .digit k i := by
  unfold locate digitAddr
  rw [if_neg (by omega), if_neg (by omega), if_pos (by omega), Target.digit.injEq]
  refine ⟨Fin.ext ?_, by omega⟩
  change (_ % 4 = _)
  omega

/-- Either half of an element. -/
theorem locate_elemAddr (k : BufIx) {i : Nat} (hi : i < 2 ^ 23) (high : Bool) :
    locate (elemAddr k i + if high then 8 else 0) = .elem k i high := by
  have hhalf : (if high then 8 else 0) = 8 * high.toNat := by cases high <;> rfl
  have hbit : high.toNat < 2 := by cases high <;> decide
  have hdec : decide (high.toNat = 1) = high := by cases high <;> rfl
  unfold locate elemAddr
  rw [hhalf, if_neg (by omega), if_neg (by omega), if_neg (by omega), if_pos (by omega), Target.elem.injEq]
  refine ⟨Fin.ext ?_, by omega, ?_⟩
  · change (_ % 4 = _)
    omega
  · rw [← hdec, decide_eq_decide, hdec]
    omega

theorem locate_elemAddr_lo (k : BufIx) {i : Nat} (hi : i < 2 ^ 23) : locate (elemAddr k i) = .elem k i false := by
  simpa using locate_elemAddr k hi false

theorem locate_elemAddr_hi (k : BufIx) {i : Nat} (hi : i < 2 ^ 23) : locate (elemAddr k i + 8) = .elem k i true := by
  simpa using locate_elemAddr k hi true

/-- The reserved ranges below the windows. -/
theorem locate_reserved {off : Nat} (h : off = 0x038 ∨ (0x080 ≤ off ∧ off < 0x10000000)) : locate off = .reserved := by
  rcases h with rfl | ⟨hlo, hhi⟩
  · rfl
  · unfold locate
    split_ifs with hreg
    · unfold locateRegister
      split
      case h_16 => rfl
      all_goals omega
    · rfl

/-- The guarded offsets are DLEN, DSIGN and the buffer windows. -/
theorem guarded_locate {off : Nat}
    (h : (0x040 ≤ off ∧ off < 0x080) ∨ (0x10000000 ≤ off ∧ off < 0x40000000)) : (locate off).guarded = true := by
  rcases h with ⟨hlo, hhi⟩ | ⟨hlo, hhi⟩
  · rw [locate_register (by omega), locateRegister]
    obtain ⟨r, hr⟩ : ∃ r, off / 8 = r := ⟨_, rfl⟩
    rw [hr]
    have : 8 ≤ r ∧ r < 16 := by omega
    obtain ⟨h8, h16⟩ := this
    interval_cases r <;> rfl
  · unfold locate
    rw [if_neg (by omega), if_neg (by omega)]
    split_ifs
    · rfl
    · rfl

/-- Only offset 0x020 is CTRL, and only offset 0x030 is CMD. -/
theorem offset_of_locate {off : Nat} (hal : off % 8 = 0) :
    (locate off = .ctrl → off = 0x020) ∧ (locate off = .cmd → off = 0x030) := by
  unfold locate
  split_ifs
  · unfold locateRegister
    split
    all_goals simp
    all_goals omega
  all_goals simp

/-- An access that reaches a register whose offset is known was made there. -/
theorem access_of_route {p : Params} {width addr off : Nat} {tgt : Target} (h : route p width addr = .reaches tgt)
    (hoff : ∀ o, o % 8 = 0 → locate o = tgt → o = off) : width = 64 ∧ addr = p.apertureBase + off := by
  obtain ⟨hlo, -, hwidth, hal, hloc⟩ := route_reaches_iff.1 h
  have := hoff _ hal hloc
  exact ⟨hwidth, by omega⟩

/-! ### Accesses without an effect, and refused ones -/

/-- Settles O47: of the three ways an access can answer, two are a read's, and both change the response alone. -/
theorem hostReadsHaveNoSideEffect : Obligations.HostReadsHaveNoSideEffect := by
  intro s t width addr h
  rcases hostAccess_cases h with rfl | ⟨_, _, _, w, -, -, -, rfl⟩ | ⟨_, _, _, _, hwrite, -⟩
  · rfl
  · rfl
  · cases hwrite

/-- Settles O48: inside the aperture a wrong width or a misaligned offset is routed to the bus error. -/
theorem malformedAccessIsABusError : Obligations.MalformedAccessIsABusError := by
  intro s width off v hoff hbad
  have hroute : route s.cfg width (s.cfg.apertureBase + off) = .busError := by
    rw [route, if_neg (by omega), Nat.add_sub_cancel_left, if_pos hbad]
  exact ⟨by simp only [hostAccess, hostRead, hroute], by simp only [hostAccess, hostWrite, hroute]⟩

/-- A target that reads 0 and ignores writes. -/
theorem hostAccess_of_inert {s : State} {off : Nat} (hoff : off < 2 ^ 30) (hal : off % 8 = 0)
    (hguard : (s.busy && (locate off).guarded) = false) (hread : readTarget s (locate off) = some 0) {v : Word}
    (hwrite : writeTarget s v (locate off) = s) :
    hostAccess (.read 64 (s.cfg.apertureBase + off)) s = .next { s with resp := .data 0 } ∧
      hostAccess (.write 64 (s.cfg.apertureBase + off) v) s = .next { s with resp := .ack } := by
  have hroute := route_aligned s.cfg hoff hal
  refine ⟨hostAccess_read_eq hroute hguard hread, ?_⟩
  rw [hostAccess_write_eq hroute hguard, hwrite]

/-- Settles O49: a reserved offset, or an entry at or above the capacity, is inert. -/
theorem reservedOffsetsReadZero : Obligations.ReservedOffsetsReadZero := by
  intro s off v hal h
  rw [← or_assoc] at h
  rcases h with h | ⟨hidle, k, i, hi, hlt, h⟩
  · have hloc := locate_reserved h
    exact hostAccess_of_inert (by omega) hal (by rw [hloc]; exact unguarded rfl) (by rw [hloc]; rfl)
      (by rw [hloc]; rfl)
  · have hk := k.isLt
    have hoff : off < 2 ^ 30 := by
      simp only [digitAddr, elemAddr] at h
      omega
    have hinert : readTarget s (locate off) = some 0 ∧ writeTarget s v (locate off) = s := by
      rcases h with h | h | h <;> rw [h]
      · rw [locate_digitAddr k hlt]
        exact ⟨if_neg hi.not_gt, if_neg hi.not_gt⟩
      · rw [locate_elemAddr_lo k hlt]
        exact ⟨if_neg hi.not_gt, if_neg hi.not_gt⟩
      · rw [locate_elemAddr_hi k hlt]
        exact ⟨if_neg hi.not_gt, if_neg hi.not_gt⟩
    exact hostAccess_of_inert hoff hal (idle_guard hidle _) hinert.1 hinert.2

/-- Settles O57: those offsets are guarded. -/
theorem busyBufferAccessIsRefused : Obligations.BusyBufferAccessIsRefused := by
  intro s w v off hbusy hal hrange
  refine hostAccess_guarded (route_aligned s.cfg (by omega) hal) ?_ v
  rw [State.busy_iff.2 ⟨w, hbusy⟩, guarded_locate hrange]
  rfl

/-! ### The buffer windows (R78, R79) -/

/-- Writing one word leaves every byte outside it alone. -/
theorem sameOutside_writeWord (s : State) (a : Nat) (v : Word) (r : Response) :
    SameOutside s { s with mem := s.mem.writeWords a [v], resp := r } a 8 :=
  fun _ hb => Memory.read_writeWords_outside hb

theorem Memory.readWord_writeWord (m : Memory) (a : Nat) (v : Word) : (m.writeWords a [v]).readWord a = some v :=
  Memory.readWord_writeWords (ws := [v]) (i := 0) (by simp)

/-- A window word in phase `Idle`: a read gives it or faults, a write stores it. -/
theorem hostAccess_window {s : State} {off a : Nat} {tgt : Target} (hidle : s.phase = .idle) (hoff : off < 2 ^ 30)
    (hal : off % 8 = 0) (hloc : locate off = tgt) (hread : readTarget s tgt = s.mem.readWord a) {v : Word}
    (hwrite : writeTarget s v tgt = { s with mem := s.mem.writeWords a [v] }) :
    (∀ w, s.mem.readWord a = some w →
      hostAccess (.read 64 (s.cfg.apertureBase + off)) s = .next { s with resp := .data w }) ∧
    (s.mem.readWord a = none → hostAccess (.read 64 (s.cfg.apertureBase + off)) s = .fault .unwrittenRead) ∧
    hostAccess (.write 64 (s.cfg.apertureBase + off) v) s =
      .next { s with mem := s.mem.writeWords a [v], resp := .ack } := by
  have hroute := route_aligned s.cfg hoff hal
  rw [hloc] at hroute
  refine ⟨fun w hw => ?_, fun hnone => ?_, ?_⟩
  · exact hostAccess_read_eq hroute (idle_guard hidle tgt) (hread.trans hw)
  · exact hostAccess_read_unwritten hroute (idle_guard hidle tgt) (hread.trans hnone)
  · rw [hostAccess_write_eq hroute (idle_guard hidle tgt), hwrite]

theorem nMax_le_two_pow {p : Params} (h : p.log2Nmax ≤ 23) : p.nMax ≤ 2 ^ 23 := Nat.pow_le_pow_right two_pos h

/-- Settles O54: the offset is that of entry `i` of the window of `Dk`. -/
theorem digitWindowReadsAndWrites : Obligations.DigitWindowReadsAndWrites := by
  intro s k i v hcap hi hidle
  have hlt : i < 2 ^ 23 := hi.trans_le (nMax_le_two_pow hcap)
  have hk := k.isLt
  obtain ⟨hsome, hnone, hwrite⟩ := hostAccess_window (v := v) (a := digitAddr k i) hidle
    (by unfold digitAddr; omega) (digitAddr_mod k i) (locate_digitAddr k hlt)
    (by simp only [readTarget, if_pos hi]; rfl) (by simp only [writeTarget, if_pos hi])
  unfold digitAddr at hsome hnone hwrite
  simp only [← Nat.add_assoc] at hsome hnone hwrite
  exact ⟨hsome, hnone, _, hwrite, Memory.readWord_writeWord .., rfl, sameOutside_writeWord s _ v _⟩

/-- Settles O55: the offsets are those of the halves of element `i` of the window of `Sk`. -/
theorem sequenceWindowReadsAndWrites : Obligations.SequenceWindowReadsAndWrites := by
  intro s k i v hcap hi hidle
  have hlt : i < 2 ^ 23 := hi.trans_le (nMax_le_two_pow hcap)
  have hk := k.isLt
  obtain ⟨hlo, hloNone, hloWrite⟩ := hostAccess_window (v := v) (a := elemAddr k i) hidle
    (by unfold elemAddr; omega) (elemAddr_mod k i) (locate_elemAddr_lo k hlt)
    (by simp only [readTarget, if_pos hi]; rfl) (by simp only [writeTarget, if_pos hi]; rfl)
  obtain ⟨hhi, hhiNone, hhiWrite⟩ := hostAccess_window (v := v) (a := elemAddr k i + 8) hidle
    (by unfold elemAddr; omega) (by have := elemAddr_mod k i; omega) (locate_elemAddr_hi k hlt)
    (by simp only [readTarget, if_pos hi]; rfl) (by simp only [writeTarget, if_pos hi]; rfl)
  unfold elemAddr at *
  simp only [← Nat.add_assoc] at hlo hloNone hloWrite hhi hhiNone hhiWrite
  exact ⟨hlo, hhi, hloNone, hhiNone, ⟨_, hloWrite, Memory.readWord_writeWord .., rfl, sameOutside_writeWord s _ v _⟩,
    _, hhiWrite, Memory.readWord_writeWord .., rfl, sameOutside_writeWord s _ v _⟩

/-- A readable word lists the bytes that spell it (R73). -/
theorem Memory.read_of_readWord {m : Memory} {a b : Nat} {w : Word} (h : m.readWord a = some w) (hb : b < 8) :
    m.read (a + b) = some (w.extractLsb' (8 * b) 8) := by
  have hslice := congrArg (Memory.read · (a + b)) (Memory.readWord_some h)
  simp only [Memory.read_slice, read_cellsFrom, Nat.le_add_right, Nat.add_lt_add_left hb, and_self, if_true,
    Nat.add_sub_cancel_left] at hslice
  rw [hslice, getElem?_bytesOfWord w hb]

/-- Settles O56: a readable word is spelled by its bytes, and a written word is readable. -/
theorem bytesAreLittleEndian : Obligations.BytesAreLittleEndian := by
  intro m a w
  have hwrite := Memory.readWord_writeWord m a w
  exact ⟨fun h b hb => Memory.read_of_readWord h hb, hwrite, fun b hb => Memory.read_of_readWord hwrite hb⟩

end Sys2Proof.Machine
end

section
/-! PROOF. The register map (spec/10_state.md R32 to R40), and what each kind of step does (spec/45_control.md R262,
spec/60_exceptions.md R284, spec/70_reset_and_hazards.md R310, R331). -/

namespace Sys2Proof.Machine

/-! ### Registers that may be accessed in either phase -/

/-- A read of a register that is not guarded. -/
theorem hostAccess_read_register {s : State} {off : Nat} {tgt : Target} {w : Word} (hloc : locate off = tgt)
    (hguard : tgt.guarded = false) (hread : readTarget s tgt = some w) (hoff : off < 2 ^ 30 := by decide)
    (hal : off % 8 = 0 := by decide) :
    hostAccess (.read 64 (s.cfg.apertureBase + off)) s = .next { s with resp := .data w } :=
  hostAccess_read_eq (hloc ▸ route_aligned s.cfg hoff hal) (unguarded hguard) hread

/-- A write of a register that is not guarded. -/
theorem hostAccess_write_register {s t : State} {off : Nat} {tgt : Target} {v : Word} (hloc : locate off = tgt)
    (hguard : tgt.guarded = false) (hwrite : writeTarget s v tgt = t) (hoff : off < 2 ^ 30 := by decide)
    (hal : off % 8 = 0 := by decide) :
    hostAccess (.write 64 (s.cfg.apertureBase + off) v) s = .next { t with resp := .ack } := by
  rw [hostAccess_write_eq (hloc ▸ route_aligned s.cfg hoff hal) (unguarded hguard), hwrite]

/-- Settles O52: reads and writes of the CTRL and CMD registers, by their offsets. -/
theorem controlAndCommandRegisters : Obligations.ControlAndCommandRegisters := by
  intro s v
  have hctrl : s.ctrlWord = if s.ie then 1 else 0 := by
    unfold State.ctrlWord bitOf
    split_ifs <;> rfl
  refine ⟨hostAccess_read_register (tgt := .ctrl) rfl rfl (congrArg some hctrl), fun hsrst => ?_,
    hostAccess_read_register (tgt := .cmd) rfl rfl rfl⟩
  refine hostAccess_write_register (t := { s with ie := v.getLsbD 0 }) (tgt := .ctrl) rfl rfl (if_neg ?_)
  rw [hsrst]
  exact Bool.false_ne_true

/-- The bits of the STATUS word (R37). -/
theorem statusBits (e : ErrCode) : ∀ busy done ovr : Bool,
    (BitVec.ofNat 64 (bitOf busy + 2 * bitOf done + 4 * bitOf ovr + 16 * e.number)).getLsbD 0 = busy ∧
    (BitVec.ofNat 64 (bitOf busy + 2 * bitOf done + 4 * bitOf ovr + 16 * e.number)).getLsbD 1 = done ∧
    (BitVec.ofNat 64 (bitOf busy + 2 * bitOf done + 4 * bitOf ovr + 16 * e.number)).getLsbD 2 = ovr ∧
    (BitVec.ofNat 64 (bitOf busy + 2 * bitOf done + 4 * bitOf ovr + 16 * e.number)).getLsbD 3 = false ∧
    ((BitVec.ofNat 64 (bitOf busy + 2 * bitOf done + 4 * bitOf ovr + 16 * e.number)).extractLsb' 4 4).toNat =
      e.number ∧
    (BitVec.ofNat 64 (bitOf busy + 2 * bitOf done + 4 * bitOf ovr + 16 * e.number)).extractLsb' 8 56 = 0 := by
  cases e <;> decide

theorem and_not_eq_ite (a b : Bool) : (a && !b) = if b then false else a := by cases b <;> simp

/-- Settles O51: the STATUS word shows its flags in its bits, and a write clears by masking. -/
theorem statusReadsAndClears : Obligations.StatusReadsAndClears := by
  intro s v
  obtain ⟨hbusy, hrest⟩ := statusBits s.err s.busy s.done s.ovr
  refine ⟨⟨s.statusWord, hostAccess_read_register (tgt := .status) rfl rfl rfl, ?_, hrest⟩, ?_, ?_⟩
  · rw [← State.busy_iff]
    exact iff_of_eq (congrArg (· = true) hbusy)
  · rw [← and_not_eq_ite, ← and_not_eq_ite]
    exact hostAccess_write_register (t := s.writeStatus v) (tgt := .status) rfl rfl rfl
  · rw [State.irq, Bool.and_eq_true]

/-! ### The constant registers (R32 to R35) -/

theorem le_twosFuel {fuel n k : Nat} (hn : n ≠ 0) (hfuel : n < 2 ^ fuel) (hk : 2 ^ k ∣ n) : k ≤ twosFuel fuel n := by
  induction fuel generalizing n k with
  | zero => exact absurd (Nat.lt_one_iff.1 hfuel) hn
  | succ fuel ih =>
    obtain _ | k := k
    · exact Nat.zero_le _
    obtain ⟨m, rfl⟩ := hk
    have hhalf : 2 ^ (k + 1) * m = 2 * (2 ^ k * m) := by ring
    rw [hhalf] at hn hfuel ⊢
    rw [twosFuel, if_neg hn, if_pos (Nat.mul_mod_right ..), Nat.mul_div_cancel_left _ two_pos]
    exact Nat.succ_le_succ (ih (by omega) (by rw [pow_succ] at hfuel; omega) (dvd_mul_right ..))

/-- `NTT_LOG2_MAX` is the largest power of two that divides `NTT_P - 1` (R7). -/
theorem le_nttLog2Max {p : Params} (hp : p.Legal) {k : Nat} (hk : 2 ^ k ∣ p.nttP - 1) : k ≤ nttLog2Max p :=
  le_twosFuel (by have := hp.two_lt; omega) Nat.lt_log2_self hk

theorem nttLog2Max_lt {p : Params} (hp : p.Legal) : nttLog2Max p < 32 := by
  have h2 := hp.two_lt
  have hle : 2 ^ nttLog2Max p ≤ p.nttP - 1 := Nat.le_of_dvd (by omega) (two_pow_dvd_of_le_nttLog2Max le_rfl)
  exact (Nat.pow_lt_pow_iff_right one_lt_two).1 (hle.trans_lt ((Nat.sub_le ..).trans_lt hp.lt_pow))

/-- The bits of the PARAM word (R33). -/
theorem paramWord_bits {p : Params} (hcap : p.log2Nmax < 32) (hmax : nttLog2Max p < 32) :
    ((paramWord p).extractLsb' 0 5).toNat = p.log2Nmax ∧ (paramWord p).extractLsb' 5 3 = 0 ∧
      ((paramWord p).extractLsb' 8 5).toNat = nttLog2Max p ∧ (paramWord p).extractLsb' 13 3 = 0 ∧
      (paramWord p).extractLsb' 16 4 = 4 ∧ (paramWord p).extractLsb' 20 4 = 4 ∧
      (paramWord p).extractLsb' 24 40 = 0 := by
  have hword : (paramWord p).toNat = p.log2Nmax + nttLog2Max p * 2 ^ 8 + 4 * 2 ^ 16 + 4 * 2 ^ 20 := by
    rw [paramWord, BitVec.toNat_ofNat]
    omega
  have hbits : ∀ lo len, ((paramWord p).extractLsb' lo len).toNat = (paramWord p).toNat / 2 ^ lo % 2 ^ len :=
    fun lo len => by rw [BitVec.extractLsb'_toNat, Nat.shiftRight_eq_div_pow]
  simp only [← BitVec.toNat_inj, hbits]
  generalize (paramWord p).toNat = q at hword
  refine ⟨?_, ?_, ?_, ?_, ?_, ?_, ?_⟩
  · omega
  · exact (show q / 2 ^ 5 % 2 ^ 3 = 0 by omega)
  · omega
  · exact (show q / 2 ^ 13 % 2 ^ 3 = 0 by omega)
  · exact (show q / 2 ^ 16 % 2 ^ 4 = 4 by omega)
  · exact (show q / 2 ^ 20 % 2 ^ 4 = 4 by omega)
  · exact (show q / 2 ^ 24 % 2 ^ 40 = 0 by omega)

/-- Settles O50: the four registers are constants, and `NTT_LOG2_MAX` is the largest exponent. -/
theorem constantRegisters : Obligations.ConstantRegisters := by
  intro s v hp
  have hcap := hp.log2Nmax_le
  have hlt := hp.lt_pow
  refine ⟨hostAccess_read_register (tgt := .id) (off := 0) rfl rfl rfl,
    ⟨_, hostAccess_read_register (tgt := .param) rfl rfl rfl, paramWord_bits (by omega) (nttLog2Max_lt hp)⟩,
    ⟨_, hostAccess_read_register (tgt := .nttP) rfl rfl rfl, ?_⟩,
    hostAccess_read_register (tgt := .nttG) rfl rfl rfl, ?_, two_pow_dvd_of_le_nttLog2Max le_rfl,
    fun k hk => le_nttLog2Max hp hk⟩
  · rw [BitVec.toNat_ofNat, Nat.mod_eq_of_lt (by omega)]
  · simp only [List.forall_mem_cons]
    exact ⟨hostAccess_write_register (tgt := .id) rfl rfl rfl, hostAccess_write_register (tgt := .param) rfl rfl rfl,
      hostAccess_write_register (tgt := .nttP) rfl rfl rfl, hostAccess_write_register (tgt := .nttG) rfl rfl rfl,
      by simp⟩

/-! ### DLEN and DSIGN (R39, R40) -/

theorem low32_eq_and (v : Word) : BitVec.ofNat 64 (v.toNat % 2 ^ 32) = v &&& 0xFFFFFFFF := by
  refine BitVec.eq_of_toNat_eq ?_
  have hmask : (0xFFFFFFFF : Word).toNat = 2 ^ 32 - 1 := rfl
  rw [BitVec.toNat_and, hmask, Nat.and_two_pow_sub_one_eq_mod, BitVec.toNat_ofNat, Nat.mod_eq_of_lt]
  omega

theorem bit0_eq_and (v : Word) : BitVec.ofNat 64 (bitOf (v.getLsbD 0)) = v &&& 1 := by
  refine BitVec.eq_of_toNat_eq ?_
  have hmask : (1 : Word).toNat = 2 ^ 1 - 1 := rfl
  rw [BitVec.toNat_and, hmask, Nat.and_two_pow_sub_one_eq_mod, BitVec.toNat_ofNat, BitVec.getLsbD,
    Nat.testBit_zero, bitOf]
  split_ifs with h <;> simp at h <;> omega

/-- Settles O53: the write sets one entry of the register file, and the read shows it. -/
theorem lengthAndSignRegisters : Obligations.LengthAndSignRegisters := by
  intro s k v hidle
  have hk := k.isLt
  have hlen : route s.cfg 64 (s.cfg.apertureBase + 0x040 + 8 * k.val) = .reaches (.dlen k) := by
    rw [Nat.add_assoc, route_aligned s.cfg (by omega) (by omega), locate_dlen]
  have hsign : route s.cfg 64 (s.cfg.apertureBase + 0x060 + 8 * k.val) = .reaches (.dsign k) := by
    rw [Nat.add_assoc, route_aligned s.cfg (by omega) (by omega), locate_dsign]
  refine ⟨⟨_, hostAccess_write_eq hlen (idle_guard hidle _) v, ?_, fun j hj => ⟨?_, rfl⟩, rfl, rfl, ?_⟩,
    ⟨_, hostAccess_write_eq hsign (idle_guard hidle _) v, ?_, fun j hj => ⟨rfl, ?_⟩, rfl, rfl, ?_⟩⟩
  · exact (State.len_setLen s k k _).trans (if_pos rfl)
  · exact (State.len_setLen s k j _).trans (if_neg hj.symm)
  · refine hostAccess_read_eq (s := { s.setLen k v.toNat with resp := .ack }) hlen (idle_guard hidle _)
      (congrArg some ?_)
    rw [← low32_eq_and]
    exact congrArg (BitVec.ofNat 64) ((State.len_setLen s k k _).trans (if_pos rfl))
  · exact (State.sign_setSign s k k _).trans (if_pos rfl)
  · exact (State.sign_setSign s k j _).trans (if_neg hj.symm)
  · refine hostAccess_read_eq (s := { s.setSign k (v.getLsbD 0) with resp := .ack }) hsign
      (idle_guard hidle _) (congrArg some ?_)
    rw [← bit0_eq_and]
    exact congrArg (BitVec.ofNat 64 ∘ bitOf) ((State.sign_setSign s k k _).trans (if_pos rfl))

/-! ### Steps (R45, R262, R310) -/

theorem engineTurn_of_busy {s : State} {w : Word} (h : s.phase = .busy w) : engineTurn s = engineStep w s := by
  simp only [engineTurn, h]

theorem engineTurn_of_idle {s : State} (h : s.phase = .idle) : engineTurn s = .next s := by
  simp only [engineTurn, h]

theorem engineStep_of_ok {w : Word} {i : Instr} (h : decode w = .ok i) (s : State) : engineStep w s = exec i s := by
  simp only [engineStep, h]

theorem State.dropEvent_of_events {s : State} {e : Event} {es : List Event} (h : s.events = e :: es) :
    s.dropEvent = { s with events := es } := by
  rw [State.dropEvent, h]
  rfl

/-- Settles O6: the input decides who moves, and the engine decodes the word in flight. -/
theorem stepRunsDecodedCommand : Obligations.StepRunsDecodedCommand := by
  refine ⟨fun s w i hbusy hd => ⟨fun hnone => ?_, fun es hes => ?_, fun a es hes => ?_⟩, fun s nbits w i hd => ?_⟩
  · rw [step_of_no_events hnone, engineTurn_of_busy hbusy, engineStep_of_ok hd]
  · rw [step_of_event hes, State.dropEvent_of_events hes]
    exact (engineTurn_of_busy (s := { s with events := es }) hbusy).trans (engineStep_of_ok hd _)
  · rw [step_of_event hes, State.dropEvent_of_events hes]
    rfl
  · have hok : decode (tableWord nbits w) = .ok i := by
      unfold decodeTableWord Decoded.instr? at hd
      split at hd
      next j hj =>
        cases hd
        exact hj
      next => cases hd
    exact (engineTurn_of_busy (s := s.accept (tableWord nbits w)) rfl).trans (engineStep_of_ok hok _)

/-- Settles O42: the step is the reset of every field but the parameters and the inputs. -/
theorem powerOnResetClearsAll : Obligations.PowerOnResetClearsAll := by
  intro s es hes
  rw [step_of_event hes, State.dropEvent_of_events hes]
  refine ⟨_, rfl, rfl, rfl, rfl, rfl, fun k => ?_, rfl, fun _ => rfl, rfl, rfl⟩
  fin_cases k <;> exact ⟨rfl, rfl⟩

/-- A STATUS read that is the next input. -/
theorem step_of_statusRead {s : State} {es : List Event}
    (h : s.events = .host (.read 64 (s.cfg.apertureBase + 0x028)) :: es) :
    step s = .next { s with events := es, resp := .data s.statusWord } := by
  rw [step_of_event h, State.dropEvent_of_events h]
  exact hostAccess_read_register (s := { s with events := es }) (off := 0x028) (tgt := .status) rfl rfl rfl

/-- The outcome of one step is that of a run of one step. -/
theorem run_one (s : State) : Host.Core.run Sys2Proof.core 1 s = step s := by
  have hstep : Sys2Proof.core.step s = step s := rfl
  simp only [Host.Core.run, hstep]
  cases step s <;> rfl

theorem run_succ_of_step {s t : State} (h : step s = .next t) (n : Nat) :
    Host.Core.run Sys2Proof.core (n + 1) s = Host.Core.run Sys2Proof.core n t := by
  have hstep : Sys2Proof.core.step s = .next t := h
  simp only [Host.Core.run, hstep]

/-- Settles O44: by induction on the polls, each of which is a STATUS read that changes the response alone. -/
theorem polledCommandIsExecuted : Obligations.PolledCommandIsExecuted := by
  intro s w n hbusy hevents
  induction n generalizing s with
  | zero =>
    have hs : s = { s with events := [], resp := s.resp } := by
      cases s
      cases hevents
      rfl
    rw [if_pos rfl, ← hs]
    rw [run_one, step_of_no_events hevents, engineTurn_of_busy hbusy]
  | succ n ih =>
    rw [List.replicate_succ] at hevents
    rw [run_succ_of_step (step_of_statusRead hevents), if_neg n.succ_ne_zero]
    refine (ih _ (by exact hbusy) (by rfl)).trans
      (congrArg (fun r => engineStep w { s with events := [], resp := r }) ?_)
    exact ite_self _

/-- In `Idle` only a write of CMD takes the phase to `Busy`, with the word it writes. -/
theorem phase_writeTarget {s : State} {v w : Word} {tgt : Target} (hidle : s.phase = .idle)
    (h : (writeTarget s v tgt).phase = .busy w) : tgt = .cmd ∧ v = w := by
  cases tgt with
  | cmd =>
    simp only [writeTarget, State.writeCmd, hidle] at h
    exact ⟨rfl, Phase.busy.inj h⟩
  | ctrl =>
    simp only [writeTarget, State.writeCtrl] at h
    split_ifs at h
    · cases h
    · cases hidle.symm.trans h
  | digit k i =>
    simp only [writeTarget] at h
    split_ifs at h <;> cases hidle.symm.trans h
  | elem k i high =>
    simp only [writeTarget] at h
    split_ifs at h <;> cases hidle.symm.trans h
  | _ => cases hidle.symm.trans h

/-- Settles O46: of the inputs only a host write of CMD starts a command, and with none, or the engine's turn, an idle
block stays as it is. -/
theorem onlyCommandWritesStartTheEngine : Obligations.OnlyCommandWritesStartTheEngine := by
  intro s hidle
  refine ⟨fun t w h hbusy => ?_, fun hnone => ?_, fun es hes => ?_⟩
  · have hcontra : ∀ {u : State}, u.phase = .idle → u.phase = .busy w → False := fun hu hb => by
      cases hu.symm.trans hb
    rcases step_cases h with ⟨-, h⟩ | ⟨e, es, hes, h⟩
    · rw [engineTurn_of_idle hidle] at h
      cases h
      exact (hcontra hidle hbusy).elim
    · cases e with
      | engine =>
        have hturn := engineTurn_of_idle (s := s.dropEvent) hidle
        cases hturn.symm.trans h
        exact (hcontra hidle hbusy).elim
      | powerOnReset =>
        cases h
        exact (hcontra rfl hbusy).elim
      | host a =>
        rcases hostAccess_cases h with rfl | ⟨_, _, _, _, -, -, -, rfl⟩ | ⟨width, addr, v, tgt, rfl, hroute, -, rfl⟩
        · exact (hcontra hidle hbusy).elim
        · exact (hcontra hidle hbusy).elim
        · obtain ⟨rfl, rfl⟩ := phase_writeTarget (s := s.dropEvent) hidle hbusy
          obtain ⟨rfl, rfl⟩ := access_of_route hroute fun o ho hloc => (offset_of_locate ho).2 hloc
          exact ⟨es, hes⟩
  · rw [step_of_no_events hnone, engineTurn_of_idle hidle]
  · rw [step_of_event hes, State.dropEvent_of_events hes]
    exact engineTurn_of_idle hidle

/-- Settles O45: while BUSY the targets that are not guarded are registers, and of their writes only the soft reset
touches more than IE, DONE and OVR. -/
theorem busyHostAccessTouchesNoOperand : Obligations.BusyHostAccessTouchesNoOperand := by
  intro s t w a hbusy h
  rcases hostAccess_cases h with rfl | ⟨_, _, _, _, -, -, -, rfl⟩ | ⟨width, addr, v, tgt, rfl, hroute, hguard, rfl⟩
  · exact .inl ⟨hbusy, rfl, rfl, rfl, rfl, rfl, rfl⟩
  · exact .inl ⟨hbusy, rfl, rfl, rfl, rfl, rfl, rfl⟩
  · rw [State.busy_iff.2 ⟨w, hbusy⟩, Bool.true_and] at hguard
    cases tgt with
    | dlen => cases hguard
    | dsign => cases hguard
    | digit => cases hguard
    | elem => cases hguard
    | ctrl =>
      simp only [writeTarget, State.writeCtrl]
      split_ifs with hsrst
      · obtain ⟨rfl, rfl⟩ := access_of_route hroute fun o ho hloc => (offset_of_locate ho).1 hloc
        exact .inr ⟨v, rfl, hsrst, rfl⟩
      · exact .inl ⟨hbusy, rfl, rfl, rfl, rfl, rfl, rfl⟩
    | cmd =>
      have hovr : writeTarget s v .cmd = { s with ovr := true } := by simp only [writeTarget, State.writeCmd, hbusy]
      rw [hovr]
      exact .inl ⟨hbusy, rfl, rfl, rfl, rfl, rfl, rfl⟩
    | _ => exact .inl ⟨hbusy, rfl, rfl, rfl, rfl, rfl, rfl⟩

end Sys2Proof.Machine
end

section
/-! PROOF. The transform as the spec indexes it, and the iterative network (spec/41_transform.md R166, R167, R176). -/

namespace Sys2Proof.Machine

/-! ### Even and odd entries -/

theorem getElem?_evens {α : Type} (l : List α) (i : Nat) : (evens l)[i]? = l[2 * i]? := by
  induction l using evens.induct generalizing i with
  | case1 => simp [evens]
  | case2 a => cases i <;> simp [evens, Nat.mul_succ]
  | case3 a b l ih =>
    cases i with
    | zero => rfl
    | succ i => simp [evens, ih, Nat.mul_succ]

theorem getElem?_odds {α : Type} (l : List α) (i : Nat) : (odds l)[i]? = l[2 * i + 1]? := by
  induction l using odds.induct generalizing i with
  | case1 => simp [odds]
  | case2 a => simp [odds]
  | case3 a b l ih =>
    cases i with
    | zero => rfl
    | succ i => simp [odds, ih, Nat.mul_succ]

theorem evens_map_range (a : Nat → Elem) (h : Nat) :
    evens ((List.range (2 * h)).map a) = (List.range h).map fun i => a (2 * i) := by
  refine List.ext_getElem? fun i => ?_
  rw [getElem?_evens, List.getElem?_map, List.getElem?_map]
  by_cases hi : i < h
  · rw [List.getElem?_range hi, List.getElem?_range (by omega)]
    rfl
  · rw [List.getElem?_eq_none (by simp; omega), List.getElem?_eq_none (by simp; omega)]
    rfl

theorem odds_map_range (a : Nat → Elem) (h : Nat) :
    odds ((List.range (2 * h)).map a) = (List.range h).map fun i => a (2 * i + 1) := by
  refine List.ext_getElem? fun i => ?_
  rw [getElem?_odds, List.getElem?_map, List.getElem?_map]
  by_cases hi : i < h
  · rw [List.getElem?_range hi, List.getElem?_range (by omega)]
    rfl
  · rw [List.getElem?_eq_none (by simp; omega), List.getElem?_eq_none (by simp; omega)]
    rfl

/-! ### The butterfly pass -/

/-- The pass gives element `i` the twiddle after `i` multiplications (R167). -/
theorem butterflies_map_range (p : Params) (dom : Dom) (r w0 : Elem) (w y0 y1 : Nat → Elem) (h : Nat)
    (hw0 : w 0 = w0) (hw : ∀ i, w (i + 1) = mulElem p dom (w i) r) :
    butterflies p dom r w0 ((List.range h).map y0) ((List.range h).map y1) =
      (List.range h).map fun i => (addElem p dom (y0 i) (mulElem p dom (w i) (y1 i)),
        subElem p dom (y0 i) (mulElem p dom (w i) (y1 i))) := by
  induction h generalizing w0 w y0 y1 with
  | zero => rfl
  | succ h ih =>
    subst hw0
    simp only [List.range_succ_eq_map, List.map_cons, List.map_map, butterflies]
    exact congrArg _ (ih _ (fun i => w (i + 1)) (fun i => y0 (i + 1)) (fun i => y1 (i + 1)) (hw 0) fun i => hw (i + 1))

/-- The recursive transform is the one R166 writes with indices. -/
theorem transform_map_range (p : Params) (dom : Dom) (dir : Dir) (j : Nat) (a : Nat → Elem) :
    transform p dom dir j ((List.range (2 ^ j)).map a) = (List.range (2 ^ j)).map (indexTransform p dom dir j a) := by
  induction j generalizing a with
  | zero => rfl
  | succ j ih =>
    have htwo : 2 ^ (j + 1) = 2 * 2 ^ j := by ring
    have hsplit : 2 ^ (j + 1) = 2 ^ j + 2 ^ j := by omega
    simp only [transform]
    rw [htwo, evens_map_range, odds_map_range, ih, ih, ← htwo,
      butterflies_map_range p dom _ (oneElem dom) (twiddle p dom (rootElem p dom dir (j + 1))) _ _ _ rfl fun _ => rfl,
      hsplit, List.range_add, List.map_append, List.map_map, List.map_map, List.map_map]
    congr 1
    · refine List.map_congr_left fun i hi => ?_
      simp only [indexTransform, if_pos (List.mem_range.1 hi), Function.comp]
    · refine List.map_congr_left fun i hi => ?_
      simp only [indexTransform, Function.comp, if_neg (Nat.not_lt.2 (Nat.le_add_right _ i)), Nat.add_sub_cancel_left]

/-- A list is the readings of its entries. -/
theorem eq_map_range_getD (l : List Elem) (e : Elem) : l = (List.range l.length).map fun i => l.getD i e :=
  List.ext_getElem (by simp) fun i h1 h2 => by
    rw [List.getElem_map, List.getElem_range, List.getD_eq_getElem _ _ h1]

/-! ### The iterative network (R176) -/

/-- Reversal turns the high bit into the low one. -/
theorem bitReverse_succ_eq {k i : Nat} (hi : i < 2 ^ (k + 1)) :
    bitReverse (k + 1) i = i / 2 ^ k + 2 * bitReverse k (i % 2 ^ k) := by
  induction k generalizing i with
  | zero =>
    simp only [bitReverse]
    omega
  | succ k ih =>
    have hhalf : i / 2 < 2 ^ (k + 1) := by rw [pow_succ] at hi; omega
    have hdiv : i / 2 / 2 ^ k = i / 2 ^ (k + 1) := by rw [Nat.div_div_eq_div_mul, ← pow_succ']
    have hmod : i % 2 ^ (k + 1) % 2 = i % 2 := Nat.mod_mod_of_dvd _ (dvd_pow_self 2 k.succ_ne_zero)
    have hquot : i % 2 ^ (k + 1) / 2 = i / 2 % 2 ^ k := by rw [pow_succ', Nat.mod_mul_right_div_self]
    rw [bitReverse, ih hhalf, hdiv, bitReverse, hmod, hquot, pow_succ]
    ring

/-- A block of `2^j` positions goes through the first `j` stages by itself, and where it holds `a` bit-reversed the
stages leave the transform of `a`. -/
theorem butterflyStages_block (p : Params) (dom : Dom) (dir : Dir) {j c : Nat} {a b : Nat → Elem}
    (hb : ∀ m, m < 2 ^ j → b (c * 2 ^ j + m) = a (bitReverse j m)) {i : Nat} (hi : i < 2 ^ j) :
    butterflyStages p dom dir j b (c * 2 ^ j + i) = indexTransform p dom dir j a i := by
  induction j generalizing c a i with
  | zero =>
    obtain rfl : i = 0 := by omega
    exact hb 0 one_pos
  | succ j ih =>
    have htwo : 2 ^ (j + 1) = 2 * 2 ^ j := by ring
    have hpos := Nat.two_pow_pos j
    have hlow : ∀ m, m < 2 ^ j →
        butterflyStages p dom dir j b (c * 2 ^ (j + 1) + m) = indexTransform p dom dir j (fun i => a (2 * i)) m := by
      intro m hm
      have hblock : ∀ m, c * 2 ^ (j + 1) + m = 2 * c * 2 ^ j + m := fun m => by ring
      rw [hblock]
      refine ih (fun m hm => ?_) hm
      rw [← hblock, hb m (by omega), bitReverse_succ_eq (by omega), Nat.div_eq_of_lt hm, Nat.mod_eq_of_lt hm, zero_add]
    have hhigh : ∀ m, m < 2 ^ j → butterflyStages p dom dir j b (c * 2 ^ (j + 1) + (2 ^ j + m)) =
        indexTransform p dom dir j (fun i => a (2 * i + 1)) m := by
      intro m hm
      have hblock : ∀ m, c * 2 ^ (j + 1) + (2 ^ j + m) = (2 * c + 1) * 2 ^ j + m := fun m => by ring
      rw [hblock]
      refine ih (fun m hm => ?_) hm
      rw [← hblock, hb _ (by omega), bitReverse_succ_eq (by omega), Nat.add_div_left _ hpos, Nat.div_eq_of_lt hm,
        Nat.add_mod_left, Nat.mod_eq_of_lt hm, Nat.add_comm]
    have hq : (c * 2 ^ (j + 1) + i) % (2 * 2 ^ j) = i := by
      rw [← htwo, Nat.mul_add_mod_of_lt hi]
    simp only [butterflyStages, butterflyStage, indexTransform, hq]
    split_ifs with hi'
    · rw [hlow i hi', Nat.add_assoc, Nat.add_comm i, hhigh i hi']
    · obtain ⟨m, rfl⟩ := Nat.exists_eq_add_of_le (Nat.not_lt.1 hi')
      have hm : m < 2 ^ j := by omega
      have hback : c * 2 ^ (j + 1) + (2 ^ j + m) - 2 ^ j = c * 2 ^ (j + 1) + m := by omega
      rw [hback, hlow m hm, hhigh m hm, Nat.add_sub_cancel_left]

theorem iterativeTransform_eq (p : Params) (dom : Dom) (dir : Dir) (k : Nat) (a : Nat → Elem) {i : Nat}
    (hi : i < 2 ^ k) : iterativeTransform p dom dir k a i = indexTransform p dom dir k a i := by
  have h := butterflyStages_block p dom dir (j := k) (c := 0) (a := a) (b := fun i => a (bitReverse k i))
    (fun m _ => by rw [Nat.zero_mul, Nat.zero_add]) hi
  rwa [Nat.zero_mul, Nat.zero_add] at h

/-- Settles O19: both are the transform as R166 indexes it. -/
theorem iterativeTransformGivesTheSameBits : Obligations.IterativeTransformGivesTheSameBits := by
  intro p dom dir k a hlen i hi
  rw [iterativeTransform_eq p dom dir k _ hi]
  conv_lhs => rw [eq_map_range_getD a { lo := 0, hi := 0 }, hlen, transform_map_range]
  simp [hi]

/-! ### Commands that write a sequence -/

/-- The first `n` elements of a sequence buffer after a write of all of them. -/
theorem State.words_writeElems (s : State) (x : BufIx) (e : Nat → Elem) {n i : Nat} (hi : i < n) :
    (s.writeElems x ((List.range n).map e)).elemLo x i = some (e i).lo ∧
      (s.writeElems x ((List.range n).map e)).elemHi x i = some (e i).hi := by
  have hget : ((List.range n).map e)[i]? = some (e i) := by simp [hi]
  exact ⟨State.elemLo_writeElems hget, State.elemHi_writeElems hget⟩

/-- A command whose one effect is to write the first `n` elements of `Sx` completes, with those elements and nothing
else changed. -/
theorem exec_of_writeElems {i : Instr} {s : State} {x : BufIx} {n : Nat} {e : Nat → Elem}
    (h : cmd i s = .ok (s.writeElems x ((List.range n).map e))) :
    ∃ t, exec i s = .next t ∧ Completed s t .none ∧ SameLengths s t ∧
      (∀ i, i < n → t.elemLo x i = some (e i).lo ∧ t.elemHi x i = some (e i).hi) ∧
      SameOutside s t (elemAddr x 0) (16 * n) := by
  refine ⟨_, exec_of_ok h, ⟨rfl, rfl, rfl, rfl, rfl, rfl, rfl, rfl, rfl⟩, ⟨rfl, rfl⟩,
    fun i hi => State.words_writeElems s x e hi, fun b hb => ?_⟩
  exact State.read_writeElems_outside (by simpa using hb)

section
variable {dom : Dom} {logn : Nat} {x y z : BufIx} {s : State} (hlogn : logn ≤ limit s.cfg dom)
include hlogn

/-- LOADSEQ of written digits that fit (R220). -/
theorem cmdLoadseq_eq_ok {d : Nat → Int} (hlen : s.len y ≤ s.cfg.nMax) (hfit : s.len y ≤ 2 ^ logn)
    (hd : ∀ i, i < s.len y → s.digit y i = some (d i)) :
    cmdLoadseq dom logn x y s = .ok (s.writeElems x
      ((List.range (2 ^ logn)).map fun i => toSeq s.cfg dom (if i < s.len y then d i else 0))) := by
  have hds : s.digits y (s.len y) = some ((List.range (s.len y)).map d) :=
    State.digits_eq_some_iff.2 ⟨by simp, fun i hi => by simpa using hd i (by simpa using hi)⟩
  have hpad : (List.range (s.len y)).map d ++ List.replicate (2 ^ logn - s.len y) 0 =
      (List.range (2 ^ logn)).map fun i => if i < s.len y then d i else 0 := by
    refine List.ext_getElem (by simp; omega) fun i h1 h2 => ?_
    by_cases hi : i < s.len y <;> simp [List.getElem_append, hi]
  simp only [cmdLoadseq, if_neg hlen.not_gt, if_neg hlogn.not_gt, if_neg hfit.not_gt, hds, hpad, List.map_map]
  rfl

section
variable {a : Nat → Elem} (ha : ∀ i, i < 2 ^ logn → s.elem dom x i = some (a i))
  (hlegal : dom = .m → ∀ i, i < 2 ^ logn → (a i).residue < s.cfg.nttP)
include ha hlegal

/-- FWD of written, legal elements (R170). -/
theorem cmdFwd_eq_ok : cmdFwd dom logn x s =
    .ok (s.writeElems x ((List.range (2 ^ logn)).map (indexTransform s.cfg dom .fwd logn a))) := by
  rw [cmdFwd_of_elems hlogn (State.elems_of_elem ha), residuesLegal_map_range hlegal, if_pos rfl, transform_map_range]

/-- INV of written, legal elements (R172, R173). -/
theorem cmdInv_eq_ok : cmdInv dom logn x s = .ok (s.writeElems x ((List.range (2 ^ logn)).map fun i =>
    scaleElem s.cfg dom (indexTransform s.cfg dom .inv logn a i) (2 ^ logn))) := by
  rw [cmdInv_of_elems hlogn (State.elems_of_elem ha), residuesLegal_map_range hlegal, if_pos rfl, transform_map_range,
    List.map_map]
  rfl

end

/-- PMUL of written, legal elements (R200). -/
theorem cmdPmul_eq_ok {a b : Nat → Elem} (ha : ∀ i, i < 2 ^ logn → s.elem dom y i = some (a i))
    (hb : ∀ i, i < 2 ^ logn → s.elem dom z i = some (b i))
    (hla : dom = .m → ∀ i, i < 2 ^ logn → (a i).residue < s.cfg.nttP)
    (hlb : dom = .m → ∀ i, i < 2 ^ logn → (b i).residue < s.cfg.nttP) :
    cmdPmul dom logn x y z s =
      .ok (s.writeElems x ((List.range (2 ^ logn)).map fun i => mulElem s.cfg dom (a i) (b i))) := by
  rw [cmdPmul_of_elems hlogn (State.elems_of_elem ha) (State.elems_of_elem hb), residuesLegal_map_range hla,
    residuesLegal_map_range hlb, Bool.and_self, if_pos rfl, List.zipWith_map, List.zipWith_self]

/-- PMAC of written, legal elements (R203). -/
theorem cmdPmac_eq_ok {a b c : Nat → Elem} (hc : ∀ i, i < 2 ^ logn → s.elem dom x i = some (c i))
    (ha : ∀ i, i < 2 ^ logn → s.elem dom y i = some (a i)) (hb : ∀ i, i < 2 ^ logn → s.elem dom z i = some (b i))
    (hlc : dom = .m → ∀ i, i < 2 ^ logn → (c i).residue < s.cfg.nttP)
    (hla : dom = .m → ∀ i, i < 2 ^ logn → (a i).residue < s.cfg.nttP)
    (hlb : dom = .m → ∀ i, i < 2 ^ logn → (b i).residue < s.cfg.nttP) :
    cmdPmac dom logn x y z s = .ok (s.writeElems x ((List.range (2 ^ logn)).map fun i =>
      addElem s.cfg dom (c i) (mulElem s.cfg dom (a i) (b i)))) := by
  rw [cmdPmac_of_elems hlogn (State.elems_of_elem hc) (State.elems_of_elem ha) (State.elems_of_elem hb),
    residuesLegal_map_range hlc, residuesLegal_map_range hla, residuesLegal_map_range hlb, Bool.and_self,
    Bool.and_self, if_pos rfl, List.zipWith_map, List.zipWith_self, List.zipWith_map, List.zipWith_self]

end

/-- Settles O13: the written elements are the converted digits, padded. -/
theorem loadseqFillsTheSequence : Obligations.LoadseqFillsTheSequence := by
  intro dom logn x y s d hlen hlogn hfit hd
  exact exec_of_writeElems (i := .loadseq dom logn x y) (cmdLoadseq_eq_ok hlogn hlen hfit hd)

/-- Settles O17: the recursive transform is the indexed one. -/
theorem fwdLeavesTheIndexedTransform : Obligations.FwdLeavesTheIndexedTransform := by
  intro dom logn x s a hlogn ha hlegal
  exact exec_of_writeElems (i := .fwd dom logn x) (cmdFwd_eq_ok hlogn ha hlegal)

/-- Settles O18: the recursive transform is the indexed one, and the scale comes last. -/
theorem invLeavesTheScaledTransform : Obligations.InvLeavesTheScaledTransform := by
  intro dom logn x s a hlogn ha hlegal
  exact exec_of_writeElems (i := .inv dom logn x) (cmdInv_eq_ok hlogn ha hlegal)

/-- Settles O25: both sources are read before the destination is written. -/
theorem pmulIsElementwise : Obligations.PmulIsElementwise := by
  intro dom logn x y z s a b hlogn hab hlegal
  exact exec_of_writeElems (i := .pmul dom logn x y z) (cmdPmul_eq_ok hlogn (fun i hi => (hab i hi).1)
    (fun i hi => (hab i hi).2) (fun hm i hi => (hlegal hm i hi).1) fun hm i hi => (hlegal hm i hi).2)

/-- Settles O26: destination and sources are read before the destination is written. -/
theorem pmacIsElementwise : Obligations.PmacIsElementwise := by
  intro dom logn x y z s c a b hlogn hcab hlegal
  exact exec_of_writeElems (i := .pmac dom logn x y z) (cmdPmac_eq_ok hlogn (fun i hi => (hcab i hi).1)
    (fun i hi => (hcab i hi).2.1) (fun i hi => (hcab i hi).2.2) (fun hm i hi => (hlegal hm i hi).1)
    (fun hm i hi => (hlegal hm i hi).2.1) fun hm i hi => (hlegal hm i hi).2.2)

end Sys2Proof.Machine
end

section
/-! PROOF. The modular transform over the field of residues: the DFT, its inverse and cyclic convolution
(spec/41_transform.md R170, R172, spec/42_pointwise.md R202). -/

namespace Sys2Proof.Machine

/-! ### Sums over a cycle -/

/-- A sum over an even number of positions, by parity (R166). -/
theorem sum_range_two_mul {M : Type} [AddCommMonoid M] (f : Nat → M) (h : Nat) :
    ∑ m ∈ Finset.range (2 * h), f m = ∑ m ∈ Finset.range h, f (2 * m) + ∑ m ∈ Finset.range h, f (2 * m + 1) := by
  induction h with
  | zero => simp
  | succ h ih =>
    rw [Nat.mul_succ, Finset.sum_range_succ, Finset.sum_range_succ, Finset.sum_range_succ, Finset.sum_range_succ, ih]
    abel

/-- A sum over a cycle of `n` positions, taken from position `m` on. -/
theorem sum_range_shift {M : Type} [AddCommMonoid M] {n m : Nat} (hm : m < n) (g : Nat → Nat → M) :
    ∑ c ∈ Finset.range n, g ((c + n - m) % n) c = ∑ l ∈ Finset.range n, g l ((m + l) % n) := by
  have hpos : 0 < n := by omega
  have hback : ∀ c < n, (m + (c + n - m) % n) % n = c := fun c hc => by
    rw [Nat.add_mod_mod, Nat.add_sub_cancel' (by omega), Nat.add_mod_right, Nat.mod_eq_of_lt hc]
  have hforth : ∀ l < n, ((m + l) % n + n - m) % n = l := fun l hl => by
    rcases Nat.lt_or_ge (m + l) n with h | h
    · rw [Nat.mod_eq_of_lt h, Nat.sub_add_comm (by omega), Nat.add_sub_cancel_left, Nat.add_mod_right,
        Nat.mod_eq_of_lt hl]
    · have hlt : m + l - n < n := by omega
      rw [Nat.mod_eq_sub_mod h, Nat.mod_eq_of_lt hlt, Nat.sub_add_cancel h, Nat.add_sub_cancel_left,
        Nat.mod_eq_of_lt hl]
  refine Finset.sum_nbij' (fun c => (c + n - m) % n) (fun l => (m + l) % n) ?_ ?_ ?_ ?_ ?_
  · exact fun c _ => Finset.mem_range.2 (Nat.mod_lt _ hpos)
  · exact fun l _ => Finset.mem_range.2 (Nat.mod_lt _ hpos)
  · exact fun c hc => hback c (Finset.mem_range.1 hc)
  · exact fun l hl => hforth l (Finset.mem_range.1 hl)
  · exact fun c hc => by rw [hback c (Finset.mem_range.1 hc)]

/-! ### The DFT over a field -/

section
variable {R : Type} [CommRing R] {n : Nat} {w : R}

/-- `sum a[m] * w^(m*i)` over `m < n`. -/
def dft (w : R) (n : Nat) (a : Nat → R) (i : Nat) : R := ∑ m ∈ Finset.range n, a m * w ^ (m * i)

/-- The cyclic convolution of two sequences of length `n`. -/
def cyclicConv (n : Nat) (u v : Nat → R) (k : Nat) : R :=
  ∑ i ∈ Finset.range n, u i * v ((k + n - i) % n)

theorem dft_congr {a b : Nat → R} (h : ∀ m < n, a m = b m) (i : Nat) : dft w n a i = dft w n b i :=
  Finset.sum_congr rfl fun m hm => by rw [h m (Finset.mem_range.1 hm)]

theorem pow_mod_of_pow_eq_one (hw : w ^ n = 1) (m : Nat) : w ^ (m % n) = w ^ m := by
  conv_rhs => rw [← Nat.div_add_mod m n, pow_add, pow_mul, hw, one_pow, one_mul]

/-- The DFT of a convolution is the product of the DFTs. -/
theorem dft_cyclicConv (hw : w ^ n = 1) (u v : Nat → R) (i : Nat) :
    dft w n (cyclicConv n u v) i = dft w n u i * dft w n v i := by
  have hpow : ∀ m l : Nat, w ^ ((m + l) % n * i) = w ^ (m * i) * w ^ (l * i) := fun m l => by
    rw [pow_mul, pow_mod_of_pow_eq_one hw, ← pow_mul, add_mul, pow_add]
  simp only [dft, cyclicConv, Finset.sum_mul]
  rw [Finset.sum_comm]
  refine Finset.sum_congr rfl fun m hm => ?_
  rw [sum_range_shift (Finset.mem_range.1 hm) fun l c => u m * v l * w ^ (c * i), Finset.mul_sum]
  refine Finset.sum_congr rfl fun l _ => ?_
  rw [hpow]
  ring

end

section
variable {F : Type} [Field F] {n : Nat} {w : F}

/-- The powers of a root of unity other than 1 sum to 0. -/
theorem sum_pow_eq_zero {x : F} (hx : x ^ n = 1) (hne : x ≠ 1) : ∑ k ∈ Finset.range n, x ^ k = 0 := by
  have h := mul_geom_sum x n
  rw [hx, sub_self] at h
  exact (mul_eq_zero.1 h).resolve_left (sub_ne_zero.2 hne)

/-- The DFT with the inverse root undoes the DFT, up to the factor `n`. -/
theorem dft_inv_dft (hw : IsPrimitiveRoot w n) {w' : F} (hinv : w * w' = 1) (u : Nat → F) {i : Nat} (hi : i < n) :
    dft w' n (dft w n u) i = n * u i := by
  have hne : w ≠ 0 := left_ne_zero_of_mul_eq_one hinv
  obtain rfl : w' = w⁻¹ := eq_inv_of_mul_eq_one_right hinv
  have hterm : ∀ m k : Nat, w ^ (m * k) * w⁻¹ ^ (k * i) = (w ^ m / w ^ i) ^ k := fun m k => by
    rw [div_pow, ← pow_mul, ← pow_mul, inv_pow, mul_comm k i, div_eq_mul_inv]
  have hsum : ∀ m < n, ∑ k ∈ Finset.range n, (w ^ m / w ^ i) ^ k = if m = i then (n : F) else 0 := fun m hm => by
    split_ifs with h
    · rw [h, div_self (pow_ne_zero i hne)]
      simp
    · refine sum_pow_eq_zero ?_ fun hone => h ?_
      · rw [div_pow, ← pow_mul, ← pow_mul, mul_comm m, mul_comm i, pow_mul, pow_mul, hw.pow_eq_one, one_pow, one_pow,
          div_one]
      · exact hw.pow_inj hm hi (by rwa [div_eq_one_iff_eq (pow_ne_zero i hne)] at hone)
  calc dft w⁻¹ n (dft w n u) i
      = ∑ m ∈ Finset.range n, u m * ∑ k ∈ Finset.range n, (w ^ m / w ^ i) ^ k := by
        simp only [dft, Finset.sum_mul, Finset.mul_sum, mul_assoc, hterm]
        exact Finset.sum_comm
    _ = ∑ m ∈ Finset.range n, if m = i then n * u m else 0 := by
        refine Finset.sum_congr rfl fun m hm => ?_
        rw [hsum m (Finset.mem_range.1 hm), mul_ite, mul_zero, mul_comm]
    _ = n * u i := by rw [Finset.sum_ite_eq' , if_pos (Finset.mem_range.2 hi)]

end

/-! ### Residues as field elements (R165) -/

section
variable {p : Params} (hp : p.Legal)

/-- A modular element in the field of residues. -/
def Elem.toField (p : Params) (e : Elem) : ZMod p.nttP := (e.residue : ZMod p.nttP)

include hp

theorem residue_elemOfResidue {u : Nat} (hu : u < p.nttP) : (elemOfResidue u).residue = u := by
  have := hp.lt_pow
  rw [Elem.residue, elemOfResidue, BitVec.toNat_ofNat, Nat.mod_eq_of_lt (by omega)]

/-- A result reduced modulo `NTT_P` is legal, and stands for what was reduced. -/
theorem elemOfResidue_mod (n : Nat) : (elemOfResidue (n % p.nttP)).residue < p.nttP ∧
    (elemOfResidue (n % p.nttP)).toField p = (n : ZMod p.nttP) := by
  have hlt : n % p.nttP < p.nttP := Nat.mod_lt _ hp.prime.pos
  rw [Elem.toField, residue_elemOfResidue hp hlt, ZMod.natCast_mod]
  exact ⟨hlt, rfl⟩

theorem addElem_spec (x y : Elem) : (addElem p .m x y).residue < p.nttP ∧
    (addElem p .m x y).toField p = x.toField p + y.toField p := by
  obtain ⟨hlt, hval⟩ := elemOfResidue_mod hp (x.residue + y.residue)
  exact ⟨hlt, hval.trans (Nat.cast_add ..)⟩

theorem subElem_spec (x : Elem) {y : Elem} (hy : y.residue < p.nttP) : (subElem p .m x y).residue < p.nttP ∧
    (subElem p .m x y).toField p = x.toField p - y.toField p := by
  obtain ⟨hlt, hval⟩ := elemOfResidue_mod hp (x.residue + p.nttP - y.residue)
  refine ⟨hlt, hval.trans ?_⟩
  rw [Nat.cast_sub (by omega), Nat.cast_add, ZMod.natCast_self, add_zero]
  rfl

theorem mulElem_spec (x y : Elem) : (mulElem p .m x y).residue < p.nttP ∧
    (mulElem p .m x y).toField p = x.toField p * y.toField p := by
  obtain ⟨hlt, hval⟩ := elemOfResidue_mod hp (x.residue * y.residue)
  exact ⟨hlt, hval.trans (Nat.cast_mul ..)⟩

/-- `NINV(n)` inverts `n` in the field (R165). -/
theorem scaleElem_spec (x : Elem) {n : Nat} (hn : (n : ZMod p.nttP) ≠ 0) :
    (scaleElem p .m x n).residue < p.nttP ∧ n * (scaleElem p .m x n).toField p = x.toField p := by
  obtain ⟨hlt, hval⟩ := elemOfResidue_mod hp (x.residue * invMod p.nttP n)
  have hinv : (n : ZMod p.nttP) * (invMod p.nttP n : ℕ) = 1 := by
    have h := congrArg (Nat.cast (R := ZMod p.nttP)) (mul_ninv hp ((ZMod.natCast_eq_zero_iff _ _).not.1 hn))
    rwa [ZMod.natCast_mod, Nat.cast_mul, Nat.cast_one, ← invMod_eq] at h
  refine ⟨hlt, ?_⟩
  change (n : ZMod p.nttP) * (elemOfResidue (x.residue * invMod p.nttP n % p.nttP)).toField p = x.toField p
  rw [hval, Nat.cast_mul, mul_left_comm, hinv, mul_one]
  rfl

theorem oneElem_spec : (oneElem .m).residue < p.nttP ∧ (oneElem .m).toField p = 1 := by
  have := hp.two_lt
  have hone : (oneElem .m).residue = 1 := rfl
  rw [Elem.toField, hone, Nat.cast_one]
  exact ⟨by omega, rfl⟩

/-! ### The roots (R163) -/

theorem one_le_nttLog2Max : 1 ≤ nttLog2Max p := by
  have h2 := hp.two_lt
  have hodd := (hp.prime.eq_two_or_odd).resolve_left (by omega)
  exact le_nttLog2Max hp (by rw [pow_one]; omega)

/-- The forward root of a level is a primitive root of unity, of level 0 included. -/
theorem isPrimitiveRoot_rootModular_fwd {j : Nat} (hj : j ≤ nttLog2Max p) :
    IsPrimitiveRoot ((rootModular p .fwd j : ℕ) : ZMod p.nttP) (2 ^ j) := by
  obtain _ | j := j
  · have hone := one_le_nttLog2Max hp
    have hsq := pow_orderOf_eq_one ((rootModular p .fwd 1 : ℕ) : ZMod p.nttP)
    rw [orderOf_rootModular le_rfl hone hp, pow_one] at hsq
    rw [rootModular_pred le_rfl hone, ZMod.natCast_mod, Nat.cast_pow, hsq, pow_zero]
    exact IsPrimitiveRoot.one
  · rw [← orderOf_rootModular (Nat.succ_pos j) hj hp]
    exact IsPrimitiveRoot.orderOf _

theorem rootModular_mul_inv_field {j : Nat} (hj : j ≤ nttLog2Max p) :
    ((rootModular p .fwd j : ℕ) : ZMod p.nttP) * ((rootModular p .inv j : ℕ) : ZMod p.nttP) = 1 := by
  have : Fact p.nttP.Prime := ⟨hp.prime⟩
  have hne := (isPrimitiveRoot_rootModular_fwd hp hj).ne_zero (Nat.two_pow_pos j).ne'
  have h := congrArg (Nat.cast (R := ZMod p.nttP)) (mul_ninv hp ((ZMod.natCast_eq_zero_iff _ _).not.1 hne))
  rwa [ZMod.natCast_mod, Nat.cast_mul, Nat.cast_one, ← rootModular_inv] at h

theorem isPrimitiveRoot_rootModular {j : Nat} (hj : j ≤ nttLog2Max p) (dir : Dir) :
    IsPrimitiveRoot ((rootModular p dir j : ℕ) : ZMod p.nttP) (2 ^ j) := by
  have : Fact p.nttP.Prime := ⟨hp.prime⟩
  cases dir with
  | fwd => exact isPrimitiveRoot_rootModular_fwd hp hj
  | inv =>
    rw [eq_inv_of_mul_eq_one_right (rootModular_mul_inv_field hp hj)]
    exact (isPrimitiveRoot_rootModular_fwd hp hj).inv

/-- Half way round, the root of a level is -1. -/
theorem rootModular_pow_half {j : Nat} (hj : j + 1 ≤ nttLog2Max p) (dir : Dir) :
    ((rootModular p dir (j + 1) : ℕ) : ZMod p.nttP) ^ 2 ^ j = -1 := by
  have : Fact p.nttP.Prime := ⟨hp.prime⟩
  exact ((isPrimitiveRoot_rootModular hp hj dir).pow (Nat.two_pow_pos _) (pow_succ 2 j)).eq_neg_one_of_two_right

theorem rootModular_lt (dir : Dir) (j : Nat) : rootModular p dir j < p.nttP := by
  have hpos := hp.prime.pos
  cases dir with
  | fwd => rw [rootModular_fwd]; exact Nat.mod_lt _ hpos
  | inv => rw [rootModular_inv]; exact Nat.mod_lt _ hpos

theorem toField_rootElem (dir : Dir) (j : Nat) :
    (rootElem p .m dir j).toField p = ((rootModular p dir j : ℕ) : ZMod p.nttP) :=
  congrArg Nat.cast (residue_elemOfResidue hp (rootModular_lt hp dir j))

/-! ### The modular transform is the DFT (R170) -/

/-- The twiddles are the powers of the root (R167). -/
theorem toField_twiddle (r : Elem) (j : Nat) : (twiddle p .m r j).toField p = r.toField p ^ j := by
  induction j with
  | zero => rw [pow_zero]; exact (oneElem_spec hp).2
  | succ j ih => rw [twiddle, (mulElem_spec hp _ r).2, ih, pow_succ]

/-- The transform keeps residues legal. -/
theorem residue_indexTransform_lt (dir : Dir) {j : Nat} {a : Nat → Elem} (ha : ∀ i, i < 2 ^ j → (a i).residue < p.nttP)
    {i : Nat} (hi : i < 2 ^ j) : (indexTransform p .m dir j a i).residue < p.nttP := by
  cases j with
  | zero => exact ha i hi
  | succ j =>
    simp only [indexTransform]
    split_ifs
    · exact (addElem_spec hp _ _).1
    · exact (subElem_spec hp _ (mulElem_spec hp _ _).1).1

/-- R170: the recursive halves are the even and odd parts of the DFT, the root's square serving them, and its half-way
power -1 giving the upper outputs. -/
theorem toField_indexTransform (dir : Dir) {j : Nat} (hj : j ≤ nttLog2Max p) (a : Nat → Elem) {i : Nat}
    (hi : i < 2 ^ j) : (indexTransform p .m dir j a i).toField p =
      dft ((rootModular p dir j : ℕ) : ZMod p.nttP) (2 ^ j) (fun m => (a m).toField p) i := by
  induction j generalizing a i with
  | zero =>
    obtain rfl : i = 0 := by omega
    simp [indexTransform, dft]
  | succ j ih =>
    have htwo : 2 ^ (j + 1) = 2 * 2 ^ j := by ring
    have hhalf := rootModular_pow_half hp hj dir
    have hsquare : ((rootModular p dir j : ℕ) : ZMod p.nttP) = ((rootModular p dir (j + 1) : ℕ) : ZMod p.nttP) ^ 2 := by
      have h := rootModular_pred (p := p) (j := j + 1) (Nat.succ_pos j) hj dir
      rw [Nat.add_sub_cancel] at h
      rw [h, ZMod.natCast_mod, Nat.cast_pow]
    have hroot := toField_rootElem hp dir (j + 1)
    set r := ((rootModular p dir (j + 1) : ℕ) : ZMod p.nttP) with hr
    have hsplit : ∀ i, dft r (2 ^ (j + 1)) (fun m => (a m).toField p) i =
        dft (r ^ 2) (2 ^ j) (fun m => (a (2 * m)).toField p) i +
          r ^ i * dft (r ^ 2) (2 ^ j) (fun m => (a (2 * m + 1)).toField p) i := fun i => by
      simp only [dft]
      rw [htwo, sum_range_two_mul, Finset.mul_sum]
      congr 1 <;> refine Finset.sum_congr rfl fun m _ => ?_ <;> ring
    simp only [indexTransform]
    split_ifs with hlt
    · rw [(addElem_spec hp _ _).2, (mulElem_spec hp _ _).2, toField_twiddle hp, hroot, ih (by omega) _ hlt,
        ih (by omega) _ hlt, hsquare, hsplit]
    · obtain ⟨m, rfl⟩ := Nat.exists_eq_add_of_le (Nat.not_lt.1 hlt)
      have hm : m < 2 ^ j := by omega
      have hperiod : ∀ b : Nat → ZMod p.nttP, dft (r ^ 2) (2 ^ j) b (2 ^ j + m) = dft (r ^ 2) (2 ^ j) b m := fun b => by
        refine Finset.sum_congr rfl fun l _ => ?_
        have hone : (r ^ 2) ^ 2 ^ j = 1 := by rw [pow_right_comm, hhalf, neg_one_sq]
        rw [mul_add, pow_add, mul_comm l (2 ^ j), pow_mul _ (2 ^ j), hone, one_pow, one_mul]
      rw [(subElem_spec hp _ (mulElem_spec hp _ _).1).2, (mulElem_spec hp _ _).2, toField_twiddle hp, hroot,
        Nat.add_sub_cancel_left, ih (by omega) _ hm, ih (by omega) _ hm, hsquare, hsplit, hperiod, hperiod, pow_add,
        hhalf]
      ring

end

end Sys2Proof.Machine
end

section
/-! PROOF. Runs of commands: what one leaves for the next, the modular transform and its inverse, and the convolution
of CONV (spec/41_transform.md R170, R172, spec/42_pointwise.md R202, spec/30_encoding.md R111). -/

namespace Sys2Proof.Machine

/-! ### A command after a completion

A command reads neither the phase nor DONE nor ERR, so it does after a completion what it does before it. -/

/-- The same end in a state completed with `e`. -/
def CmdResult.completed (e : ErrCode) : CmdResult → CmdResult
  | .ok s => .ok (s.complete e)
  | .error c s => .error c (s.complete e)
  | .fault f => .fault f

theorem CmdResult.finish_completed (r : CmdResult) (e : ErrCode) : (r.completed e).finish = r.finish := by
  cases r <;> rfl

section
variable (s t : State) (e c : ErrCode) (f : Fault)

@[simp] theorem CmdResult.completed_ok : (CmdResult.ok t).completed e = .ok (t.complete e) := rfl

@[simp] theorem CmdResult.completed_error : (CmdResult.error c t).completed e = .error c (t.complete e) := rfl

@[simp] theorem CmdResult.completed_fault : (CmdResult.fault f).completed e = .fault f := rfl

end

section
variable (dom : Dom) (logn : Nat) (x y z : BufIx) (s : State) (e : ErrCode)

@[simp] theorem State.digits_complete (n : Nat) : (s.complete e).digits x n = s.digits x n := rfl

@[simp] theorem State.elems_complete (n : Nat) : (s.complete e).elems dom x n = s.elems dom x n := rfl

@[simp] theorem State.writeElems_complete (es : List Elem) :
    (s.complete e).writeElems x es = (s.writeElems x es).complete e := rfl

@[simp] theorem State.writeDigits_complete (ds : List Int) :
    (s.complete e).writeDigits x ds = (s.writeDigits x ds).complete e := rfl

@[simp] theorem State.setLen_complete (n : Nat) : (s.complete e).setLen x n = (s.setLen x n).complete e := rfl

@[simp] theorem State.setSign_complete (b : Bool) : (s.complete e).setSign x b = (s.setSign x b).complete e := rfl

@[simp] theorem commitNorm_complete (ds : List Int) (neg : Bool) :
    commitNorm x ds neg (s.complete e) = (commitNorm x ds neg s).complete e := rfl

theorem cmdLoadseq_complete : cmdLoadseq dom logn x y (s.complete e) = (cmdLoadseq dom logn x y s).completed e := by
  by_cases hlen : s.cfg.nMax < s.len y
  · simp [cmdLoadseq, hlen]
  by_cases hsize : limit s.cfg dom < logn ∨ 2 ^ logn < s.len y
  · rw [cmdLoadseq_size (s := s) (not_lt.1 hlen) hsize]
    exact cmdLoadseq_size (s := s.complete e) (not_lt.1 hlen) hsize
  · obtain ⟨hlogn, hfit⟩ := not_or.1 hsize
    cases hds : s.digits y (s.len y) <;> simp [cmdLoadseq, hlen, hlogn, hfit, hds]

theorem cmdStoredig_complete :
    cmdStoredig dom logn x y (s.complete e) = (cmdStoredig dom logn x y s).completed e := by
  by_cases hlogn : limit s.cfg dom < logn
  · simp [cmdStoredig, hlogn]
  cases hes : s.elems .m y (2 ^ logn) with
  | none => simp [cmdStoredig, hlogn, hes]
  | some es =>
    by_cases hlegal : residuesLegal s.cfg dom es = true
    · cases hds : storedDigits dom es <;> simp [cmdStoredig, hlogn, hes, hlegal, hds]
    · simp [cmdStoredig, hlogn, hes, hlegal]

theorem cmdFwd_complete : cmdFwd dom logn x (s.complete e) = (cmdFwd dom logn x s).completed e := by
  by_cases hlogn : limit s.cfg dom < logn
  · simp [cmdFwd, hlogn]
  cases ha : s.elems dom x (2 ^ logn) with
  | none => simp [cmdFwd, hlogn, ha]
  | some a => by_cases hlegal : residuesLegal s.cfg dom a = true <;> simp [cmdFwd, hlogn, ha, hlegal]

theorem cmdInv_complete : cmdInv dom logn x (s.complete e) = (cmdInv dom logn x s).completed e := by
  by_cases hlogn : limit s.cfg dom < logn
  · simp [cmdInv, hlogn]
  cases ha : s.elems dom x (2 ^ logn) with
  | none => simp [cmdInv, hlogn, ha]
  | some a => by_cases hlegal : residuesLegal s.cfg dom a = true <;> simp [cmdInv, hlogn, ha, hlegal]

theorem cmdPmul_complete : cmdPmul dom logn x y z (s.complete e) = (cmdPmul dom logn x y z s).completed e := by
  by_cases hlogn : limit s.cfg dom < logn
  · simp [cmdPmul, hlogn]
  cases ha : s.elems dom y (2 ^ logn) with
  | none => simp [cmdPmul, hlogn, ha]
  | some a =>
    cases hb : s.elems dom z (2 ^ logn) with
    | none => simp [cmdPmul, hlogn, ha, hb]
    | some b =>
      by_cases hla : residuesLegal s.cfg dom a = true <;> by_cases hlb : residuesLegal s.cfg dom b = true <;>
        simp [cmdPmul, hlogn, ha, hb, hla, hlb]

theorem cmdNorm_complete : cmdNorm x (s.complete e) = (cmdNorm x s).completed e := by
  by_cases hlen : s.cfg.nMax < s.len x
  · simp [cmdNorm, hlen]
  cases hds : s.digits x (s.len x) with
  | none => simp [cmdNorm, hlen, hds]
  | some ds => cases hphase : phase1 s.cfg.nMax (normInput ds) <;> simp [cmdNorm, hlen, hds, hphase]

end

/-- Statements that end the same way after a completion complete the same way. -/
theorem exec_complete {i : Instr} {s : State} {e : ErrCode} (h : cmd i (s.complete e) = (cmd i s).completed e) :
    exec i (s.complete e) = exec i s := by
  rw [exec_eq_finish, exec_eq_finish, h, CmdResult.finish_completed]

/-! ### Buffers apart (R78, R79) -/

section
variable {s : State} {n : Nat}

/-- The elements of a buffer after a write of all of them, as a domain reads them. -/
theorem State.elem_writeElems_same (dom : Dom) (x : BufIx) {e : Nat → Elem}
    (he : dom = .m → ∀ i, i < n → (e i).hi = 0) {i : Nat} (hi : i < n) :
    (s.writeElems x ((List.range n).map e)).elem dom x i = some (e i) := by
  obtain ⟨hlo, hhi⟩ := State.words_writeElems s x e hi
  unfold State.elemLo at hlo
  unfold State.elemHi at hhi
  cases dom with
  | c => simp only [State.elem, elemIn, hlo, hhi]
  | m =>
    have hzero := he rfl i hi
    simp only [State.elem, elemIn, hlo, Option.map_some, ← hzero]

theorem elem_eq_of_readWord {m m' : Memory} {dom : Dom} {k : BufIx} {i : Nat}
    (hlo : m'.readWord (elemAddr k i) = m.readWord (elemAddr k i))
    (hhi : m'.readWord (elemAddr k i + 8) = m.readWord (elemAddr k i + 8)) : elemIn m' dom k i = elemIn m dom k i := by
  cases dom <;> simp only [elemIn, hlo, hhi]

/-- A write to a sequence buffer leaves the elements of the others alone. -/
theorem State.elem_writeElems_other (dom : Dom) {x y : BufIx} (hxy : y ≠ x) {es : List Elem}
    (hes : es.length ≤ 2 ^ 23) {i : Nat} (hi : i < 2 ^ 23) : (s.writeElems x es).elem dom y i = s.elem dom y i := by
  have hne : y.val ≠ x.val := fun h => hxy (Fin.ext h)
  refine elem_eq_of_readWord (State.readWord_writeElems_outside ?_) (State.readWord_writeElems_outside ?_) <;>
    unfold elemAddr <;> omega

/-- A write to a sequence buffer leaves the digit buffers alone. -/
theorem State.digit_writeElems (x y : BufIx) (es : List Elem) {i : Nat} (hi : i < 2 ^ 23) :
    (s.writeElems x es).digit y i = s.digit y i := by
  have hy := y.isLt
  refine congrArg (Option.map BitVec.toInt) (State.readWord_writeElems_outside (.inl ?_))
  unfold digitAddr elemAddr
  omega

/-- A write to a digit buffer leaves the sequence buffers alone. -/
theorem State.elem_writeDigits (dom : Dom) (x y : BufIx) {ds : List Int} (hds : ds.length ≤ 2 ^ 23) (i : Nat) :
    (s.writeDigits x ds).elem dom y i = s.elem dom y i := by
  have hx := x.isLt
  refine elem_eq_of_readWord (State.readWord_writeDigits_outside (.inr ?_))
    (State.readWord_writeDigits_outside (.inr ?_)) <;> unfold digitAddr elemAddr <;> omega

end

/-! ### What a domain reads -/

theorem hi_indexTransform {p : Params} {dir : Dir} {j : Nat} {a : Nat → Elem} (ha : ∀ i, i < 2 ^ j → (a i).hi = 0)
    {i : Nat} (hi : i < 2 ^ j) : (indexTransform p .m dir j a i).hi = 0 := by
  cases j with
  | zero => exact ha i hi
  | succ j =>
    simp only [indexTransform]
    split_ifs <;> rfl

/-- A modular read gives high word 0 (R44). -/
theorem hi_of_elem {s : State} {k : BufIx} {i : Nat} {e : Elem} (h : s.elem .m k i = some e) : e.hi = 0 := by
  obtain ⟨lo, -, rfl⟩ := Option.map_eq_some_iff.1 h
  rfl

theorem two_pow_le_of_limit {p : Params} (hcap : p.log2Nmax ≤ 23) {dom : Dom} {k : Nat} (hk : k ≤ limit p dom) :
    2 ^ k ≤ 2 ^ 23 := Nat.pow_le_pow_right two_pos (hk.trans ((limit_le p dom).trans hcap))

/-! ### The convolution of CONV (R111, R202) -/

/-- Element `i` of FWD, FWD, PMUL, INV of two sequences. -/
def convElem (p : Params) (dom : Dom) (k : Nat) (a b : Nat → Elem) (i : Nat) : Elem :=
  scaleElem p dom (indexTransform p dom .inv k (fun i =>
    mulElem p dom (indexTransform p dom .fwd k a i) (indexTransform p dom .fwd k b i)) i) (2 ^ k)

section
variable {dom : Dom} {k : Nat} {x y : BufIx} {s : State} {a b : Nat → Elem} (hp : s.cfg.Legal)
  (hk : k ≤ limit s.cfg dom) (hxy : x ≠ y) (ha : ∀ i, i < 2 ^ k → s.elem dom x i = some (a i))
  (hb : ∀ i, i < 2 ^ k → s.elem dom y i = some (b i))
  (hla : dom = .m → ∀ i, i < 2 ^ k → (a i).residue < s.cfg.nttP)
  (hlb : dom = .m → ∀ i, i < 2 ^ k → (b i).residue < s.cfg.nttP)
include hp hk hxy ha hb hla hlb

/-- FWD of both sequences, PMUL into the first and INV of it end well, and leave the convolution. -/
theorem cmd_conv : ∃ s1 s2 s3 s4, cmdFwd dom k x s = .ok s1 ∧ cmdFwd dom k y s1 = .ok s2 ∧
    cmdPmul dom k x x y s2 = .ok s3 ∧ cmdInv dom k x s3 = .ok s4 ∧ ∀ i, i < 2 ^ k →
      s4.elemLo x i = some (convElem s.cfg dom k a b i).lo ∧ s4.elemHi x i = some (convElem s.cfg dom k a b i).hi := by
  have hcap := two_pow_le_of_limit hp.log2Nmax_le hk
  have hlen : ∀ e : Nat → Elem, ((List.range (2 ^ k)).map e).length ≤ 2 ^ 23 := fun e => by simpa using hcap
  have hfwd : ∀ {j} {c : Nat → Elem}, (∀ i, i < 2 ^ k → s.elem dom j i = some (c i)) →
      (dom = .m → ∀ i, i < 2 ^ k → (c i).residue < s.cfg.nttP) →
      (dom = .m → ∀ i, i < 2 ^ k → (indexTransform s.cfg dom .fwd k c i).hi = 0) ∧
        (dom = .m → ∀ i, i < 2 ^ k → (indexTransform s.cfg dom .fwd k c i).residue < s.cfg.nttP) := by
    intro j c hc hlc
    constructor <;> rintro rfl i hi
    · exact hi_indexTransform (fun i hi => hi_of_elem (hc i hi)) hi
    · exact residue_indexTransform_lt hp .fwd (hlc rfl) hi
  obtain ⟨hhiA, hlA⟩ := hfwd ha hla
  obtain ⟨hhiB, hlB⟩ := hfwd hb hlb
  have h1 := cmdFwd_eq_ok hk ha hla
  set A := indexTransform s.cfg dom .fwd k a
  set B := indexTransform s.cfg dom .fwd k b
  set s1 := s.writeElems x ((List.range (2 ^ k)).map A)
  have hb1 : ∀ i, i < 2 ^ k → s1.elem dom y i = some (b i) := fun i hi =>
    (State.elem_writeElems_other dom hxy.symm (hlen A) (hi.trans_le hcap)).trans (hb i hi)
  have h2 := cmdFwd_eq_ok (s := s1) hk hb1 hlb
  change cmdFwd dom k y s1 = .ok (s1.writeElems y ((List.range (2 ^ k)).map B)) at h2
  set s2 := s1.writeElems y ((List.range (2 ^ k)).map B)
  have ha2 : ∀ i, i < 2 ^ k → s2.elem dom x i = some (A i) := fun i hi =>
    (State.elem_writeElems_other dom hxy (hlen B) (hi.trans_le hcap)).trans (State.elem_writeElems_same dom x hhiA hi)
  have hb2 : ∀ i, i < 2 ^ k → s2.elem dom y i = some (B i) := fun i hi => State.elem_writeElems_same dom y hhiB hi
  have h3 := cmdPmul_eq_ok (s := s2) (x := x) hk ha2 hb2 hlA hlB
  change cmdPmul dom k x x y s2 =
    .ok (s2.writeElems x ((List.range (2 ^ k)).map fun i => mulElem s.cfg dom (A i) (B i))) at h3
  set C := fun i => mulElem s.cfg dom (A i) (B i)
  set s3 := s2.writeElems x ((List.range (2 ^ k)).map C)
  have hc3 : ∀ i, i < 2 ^ k → s3.elem dom x i = some (C i) := fun i hi =>
    State.elem_writeElems_same dom x (fun hm i _ => by subst hm; rfl) hi
  have h4 := cmdInv_eq_ok (s := s3) hk hc3 fun hm i _ => by
    subst hm
    exact (mulElem_spec hp (A i) (B i)).1
  exact ⟨s1, s2, s3, _, h1, h2, h3, h4, fun i hi => State.words_writeElems s3 x (convElem s.cfg dom k a b) hi⟩

end

/-! ### The modular values -/

/-- A legal element that stands for a natural number holds its remainder. -/
theorem lo_eq_of_toField {p : Params} {e : Elem} {n : Nat} (hlt : e.residue < p.nttP)
    (hval : e.toField p = (n : ZMod p.nttP)) :
    e.lo = BitVec.ofNat 64 (n % p.nttP) := by
  have hmod := (ZMod.natCast_eq_natCast_iff' _ _ _).1 hval
  rw [Nat.mod_eq_of_lt hlt] at hmod
  rw [← hmod, Elem.residue, BitVec.ofNat_toNat, BitVec.setWidth_eq]

section
variable {p : Params} (hp : p.Legal) {k : Nat} (hk : k ≤ nttLog2Max p)
include hp

theorem two_pow_ne_zero (k : Nat) : ((2 ^ k : ℕ) : ZMod p.nttP) ≠ 0 := by
  intro h
  have h2 := hp.two_lt
  have hdvd := hp.prime.dvd_of_dvd_pow ((ZMod.natCast_eq_zero_iff _ _).1 h)
  exact absurd (Nat.le_of_dvd two_pos hdvd) (by omega)

include hk

/-- R172: the scaled inverse transform of a DFT gives what was transformed. -/
theorem toField_scaled_inverse {F : Nat → Elem} {g : Nat → ZMod p.nttP}
    (hF : ∀ i < 2 ^ k, (F i).toField p = dft ((rootModular p .fwd k : ℕ) : ZMod p.nttP) (2 ^ k) g i) {i : Nat}
    (hi : i < 2 ^ k) :
    (scaleElem p .m (indexTransform p .m .inv k F i) (2 ^ k)).residue < p.nttP ∧
      (scaleElem p .m (indexTransform p .m .inv k F i) (2 ^ k)).toField p = g i := by
  have : Fact p.nttP.Prime := ⟨hp.prime⟩
  have hne := two_pow_ne_zero hp k
  obtain ⟨hlt, hscale⟩ := scaleElem_spec hp (indexTransform p .m .inv k F i) hne
  refine ⟨hlt, mul_left_cancel₀ hne ?_⟩
  rw [hscale, toField_indexTransform hp .inv hk F hi, dft_congr hF,
    dft_inv_dft (isPrimitiveRoot_rootModular_fwd hp hk) (rootModular_mul_inv_field hp hk) g hi]

/-- R202: in the modular domain CONV is cyclic convolution. -/
theorem toField_convElem (a b : Nat → Elem) {i : Nat} (hi : i < 2 ^ k) :
    (convElem p .m k a b i).residue < p.nttP ∧ (convElem p .m k a b i).toField p =
      cyclicConv (2 ^ k) (fun i => (a i).toField p) (fun i => (b i).toField p) i := by
  refine toField_scaled_inverse hp hk (fun i hi => ?_) hi
  rw [(mulElem_spec hp _ _).2, toField_indexTransform hp .fwd hk a hi, toField_indexTransform hp .fwd hk b hi,
    dft_cyclicConv (isPrimitiveRoot_rootModular_fwd hp hk).pow_eq_one]

end

/-! ### The settled statements -/

section
variable {s : State} {x : BufIx} {n : Nat} {u : Nat → Nat}
  (hu : ∀ i, i < n → s.elemLo x i = some (BitVec.ofNat 64 (u i)) ∧ u i < s.cfg.nttP)
include hu

theorem elem_of_residues : ∀ i, i < n → s.elem .m x i = some (elemOfResidue (u i)) := fun i hi =>
  congrArg (Option.map fun lo => ({ lo := lo, hi := 0 } : Elem)) (hu i hi).1

variable (hp : s.cfg.Legal)
include hp

theorem legal_of_residues : ∀ i, i < n → (elemOfResidue (u i)).residue < s.cfg.nttP := fun i hi => by
  rw [residue_elemOfResidue hp (hu i hi).2]
  exact (hu i hi).2

theorem toField_of_residues : ∀ i, i < n → (elemOfResidue (u i)).toField s.cfg = (u i : ZMod s.cfg.nttP) :=
  fun i hi => congrArg Nat.cast (residue_elemOfResidue hp (hu i hi).2)

end

theorem le_nttLog2Max_of_limit {p : Params} {k : Nat} (hk : k ≤ limit p .m) : k ≤ nttLog2Max p :=
  hk.trans (min_le_right _ _)

/-- Settles O20: the recursive transform is the DFT over the field of residues. -/
theorem forwardModularIsTheDft : Obligations.ForwardModularIsTheDft := by
  intro logn x s u hp hlogn hu
  have hk := le_nttLog2Max_of_limit hlogn
  have hlegal := legal_of_residues hu hp
  obtain ⟨t, ht, hdone, -, hwords, -⟩ := fwdLeavesTheIndexedTransform .m logn x s _ hlogn (elem_of_residues hu)
    fun _ => hlegal
  refine ⟨t, ht, hdone.err, fun i hi => ?_⟩
  obtain ⟨hlo, hhi⟩ := hwords i hi
  refine ⟨hlo.trans (congrArg some (lo_eq_of_toField (residue_indexTransform_lt hp .fwd hlegal hi) ?_)),
    hhi.trans (congrArg some (hi_indexTransform (fun _ _ => rfl) hi))⟩
  rw [toField_indexTransform hp .fwd hk _ hi, dft_congr (toField_of_residues hu hp), dft]
  push_cast
  rfl

/-- Settles O21: INV reads the DFT that FWD left, and inverts it. -/
theorem inverseModularRestoresTheInput : Obligations.InverseModularRestoresTheInput := by
  intro logn x s u hp hlogn hu
  have hk := le_nttLog2Max_of_limit hlogn
  have hlegal := legal_of_residues hu hp
  set F := indexTransform s.cfg .m .fwd logn fun i => elemOfResidue (u i)
  have hfwd : cmd (.fwd .m logn x) s = .ok (s.writeElems x ((List.range (2 ^ logn)).map F)) :=
    cmdFwd_eq_ok hlogn (elem_of_residues hu) fun _ => hlegal
  set t := s.writeElems x ((List.range (2 ^ logn)).map F)
  have hF : ∀ i, i < 2 ^ logn → t.elem .m x i = some (F i) := fun i hi =>
    State.elem_writeElems_same .m x (fun _ i hi => hi_indexTransform (fun _ _ => rfl) hi) hi
  have hinv := cmdInv_eq_ok (s := t) hlogn hF fun _ i hi => residue_indexTransform_lt hp .fwd hlegal hi
  refine ⟨_, _, exec_of_ok hfwd, (exec_complete (i := .inv .m logn x) (cmdInv_complete ..)).trans
    (exec_of_ok (i := .inv .m logn x) hinv), rfl, fun i hi => ?_⟩
  obtain ⟨hlo, hhi⟩ := State.words_writeElems t x
    (fun i => scaleElem s.cfg .m (indexTransform s.cfg .m .inv logn F i) (2 ^ logn)) hi
  obtain ⟨hlt, hval⟩ := toField_scaled_inverse hp hk (F := F) (g := fun i => (u i : ZMod s.cfg.nttP)) (fun i hi => by
    rw [toField_indexTransform hp .fwd hk _ hi, dft_congr (toField_of_residues hu hp)]) hi
  refine ⟨hlo.trans (congrArg some ?_), hhi⟩
  rw [lo_eq_of_toField hlt hval, Nat.mod_eq_of_lt (hu i hi).2]

/-- Settles O27: the four commands are those of CONV, and the convolution theorem of the DFT gives their result. -/
theorem convolutionIsCyclic : Obligations.ConvolutionIsCyclic := by
  intro logn x y s u v hp hlogn hxy hu hv
  have hk := le_nttLog2Max_of_limit hlogn
  obtain ⟨s1, s2, s3, s4, h1, h2, h3, h4, hwords⟩ := cmd_conv hp hlogn hxy (elem_of_residues hu)
    (elem_of_residues hv) (fun _ => legal_of_residues hu hp) fun _ => legal_of_residues hv hp
  refine ⟨_, _, _, _, exec_of_ok (i := .fwd .m logn x) h1,
    (exec_complete (i := .fwd .m logn y) (cmdFwd_complete ..)).trans (exec_of_ok (i := .fwd .m logn y) h2),
    (exec_complete (i := .pmul .m logn x x y) (cmdPmul_complete ..)).trans (exec_of_ok (i := .pmul .m logn x x y) h3),
    (exec_complete (i := .inv .m logn x) (cmdInv_complete ..)).trans (exec_of_ok (i := .inv .m logn x) h4), rfl,
    fun i hi => ?_⟩
  obtain ⟨hlo, hhi⟩ := hwords i hi
  obtain ⟨hlt, hval⟩ := toField_convElem hp hk (fun i => elemOfResidue (u i)) (fun i => elemOfResidue (v i)) hi
  refine ⟨hlo.trans (congrArg some (lo_eq_of_toField hlt (hval.trans ?_))), hhi⟩
  rw [cyclicConv]
  push_cast
  refine Finset.sum_congr rfl fun j hj => ?_
  rw [toField_of_residues hu hp j (Finset.mem_range.1 hj),
    toField_of_residues hv hp _ (Nat.mod_lt _ (Nat.two_pow_pos logn))]

end Sys2Proof.Machine
end

section
/-! PROOF. When NORM ends in which code (spec/40_normalize.md R131, R133, R136, R137). -/

namespace Sys2Proof.Machine

/-- Settles O29: phase 1 keeps the value, and its extension splits an `int64` top digit. -/
theorem phaseOneKeepsTheValue : Obligations.PhaseOneKeepsTheValue :=
  fun _ _ _ hne h => phase1_eq_ok hne h

/-! ### The linear pass (R131) -/

/-- The sums of the linear pass from an incoming carry `c`. -/
def carrySumFrom (c : Int) (d : Nat → Int) : Nat → Int
  | 0 => d 0 + c
  | i + 1 => d (i + 1) + Int.tdiv (carrySumFrom c d i) 10

theorem carrySumFrom_zero (d : Nat → Int) (i : Nat) : carrySumFrom 0 d i = carrySum d i := by
  induction i with
  | zero => exact add_zero _
  | succ i ih => rw [carrySumFrom, ih, carrySum_succ]

/-- The sums after the first digit are those from its carry. -/
theorem carrySumFrom_succ (c : Int) (d : Nat → Int) (i : Nat) :
    carrySumFrom c d (i + 1) = carrySumFrom (Int.tdiv (d 0 + c) 10) (fun i => d (i + 1)) i := by
  induction i with
  | zero => rfl
  | succ i ih => rw [carrySumFrom, ih, carrySumFrom]

theorem carryPass_cons {c d : Int} {ds : List Int} (hne : ds ≠ []) : carryPass c (d :: ds) =
    if inInt64 (d + c) then (carryPass (Int.tdiv (d + c) 10) ds).map (Int.tmod (d + c) 10 :: ·) else none := by
  obtain ⟨e, ds, rfl⟩ := List.exists_cons_of_ne_nil hne
  rw [carryPass]
  split_ifs
  · cases carryPass (Int.tdiv (d + c) 10) (e :: ds) <;> rfl
  · rfl

theorem map_range_succ (d : Nat → Int) (n : Nat) :
    (List.range (n + 1)).map d = d 0 :: (List.range n).map fun i => d (i + 1) := by
  rw [List.range_succ_eq_map, List.map_cons, List.map_map]
  rfl

theorem map_range_succ_ne_nil (d : Nat → Int) (n : Nat) : (List.range (n + 1)).map d ≠ [] := by
  rw [map_range_succ]
  exact List.cons_ne_nil _ _

/-- With every sum in `int64` the pass ends with the last sum on top. -/
theorem carryPass_eq_some_of_sums {c : Int} {d : Nat → Int} {n : Nat}
    (h : ∀ i, i ≤ n → inInt64 (carrySumFrom c d i) = true) :
    ∃ low, carryPass c ((List.range (n + 1)).map d) = some (low ++ [carrySumFrom c d n]) ∧ low.length = n := by
  induction n generalizing c d with
  | zero => exact ⟨[], if_pos (h 0 le_rfl), rfl⟩
  | succ n ih =>
    obtain ⟨low, hlow, hlen⟩ := ih (c := Int.tdiv (d 0 + c) 10) (d := fun i => d (i + 1)) fun i hi => by
      rw [← carrySumFrom_succ]
      exact h (i + 1) (Nat.succ_le_succ hi)
    have hzero : inInt64 (d 0 + c) = true := h 0 (Nat.zero_le _)
    rw [map_range_succ, carryPass_cons (map_range_succ_ne_nil _ n), if_pos hzero, hlow, ← carrySumFrom_succ]
    exact ⟨_ :: low, rfl, congrArg (· + 1) hlen⟩

/-- A sum outside `int64` stops the pass. -/
theorem carryPass_eq_none_of_sum {c : Int} {d : Nat → Int} {n i : Nat} (hi : i ≤ n)
    (h : inInt64 (carrySumFrom c d i) = false) : carryPass c ((List.range (n + 1)).map d) = none := by
  induction n generalizing c d i with
  | zero =>
    obtain rfl : i = 0 := by omega
    exact if_neg (Bool.eq_false_iff.1 h)
  | succ n ih =>
    rw [map_range_succ, carryPass_cons (map_range_succ_ne_nil _ n)]
    obtain _ | i := i
    · exact if_neg (Bool.eq_false_iff.1 h)
    · rw [carrySumFrom_succ] at h
      rw [ih (Nat.le_of_succ_le_succ hi) h, Option.map_none, ite_self]

/-! ### The extension (R131, R137) -/

/-- The extension needs more entries than there is room for exactly when the top digit is too long. -/
theorem extendTop_eq_none_iff {fuel room : Nat} {top : Int} (hfuel : top.natAbs < 10 ^ fuel) :
    extendTop fuel room top = none ↔ 10 ^ (room + 1) ≤ top.natAbs := by
  induction fuel generalizing room top with
  | zero =>
    have := Nat.one_le_pow (room + 1) 10 (by decide)
    simp only [extendTop, reduceCtorEq, false_iff]
    omega
  | succ fuel ih =>
    have hpow : 10 ^ (room + 1) = 10 * 10 ^ room := pow_succ' 10 room
    have hone := Nat.one_le_pow room 10 (by decide)
    unfold extendTop
    split_ifs with hbig
    · cases room with
      | zero => exact iff_of_true rfl (by omega)
      | succ room =>
        have hquot : (Int.tdiv top 10).natAbs < 10 ^ fuel := by
          rw [natAbs_tdiv_ten]
          rw [pow_succ] at hfuel
          omega
        have hnext := ih (room := room) hquot
        rw [natAbs_tdiv_ten, Nat.le_div_iff_mul_le (by decide), ← pow_succ] at hnext
        rw [← hnext]
        dsimp only
        split <;> simp_all
    · exact iff_of_false (by simp) (by omega)

/-- The carry sum at `i` is an `int64`. -/
def SumInInt64 (d : Nat → Int) (i : Nat) : Prop := -(2 ^ 63) ≤ carrySum d i ∧ carrySum d i ≤ 2 ^ 63 - 1

theorem inInt64_carrySumFrom_iff {d : Nat → Int} {i : Nat} :
    inInt64 (carrySumFrom 0 d i) = true ↔ SumInInt64 d i := by
  rw [carrySumFrom_zero]
  exact decide_eq_true_iff

/-! ### Phase 1 of written digits (R131) -/

section
variable {d : Nat → Int} {n nMax : Nat}

/-- A carry sum outside `int64` is an overflow. -/
theorem phase1_eq_overflow {i : Nat} (hi : i ≤ n) (h : ¬SumInInt64 d i) :
    phase1 nMax ((List.range (n + 1)).map d) = .overflow := by
  rw [← inInt64_carrySumFrom_iff, Bool.not_eq_true] at h
  simp only [phase1, carryPass_eq_none_of_sum hi h]

/-- With every carry sum in `int64`, the last decides whether the digits fit. -/
theorem phase1_of_sums (h : ∀ i, i ≤ n → SumInInt64 d i) :
    (10 ^ (nMax - (n + 1) + 1) ≤ (carrySum d n).natAbs → phase1 nMax ((List.range (n + 1)).map d) = .capacity) ∧
      ((carrySum d n).natAbs < 10 ^ (nMax - (n + 1) + 1) → ∃ u, phase1 nMax ((List.range (n + 1)).map d) = .ok u) := by
  obtain ⟨low, hpass, -⟩ := carryPass_eq_some_of_sums fun i hi => inInt64_carrySumFrom_iff.2 (h i hi)
  rw [carrySumFrom_zero] at hpass
  obtain ⟨hlo, hhi⟩ := h n le_rfl
  have hnone := extendTop_eq_none_iff (fuel := 20) (room := nMax - (n + 1)) (top := carrySum d n) (by omega)
  simp only [phase1, hpass, List.getLastD_concat, List.length_map, List.length_range]
  refine ⟨fun hbig => by rw [hnone.2 hbig], fun hfit => ?_⟩
  obtain ⟨t, ht⟩ := Option.ne_none_iff_exists'.1 (hnone.not.2 hfit.not_ge)
  rw [ht]
  exact ⟨_, rfl⟩

/-- Digits of at most `8*10^18` keep every carry sum below `9*10^18`. -/
theorem abs_carrySum_le {i : Nat} (h : ∀ j, j ≤ i → |d j| ≤ 8000000000000000000) :
    |carrySum d i| ≤ 9000000000000000000 := by
  induction i with
  | zero => exact (h 0 le_rfl).trans (by decide)
  | succ i ih =>
    have hi := ih fun j hj => h j (by omega)
    have hd := h (i + 1) le_rfl
    have hquot := natAbs_tdiv_ten (carrySum d i)
    rw [carrySum_succ]
    rw [abs_le] at *
    omega

theorem sumInInt64_of_small {i : Nat} (h : ∀ j, j ≤ i → |d j| ≤ 8000000000000000000) : SumInInt64 d i := by
  have hsum := abs_le.1 (abs_carrySum_le h)
  unfold SumInInt64
  omega

end

/-! ### NORM of written digits (R133, R136) -/

/-- The code of NORM when phase 1 ends so (R136). -/
def Phase1Result.code : Phase1Result → ErrCode
  | .ok _ => .none
  | .overflow => .overflow
  | .capacity => .capacity

/-- The carry sums decide the code of phase 1. -/
theorem code_phase1 (d : Nat → Int) (n nMax : Nat) :
    ((phase1 nMax ((List.range (n + 1)).map d)).code = .overflow ↔ ∃ i, i < n + 1 ∧ ¬SumInInt64 d i) ∧
      ((phase1 nMax ((List.range (n + 1)).map d)).code = .capacity ↔
        (∀ i, i < n + 1 → SumInInt64 d i) ∧ 10 ^ (nMax - (n + 1) + 1) ≤ |carrySum d n|) := by
  rw [Int.abs_eq_natAbs]
  by_cases hsums : ∀ i, i < n + 1 → SumInInt64 d i
  · have hnot : ¬∃ i, i < n + 1 ∧ ¬SumInInt64 d i := fun ⟨i, hi, hout⟩ => hout (hsums i hi)
    obtain ⟨hcap, hfit⟩ := phase1_of_sums (nMax := nMax) fun i hi => hsums i (Nat.lt_succ_of_le hi)
    obtain hbig | hsmall := le_or_gt (10 ^ (nMax - (n + 1) + 1)) (carrySum d n).natAbs
    · rw [hcap hbig]
      exact ⟨iff_of_false (by simp [Phase1Result.code]) hnot, iff_of_true rfl ⟨hsums, by exact_mod_cast hbig⟩⟩
    · obtain ⟨u, hu⟩ := hfit hsmall
      rw [hu]
      refine ⟨iff_of_false (by simp [Phase1Result.code]) hnot, iff_of_false (by simp [Phase1Result.code]) ?_⟩
      exact fun h => hsmall.not_ge (by exact_mod_cast h.2)
  · have hex : ∃ i, i < n + 1 ∧ ¬SumInInt64 d i := by
      simpa only [not_forall, exists_prop] using hsums
    obtain ⟨i, hi, hout⟩ := hex
    rw [phase1_eq_overflow (Nat.le_of_lt_succ hi) hout]
    exact ⟨iff_of_true rfl ⟨i, hi, hout⟩, iff_of_false (by simp [Phase1Result.code]) fun h => hsums h.1⟩

/-- A code of phase 1 other than those two is no error. -/
theorem Phase1Result.code_eq_none {r : Phase1Result} (ho : r.code ≠ .overflow) (hc : r.code ≠ .capacity) :
    r.code = .none := by
  cases r with
  | ok u => rfl
  | overflow => exact absurd rfl ho
  | capacity => exact absurd rfl hc

/-- Nineteen free entries take every digit up to `8*10^18`. -/
theorem code_phase1_of_small {d : Nat → Int} {n nMax : Nat}
    (hd : ∀ i, i < n + 1 → |d i| ≤ 8000000000000000000) (hroom : n + 1 + 19 ≤ nMax) :
    (phase1 nMax ((List.range (n + 1)).map d)).code = .none := by
  obtain ⟨hover, hcap⟩ := code_phase1 d n nMax
  refine Phase1Result.code_eq_none (hover.not.2 ?_) (hcap.not.2 ?_)
  · rintro ⟨i, hi, hout⟩
    exact hout (sumInInt64_of_small fun j hj => hd j (by omega))
  · rintro ⟨-, hbig⟩
    have hsum := abs_carrySum_le fun j hj => hd j (Nat.lt_succ_of_le hj)
    have hpow : (10 : Int) ^ 20 ≤ 10 ^ (nMax - (n + 1) + 1) := pow_le_pow_right₀ (by decide) (by omega)
    omega

theorem exec_norm_of_digits {x : BufIx} {s : State} {ds : List Int} (hlen : s.len x ≤ s.cfg.nMax)
    (hds : s.digits x (s.len x) = some ds) :
    ∃ t, exec (.norm x) s = .next t ∧ t.err = (phase1 s.cfg.nMax (normInput ds)).code := by
  rw [exec_eq_finish]
  simp only [cmd, cmdNorm, if_neg hlen.not_gt, hds]
  cases phase1 s.cfg.nMax (normInput ds) <;> exact ⟨_, rfl, rfl⟩

/-- The digits of a buffer, read one by one. -/
theorem State.digits_of_digit {s : State} {k : BufIx} {n : Nat} {d : Nat → Int}
    (h : ∀ i, i < n → s.digit k i = some (d i)) : s.digits k n = some ((List.range n).map d) :=
  State.digits_eq_some_iff.2 ⟨by simp, fun i hi => by simpa using h i (by simpa using hi)⟩

/-- Settles O31: the code is that of phase 1, which the carry sums decide; an error writes nothing. -/
theorem normCompletes : Obligations.NormCompletes := by
  intro x s d hlen hd
  obtain ⟨t, ht, hcode⟩ := exec_norm_of_digits hlen (State.digits_of_digit hd)
  refine ⟨t, ht, (completionKeepsControlState _ s t ht).1, ?_, ?_⟩
  · by_cases herr : t.err = .none
    · exact .inl herr
    · have hcodes : t.err = .overflow ∨ t.err = .capacity := by
        by_contra hother
        rw [not_or, hcode] at hother
        exact herr (hcode.trans (Phase1Result.code_eq_none hother.1 hother.2))
      have hsame := errorWritesNothingExceptMul _ s t (by simp) ht herr
      exact .inr ⟨hcodes, by rw [hsame], by rw [hsame], by rw [hsame]⟩
  obtain hzero | ⟨n, hn⟩ : _ ∨ ∃ n, s.len x = n + 1 :=
    (s.len x).eq_zero_or_eq_succ_pred.imp_right (⟨_, ·⟩)
  · have hok : t.err = .none := by
      rw [hcode, hzero]
      exact congrArg _ (phase1_of_digits (by decide) (by decide) : phase1 s.cfg.nMax [0] = .ok [0])
    simp [hok, hzero]
  · rw [hn, normInput, if_neg (map_range_succ_ne_nil d n)] at hcode
    rw [hn, Nat.succ_sub_one, hcode]
    obtain ⟨hover, hcap⟩ := code_phase1 d n s.cfg.nMax
    refine ⟨hover, hcap.trans ?_, fun hdigit => ?_, code_phase1_of_small⟩
    · exact and_congr_right fun _ => (and_iff_right (Nat.succ_pos n)).symm
    · rw [phase1_of_digits (map_range_succ_ne_nil d n) (by simpa using fun i hi => hdigit i hi)]
      rfl

end Sys2Proof.Machine
end

section
/-! PROOF. MUL is its expansion into the other commands (spec/44_multiply.md R240). -/

namespace Sys2Proof.Machine

/-! ### Commands run one after the other -/

theorem CmdResult.completed_andThen {r : CmdResult} {k : State → CmdResult} {e : ErrCode}
    (hk : ∀ s, k (s.complete e) = (k s).completed e) : (r.completed e).andThen k = (r.andThen k).completed e := by
  cases r with
  | ok s => exact hk s
  | error c s => rfl
  | fault f => rfl

section
variable (dom : Dom) (logn : Nat) (x y z : BufIx) (s : State) (e : ErrCode)

theorem cmdPmac_complete : cmdPmac dom logn x y z (s.complete e) = (cmdPmac dom logn x y z s).completed e := by
  by_cases hlogn : limit s.cfg dom < logn
  · simp [cmdPmac, hlogn]
  cases hc : s.elems dom x (2 ^ logn) with
  | none => simp [cmdPmac, hlogn, hc]
  | some c =>
    cases ha : s.elems dom y (2 ^ logn) with
    | none => simp [cmdPmac, hlogn, hc, ha]
    | some a =>
      cases hb : s.elems dom z (2 ^ logn) with
      | none => simp [cmdPmac, hlogn, hc, ha, hb]
      | some b =>
        simp only [cmdPmac, hlogn, if_false, State.elems_complete, State.cfg_complete, hc, ha, hb,
          State.writeElems_complete]
        symm
        apply apply_ite

theorem mulSequence_complete :
    mulSequence dom logn y z (s.complete e) = (mulSequence dom logn y z s).completed e := by
  rw [mulSequence, cmdLoadseq_complete, CmdResult.completed_andThen fun s => cmdLoadseq_complete ..,
    CmdResult.completed_andThen fun s => cmdFwd_complete .., CmdResult.completed_andThen fun s => cmdFwd_complete ..,
    CmdResult.completed_andThen fun s => cmdPmul_complete .., CmdResult.completed_andThen fun s => cmdInv_complete ..]
  rfl

theorem cmdMul_complete : cmdMul dom x y z (s.complete e) = (cmdMul dom x y z s).completed e := by
  by_cases hlen : s.cfg.nMax < s.len y ∨ s.cfg.nMax < s.len z
  · rw [cmdMul_len hlen]
    exact cmdMul_len (s := s.complete e) hlen
  obtain ⟨hy, hz⟩ := not_or.1 hlen
  obtain hk | hk := le_or_gt (mulLogn s y z) (limit s.cfg dom)
  · rw [cmdMul_eq (not_lt.1 hy) (not_lt.1 hz) hk]
    refine (cmdMul_eq (s := s.complete e) (not_lt.1 hy) (not_lt.1 hz) hk).trans ?_
    rw [mulSequence_complete, CmdResult.completed_andThen fun s => cmdStoredig_complete ..,
      CmdResult.completed_andThen fun s => rfl, CmdResult.completed_andThen fun s => cmdNorm_complete ..]
    rfl
  · rw [cmdMul_size (not_lt.1 hy) (not_lt.1 hz) hk]
    exact cmdMul_size (s := s.complete e) (not_lt.1 hy) (not_lt.1 hz) hk

end

/-- No command reads what a completion sets. -/
theorem cmd_complete (i : Instr) (s : State) (e : ErrCode) : cmd i (s.complete e) = (cmd i s).completed e := by
  cases i with
  | nop => rfl
  | loadseq => exact cmdLoadseq_complete ..
  | storedig => exact cmdStoredig_complete ..
  | fwd => exact cmdFwd_complete ..
  | inv => exact cmdInv_complete ..
  | pmul => exact cmdPmul_complete ..
  | pmac => exact cmdPmac_complete ..
  | norm => exact cmdNorm_complete ..
  | mul => exact cmdMul_complete ..

/-- An error of a command other than MUL has a nonzero code. -/
theorem cmd_error_code_ne {i : Instr} {e : ErrCode} {s u : State} (hi : ∀ dom x y z, i ≠ .mul dom x y z)
    (h : cmd i s = .error e u) : e ≠ .none := by
  cases i with
  | nop => cases h
  | loadseq => obtain ⟨-, ⟨rfl, -⟩ | ⟨rfl, -⟩⟩ := cmdLoadseq_error h <;> decide
  | storedig => obtain ⟨-, ⟨rfl, -⟩ | ⟨-, -, ⟨rfl, -⟩ | ⟨rfl, -⟩⟩⟩ := cmdStoredig_error h <;> decide
  | fwd => obtain ⟨-, ⟨rfl, -⟩ | ⟨rfl, -⟩⟩ := cmdFwd_error h <;> decide
  | inv => obtain ⟨-, ⟨rfl, -⟩ | ⟨rfl, -⟩⟩ := cmdInv_error h <;> decide
  | pmul => obtain ⟨-, ⟨rfl, -⟩ | ⟨rfl, -⟩⟩ := cmdPmul_error h <;> decide
  | pmac => obtain ⟨-, ⟨rfl, -⟩ | ⟨rfl, -⟩⟩ := cmdPmac_error h <;> decide
  | norm => obtain ⟨-, ⟨rfl, -⟩ | ⟨-, -, ⟨rfl, -⟩ | ⟨rfl, -⟩⟩⟩ := cmdNorm_error h <;> decide
  | mul dom x y z => exact absurd rfl (hi dom x y z)

/-- A command that completes without error has run its statements to the end. -/
theorem cmd_eq_ok_of_exec {i : Instr} {s t : State} (hi : ∀ dom x y z, i ≠ .mul dom x y z)
    (h : exec i s = .next t) (herr : t.err = .none) : ∃ u, cmd i s = .ok u ∧ t = u.complete .none := by
  rw [exec_eq_finish, CmdResult.finish_eq_next_iff] at h
  obtain ⟨u, hu, ht⟩ | ⟨e, u, hu, rfl⟩ := h
  · exact ⟨u, hu, ht⟩
  · exact absurd herr (cmd_error_code_ne hi hu)

/-- The same of a command after the completion of another. -/
theorem cmd_eq_ok_of_exec_complete {i : Instr} {s t : State} {e : ErrCode} (hi : ∀ dom x y z, i ≠ .mul dom x y z)
    (h : exec i (s.complete e) = .next t) (herr : t.err = .none) : ∃ u, cmd i s = .ok u ∧ t = u.complete .none :=
  cmd_eq_ok_of_exec hi (exec_complete (cmd_complete i s e) ▸ h) herr

/-! ### MUL -/

/-- The transform length of MUL is the power of two of R240. -/
theorem mulLogn_eq {s : State} {y z : BufIx} {k : Nat} (hk : IsNextPow2 (s.len y + s.len z + 1) (2 ^ k)) :
    mulLogn s y z = k :=
  Nat.pow_right_injective le_rfl ((isNextPow2_nextPow2 _).unique hk)

section
variable {dom : Dom} {x y z : BufIx} {k : Nat} {s u u' : State} (hy : s.len y ≤ s.cfg.nMax)
  (hz : s.len z ≤ s.cfg.nMax) (hn : IsNextPow2 (s.len y + s.len z + 1) (2 ^ k)) (hk : k ≤ limit s.cfg dom)
  (hseq : mulSequence dom k y z s = .ok u)
include hy hz hn hk hseq

/-- Past its checks and its product sequence MUL is STOREDIG and NORM (R240). -/
theorem cmdMul_of_sequence : cmdMul dom x y z s =
    ((cmdStoredig dom k x 0 u).andThen fun t => .ok (t.setSign x (s.sign y ^^ s.sign z))).andThen (cmdNorm x) := by
  obtain rfl := mulLogn_eq hn
  rw [cmdMul_eq hy hz hk, hseq]
  rfl

theorem exec_mul_of_storedig_error {e : ErrCode} (h : cmdStoredig dom k x 0 u = .error e u') :
    exec (.mul dom x y z) s = .next (u'.complete e) := by
  rw [exec_eq_finish, cmd, cmdMul_of_sequence hy hz hn hk hseq, h]
  rfl

theorem exec_mul_of_storedig (h : cmdStoredig dom k x 0 u = .ok u') :
    exec (.mul dom x y z) s = exec (.norm x) (u'.setSign x (s.sign y ^^ s.sign z)) := by
  rw [exec_eq_finish, cmd, cmdMul_of_sequence hy hz hn hk hseq, h]
  rfl

end

/-- Settles O34: a completion changes nothing the next command of the expansion reads. -/
theorem mulIsItsExpansion : Obligations.MulIsItsExpansion := by
  intro dom x y z k s s1 s2 s3 s4 s5 s6 s7 t hy hz hn hk h1 e1 h2 e2 h3 e3 h4 e4 h5 e5 h6 e6 h7
  obtain ⟨u1, c1, rfl⟩ := cmd_eq_ok_of_exec (by simp) h1 e1
  obtain ⟨u2, c2, rfl⟩ := cmd_eq_ok_of_exec_complete (by simp) h2 e2
  obtain ⟨u3, c3, rfl⟩ := cmd_eq_ok_of_exec_complete (by simp) h3 e3
  obtain ⟨u4, c4, rfl⟩ := cmd_eq_ok_of_exec_complete (by simp) h4 e4
  obtain ⟨u5, c5, rfl⟩ := cmd_eq_ok_of_exec_complete (by simp) h5 e5
  obtain ⟨u6, c6, rfl⟩ := cmd_eq_ok_of_exec_complete (by simp) h6 e6
  have hseq : mulSequence dom k y z s = .ok u6 := by
    simp only [mulSequence, CmdResult.andThen_eq_ok_iff]
    exact ⟨u5, ⟨u4, ⟨u3, ⟨u2, ⟨u1, c1, c2⟩, c3⟩, c4⟩, c5⟩, c6⟩
  rw [exec_complete (cmd_complete _ u6 .none), exec_eq_finish,
    CmdResult.finish_eq_next_iff] at h7
  obtain ⟨u7, c7, rfl⟩ | ⟨e, u7, c7, rfl⟩ := h7
  · refine ⟨fun herr => absurd rfl herr, fun _ hnorm => ?_⟩
    rw [exec_mul_of_storedig hy hz hn hk hseq c7, ← hnorm, State.setSign_complete]
    exact (exec_complete (cmd_complete _ _ _)).symm
  · exact ⟨fun _ => exec_mul_of_storedig_error hy hz hn hk hseq c7, fun herr =>
      absurd herr (cmd_error_code_ne (i := .storedig dom k x 0) (by simp) c7)⟩

end Sys2Proof.Machine
end

section
/-! PROOF. MUL of written digits completes (spec/44_multiply.md R240 to R243). -/

namespace Sys2Proof.Machine

/-- What LOADSEQ leaves of the digits `d` below `len` (R220, R221). -/
def loadedElem (p : Params) (dom : Dom) (d : Nat → Int) (len i : Nat) : Elem := toSeq p dom (if i < len then d i else 0)

/-- What the product sequence of MUL leaves of the operand digits (R240). -/
def productElem (p : Params) (dom : Dom) (k : Nat) (a b : Nat → Int) (la lb : Nat) : Nat → Elem :=
  convElem p dom k (loadedElem p dom a la) (loadedElem p dom b lb)

theorem residue_loadedElem_lt {p : Params} (hp : p.Legal) (d : Nat → Int) (len i : Nat) :
    (loadedElem p .m d len i).residue < p.nttP := by
  have h2 := hp.two_lt
  have hres := residue_toSeq (p := p) (if i < len then d i else 0) (by omega) hp.lt_pow
  have hlt := Int.emod_lt_of_pos (if i < len then d i else 0) (b := p.nttP) (by omega)
  unfold loadedElem
  omega

theorem hi_loadedElem (p : Params) (dom : Dom) (d : Nat → Int) (len i : Nat) : (loadedElem p dom d len i).hi = 0 := by
  cases dom <;> rfl

/-- The state MUL hands to NORM: the raw product digits stored, the sign set (R240). -/
def storedProduct (x : BufIx) (k : Nat) (raw : List Int) (neg : Bool) (u : State) : State :=
  ((u.writeDigits x raw).setLen x (2 ^ k)).setSign x neg

section
variable {x : BufIx} {k : Nat} {raw : List Int} {neg : Bool} {u : State}

theorem len_storedProduct (hk : k < 32) : (storedProduct x k raw neg u).len x = 2 ^ k := by
  rw [storedProduct, State.len_setSign, State.len_setLen, if_pos rfl,
    Nat.mod_eq_of_lt (Nat.pow_lt_pow_right one_lt_two hk)]

theorem sign_storedProduct : (storedProduct x k raw neg u).sign x = neg := by
  rw [storedProduct, State.sign_setSign, if_pos rfl]

theorem digits_storedProduct (hlen : raw.length = 2 ^ k) (hraw : ∀ d ∈ raw, inInt64 d = true) :
    (storedProduct x k raw neg u).digits x (2 ^ k) = some raw := by
  refine State.digits_eq_some_iff.2 ⟨hlen, fun i hi => ?_⟩
  exact State.digit_writeDigits (List.getElem?_eq_getElem hi) (hraw _ (List.getElem_mem hi))

theorem read_storedProduct {c : Nat} (hlen : raw.length = 2 ^ k)
    (hc : c < digitAddr x 0 ∨ digitAddr x 0 + 8 * 2 ^ k ≤ c) :
    (storedProduct x k raw neg u).mem.read c = u.mem.read c :=
  State.read_writeDigits_outside (hlen ▸ hc)

theorem elems_storedProduct {n : Nat} (dom : Dom) (j : BufIx) (hlen : raw.length ≤ 2 ^ 23) :
    (storedProduct x k raw neg u).elems dom j n = u.elems dom j n := by
  rw [State.elems_eq_collect, State.elems_eq_collect]
  exact collect_congr fun i _ _ => State.elem_writeDigits dom x j hlen i

end

/-- STOREDIG stores `int64` values: ROUND has its range, and a residue is below `NTT_P` (R222, R223). -/
theorem inInt64_of_toDigit {p : Params} (hp : p.Legal) {dom : Dom} {w : Word} {d : Int}
    (hlegal : dom = .m → w.toNat < p.nttP) (h : toDigit dom w = some d) : inInt64 d = true := by
  cases dom with
  | c => exact decide_eq_true (roundToDigit_eq_some_iff.1 h).2.1
  | m =>
    obtain rfl : (w.toNat : Int) = d := Option.some.inj h
    have := hlegal rfl
    have := hp.lt_pow
    exact decide_eq_true (by omega)

/-- Whatever MUL does, it keeps the control state and the lengths and signs of the other buffers. -/
theorem mul_keeps {dom : Dom} {x y z : BufIx} {s t : State} (h : exec (.mul dom x y z) s = .next t) :
    Completed s t t.err ∧ SameOtherLengths s t x := by
  refine ⟨(completionKeepsControlState _ s t h).1, fun k hk => ?_⟩
  obtain ⟨u, hu, ht⟩ := exec_eq_next h
  rw [ht]
  exact hu.sameOtherLengths (k := k) hk

section
variable {dom : Dom} {x y z : BufIx} {k : Nat} {s : State} {a b : Nat → Int} (hp : s.cfg.Legal)
  (hy : s.len y ≤ s.cfg.nMax) (hz : s.len z ≤ s.cfg.nMax) (hn : IsNextPow2 (s.len y + s.len z + 1) (2 ^ k))
  (hk : k ≤ limit s.cfg dom) (ha : ∀ i, i < s.len y → s.digit y i = some (a i))
  (hb : ∀ i, i < s.len z → s.digit z i = some (b i))
include hp hy hz hn hk ha hb

/-- The product sequence of written digits ends well and leaves the convolution of both operands in S0. -/
theorem mulSequence_of_digits : ∃ u, mulSequence dom k y z s = .ok u ∧ ∀ i, i < 2 ^ k →
    u.elemLo 0 i = some (productElem s.cfg dom k a b (s.len y) (s.len z) i).lo := by
  have hcap := two_pow_le_of_limit hp.log2Nmax_le hk
  have hfit := hn.2.1
  have hlen : ∀ e : Nat → Elem, ((List.range (2 ^ k)).map e).length ≤ 2 ^ 23 := fun e => by simpa using hcap
  set A := loadedElem s.cfg dom a (s.len y)
  set B := loadedElem s.cfg dom b (s.len z)
  have h1 : cmdLoadseq dom k 0 y s = .ok (s.writeElems 0 ((List.range (2 ^ k)).map A)) :=
    cmdLoadseq_eq_ok hk hy (by omega) ha
  set s1 := s.writeElems 0 ((List.range (2 ^ k)).map A)
  have hb1 : ∀ i, i < s.len z → s1.digit z i = some (b i) := fun i hi =>
    (State.digit_writeElems 0 z _ (by omega)).trans (hb i hi)
  have h2 : cmdLoadseq dom k 1 z s1 = .ok (s1.writeElems 1 ((List.range (2 ^ k)).map B)) :=
    cmdLoadseq_eq_ok (s := s1) hk hz (by change s.len z ≤ _; omega) hb1
  set s2 := s1.writeElems 1 ((List.range (2 ^ k)).map B)
  have hA : ∀ i, i < 2 ^ k → s2.elem dom 0 i = some (A i) := fun i hi =>
    (State.elem_writeElems_other dom (by decide) (hlen B) (hi.trans_le hcap)).trans
      (State.elem_writeElems_same dom 0 (fun _ i _ => hi_loadedElem ..) hi)
  have hB : ∀ i, i < 2 ^ k → s2.elem dom 1 i = some (B i) := fun i hi =>
    State.elem_writeElems_same dom 1 (fun _ i _ => hi_loadedElem ..) hi
  obtain ⟨s3, s4, s5, s6, h3, h4, h5, h6, hwords⟩ := cmd_conv (s := s2) hp hk (by decide) hA hB
    (fun hm i _ => by subst hm; exact residue_loadedElem_lt hp ..)
    fun hm i _ => by subst hm; exact residue_loadedElem_lt hp ..
  refine ⟨s6, ?_, fun i hi => (hwords i hi).1⟩
  simp only [mulSequence, CmdResult.andThen_eq_ok_iff]
  exact ⟨s5, ⟨s4, ⟨s3, ⟨s2, ⟨s1, h1, h2⟩, h3⟩, h4⟩, h5⟩, h6⟩

/-- How MUL ends once the product sequence has: with ROUND's error, or as NORM of the stored raw product. -/
theorem exec_mul_of_digits : ∃ u es, Effect (2 ^ k) (fun j => j = 0 ∨ j = 1) (fun _ => False) s u ∧
    es = lowElems (fun i => (productElem s.cfg dom k a b (s.len y) (s.len z) i).lo) (2 ^ k) ∧
    u.elems .m 0 (2 ^ k) = some es ∧
    (storedDigits dom es = none → exec (.mul dom x y z) s = .next (u.complete .round)) ∧
    ∀ raw, storedDigits dom es = some raw → raw.length = 2 ^ k ∧
      (storedProduct x k raw (s.sign y ^^ s.sign z) u).digits x (2 ^ k) = some raw ∧
      exec (.mul dom x y z) s = exec (.norm x) (storedProduct x k raw (s.sign y ^^ s.sign z) u) := by
  obtain ⟨u, hseq, hlo⟩ := mulSequence_of_digits hp hy hz hn hk ha hb
  have heff : Effect (2 ^ k) (fun j => j = 0 ∨ j = 1) (fun _ => False) s u :=
    mulSequence_effect le_rfl (.inl rfl) (.inr rfl) (.inl hseq)
  have hku : k ≤ limit u.cfg dom := heff.cfg_eq ▸ hk
  have hes := State.elems_m_eq_lowElems hlo
  have hres : dom = .m → ∀ i, i < 2 ^ k →
      (productElem s.cfg dom k a b (s.len y) (s.len z) i).lo.toNat < s.cfg.nttP := by
    rintro rfl i hi
    exact (toField_convElem hp (le_nttLog2Max_of_limit hk) _ _ hi).1
  have hlegal := (congrArg (residuesLegal · dom _) heff.cfg_eq).trans (residuesLegal_lowElems hres)
  refine ⟨u, _, heff, rfl, hes, fun hds => ?_, fun raw hds => ?_⟩
  · exact exec_mul_of_storedig_error hy hz hn hk hseq (cmdStoredig_round hku hes hlegal hds)
  · have hforall := storedDigits_eq_some_iff.1 hds
    have hlen : raw.length = 2 ^ k := by simpa [lowElems] using hforall.length_eq.symm
    refine ⟨hlen, digits_storedProduct hlen fun d hd => ?_,
      exec_mul_of_storedig hy hz hn hk hseq (cmdStoredig_eq_ok hku hes hlegal hds)⟩
    obtain ⟨i, hi, rfl⟩ := List.getElem_of_mem hd
    refine inInt64_of_toDigit hp (fun hm => hres hm i (hlen ▸ hi)) ?_
    simpa [lowElems] using (List.forall₂_iff_get.1 hforall).2 i (by simpa [lowElems, hlen] using hi) hi

end

/-! ### NORM of the raw product -/

/-- NORM leaves the sequence buffers alone. -/
theorem elems_commitNorm {x j : BufIx} {p : List Int} {neg : Bool} {s : State} (dom : Dom) (n : Nat) (hp : p ≠ [])
    (hlen : max (nextPow2 (sigLength p)) p.length ≤ 2 ^ 23) :
    (commitNorm x p neg s).elems dom j n = s.elems dom j n := by
  rw [State.elems_eq_collect, State.elems_eq_collect, commitNorm_eq]
  refine collect_congr fun i _ _ => State.elem_writeDigits dom x j ?_ i
  rwa [length_padTo hp ((le_nextPow2 _).trans (le_max_left ..))]

/-- A NORM without error writes the digits of its buffer, padded (R135), and no sequence buffer. -/
theorem exec_norm_frame {x : BufIx} {s t : State} {ds : List Int} (hcfg : s.cfg.log2Nmax ≤ 23)
    (h : exec (.norm x) s = .next t) (herr : t.err = .none) (hds : s.digits x (s.len x) = some ds)
    (hlen : ds.length ≤ s.cfg.nMax) : ∃ u, phase1 s.cfg.nMax (normInput ds) = .ok u ∧
      SameOutside s t (digitAddr x 0) (8 * max (t.len x) u.length) ∧
      ∀ dom j n, t.elems dom j n = s.elems dom j n := by
  obtain ⟨ds', u, hds', hu, hne, hpow, ht⟩ := exec_norm_ok h herr
  obtain rfl := Option.some.inj (hds.symm.trans hds')
  obtain ⟨-, -, -, -, hout⟩ := normLengthAndPadding x s t ds u hcfg h herr hds hu
  refine ⟨u, hu, hout, fun dom j n => ?_⟩
  have hulen := (phase1_normInput_length (Nat.two_pow_pos _) hlen hu).2
  rw [← length_phase2 u] at hulen
  rw [ht]
  exact elems_commitNorm (neg := rawNegative u) dom n hne
    ((max_le hpow hulen).trans (Nat.pow_le_pow_right two_pos hcfg))

theorem lt_of_limit {p : Params} (hp : p.Legal) {dom : Dom} {k : Nat} (hk : k ≤ limit p dom) : k < 32 :=
  (hk.trans ((limit_le p dom).trans hp.log2Nmax_le)).trans_lt (by decide)

/-- Settles O35: the product sequence and STOREDIG end well or with ERR_ROUND, and NORM does the rest. -/
theorem mulCompletes : Obligations.MulCompletes := by
  intro dom x y z k s a b hp hy hz hn hk ha hb
  obtain ⟨u, es, heff, -, hes, hnone, hsome⟩ := exec_mul_of_digits (x := x) hp hy hz hn hk ha hb
  have hread : ∀ c, (c < elemAddr 0 0 ∨ elemAddr 0 0 + 16 * 2 ^ k ≤ c) →
      (c < elemAddr 1 0 ∨ elemAddr 1 0 + 16 * 2 ^ k ≤ c) → u.mem.read c = s.mem.read c := fun c h0 h1 =>
    heff.read_eq (by rintro j (rfl | rfl) <;> assumption) fun _ h => h.elim
  cases hds : storedDigits dom es with
  | none =>
    have ht := hnone hds
    obtain ⟨hdone, hother⟩ := mul_keeps ht
    exact ⟨_, ht, hdone, hother, by simp, fun _ => heff.sameLengths fun _ h => h, by simp,
      fun c h0 h1 _ => hread c h0 h1⟩
  | some raw =>
    obtain ⟨hlen, hvds, hexec⟩ := hsome raw hds
    set v := storedProduct x k raw (s.sign y ^^ s.sign z) u
    have hvlen : v.len x = 2 ^ k := len_storedProduct (lt_of_limit hp hk)
    have hcfg : v.cfg = s.cfg := heff.cfg_eq
    have hvcap : v.cfg.log2Nmax ≤ 23 := hcfg ▸ hp.log2Nmax_le
    have hfit : 2 ^ k ≤ v.cfg.nMax := hcfg ▸ two_pow_le_nMax hk
    have helemsV : v.elems .m 0 (2 ^ k) = u.elems .m 0 (2 ^ k) :=
      elems_storedProduct .m 0 (hlen.trans_le (two_pow_le_of_limit hp.log2Nmax_le hk))
    obtain ⟨t, ht, -, hcode, -⟩ := normCompletes x v (raw.getD · 0) (hvlen.trans_le hfit) fun i hi => by
      rw [List.getD_eq_getElem _ _ (by omega)]
      exact (State.digits_eq_some_iff.1 hvds).2 i (by omega)
    obtain ⟨hdone, hother⟩ := mul_keeps (hexec.trans ht)
    refine ⟨t, hexec.trans ht, hdone, hother, ?_, ?_, ?_, fun c h0 h1 hc => ?_⟩
    · obtain h | ⟨h | h, -⟩ := hcode <;> simp [h]
    · obtain h | ⟨h | h, -⟩ := hcode <;> simp [h]
    · obtain h | ⟨-, -, hdlen, hdsign⟩ := hcode
      · simp [h]
      · rw [State.len, State.sign, hdlen, hdsign]
        exact fun _ => ⟨hvlen, sign_storedProduct⟩
    rw [← hread c h0 h1]
    obtain herr | ⟨herr, hmem, -⟩ := hcode
    · obtain ⟨w, hw, hout, helems⟩ := exec_norm_frame hvcap ht herr (hvlen ▸ hvds) (hlen.trans_le hfit)
      rw [normInput, if_neg (List.ne_nil_of_length_pos (hlen ▸ Nat.two_pow_pos k)), hcfg] at hw
      obtain h | ⟨hpast, h⟩ := hc.resolve_left (by simp [herr])
      · exact (hout c (.inl h)).trans (read_storedProduct hlen (.inl h))
      · obtain ⟨es', raw', w', hes', hds', hw', hpad⟩ := h herr
        obtain rfl := Option.some.inj (hes'.symm.trans ((helems .m 0 (2 ^ k)).trans (helemsV.trans hes)))
        obtain rfl := Option.some.inj (hds'.symm.trans hds)
        obtain rfl := Phase1Result.ok.inj (hw'.symm.trans hw)
        exact (hout c (.inr hpad)).trans (read_storedProduct hlen (.inr hpast))
    · have hround : t.err ≠ .round := by obtain h | h := herr <;> simp [h]
      rw [hmem]
      exact read_storedProduct hlen ((hc.resolve_left hround).imp_right And.left)

end Sys2Proof.Machine
end

section
/-! PROOF. MUL in the modular domain is exact integer multiplication (spec/44_multiply.md R244): the convolution of the
digits neither wraps around nor reaches `NTT_P`, and the carries of NORM have room. -/

namespace Sys2Proof.Machine

/-! ### Digit lists as sums -/

/-- A list of digits stands for its sum over any range it fits. -/
theorem digitsValue_eq_sum {ds : List Int} {n : Nat} (h : ds.length ≤ n) :
    digitsValue ds = ∑ i ∈ Finset.range n, ds.getD i 0 * 10 ^ i := by
  induction ds generalizing n with
  | nil => simp
  | cons d ds ih =>
    obtain ⟨m, rfl⟩ : ∃ m, n = m + 1 := ⟨n - 1, by rw [List.length_cons] at h; omega⟩
    rw [Finset.sum_range_succ', digitsValue_cons, ih (Nat.le_of_succ_le_succ h), Finset.mul_sum]
    simp only [List.getD_cons_succ, List.getD_cons_zero, pow_zero, mul_one, pow_succ]
    rw [add_comm]
    exact congrArg (· + d) (Finset.sum_congr rfl fun i _ => by ring)

/-- A carry sum of nonnegative digits is at most what the digits up to it stand for. -/
theorem carrySum_bounds {d : Nat → Int} (hd : ∀ i, 0 ≤ d i) (i : Nat) :
    0 ≤ carrySum d i ∧ carrySum d i * 10 ^ i ≤ ∑ j ∈ Finset.range (i + 1), d j * 10 ^ j := by
  induction i with
  | zero => simpa [carrySum] using hd 0
  | succ i ih =>
    obtain ⟨hpos, hle⟩ := ih
    have hnext := hd (i + 1)
    have hdiv : Int.tdiv (carrySum d i) 10 = carrySum d i / 10 := Int.tdiv_eq_ediv_of_nonneg hpos
    have hten : carrySum d i / 10 * 10 ≤ carrySum d i := by omega
    have hpow : (0 : Int) < 10 ^ i := by positivity
    rw [carrySum_succ, hdiv, Finset.sum_range_succ]
    refine ⟨by omega, ?_⟩
    rw [add_mul, pow_succ]
    nlinarith

/-! ### Convolution of digits -/

section
variable {n la lb : Nat} {u v : Nat → Int}

/-- Cyclic convolution does not depend on the order of its operands. -/
theorem cyclicConv_comm {k : Nat} (hk : k < n) : cyclicConv n u v k = cyclicConv n v u k := by
  have hmem : ∀ i, (k + n - i) % n ∈ Finset.range n := fun i => Finset.mem_range.2 (Nat.mod_lt _ (by omega))
  have hinv : ∀ i ∈ Finset.range n, (k + n - (k + n - i) % n) % n = i := by
    intro i hi
    rw [Finset.mem_range] at hi
    obtain h | h := Nat.lt_or_ge k i
    · rw [Nat.mod_eq_of_lt (a := k + n - i) (by omega), Nat.sub_sub_self (by omega), Nat.mod_eq_of_lt hi]
    · have hback : (k + n - i) % n = k - i := by
        rw [Nat.sub_add_comm h, Nat.add_mod_right, Nat.mod_eq_of_lt (by omega)]
      have hforth : k + n - (k - i) = i + n := by omega
      rw [hback, hforth, Nat.add_mod_right, Nat.mod_eq_of_lt hi]
  refine Finset.sum_nbij' (fun i => (k + n - i) % n) (fun i => (k + n - i) % n) (fun i _ => hmem i) (fun i _ => hmem i)
    hinv hinv fun i hi => ?_
  rw [hinv i hi, mul_comm]

/-- A convolution of digits with a short operand is small. -/
theorem cyclicConv_bounds (hu : ∀ i, 0 ≤ u i ∧ u i ≤ 9) (hv : ∀ i, 0 ≤ v i ∧ v i ≤ 9) (hla : la ≤ n)
    (hshort : ∀ i, la ≤ i → u i = 0) (k : Nat) : 0 ≤ cyclicConv n u v k ∧ cyclicConv n u v k ≤ 81 * la := by
  have hterm : ∀ i j, 0 ≤ u i * v j ∧ u i * v j ≤ 81 := fun i j => by
    obtain ⟨hu0, hu9⟩ := hu i
    obtain ⟨hv0, hv9⟩ := hv j
    exact ⟨mul_nonneg hu0 hv0, (mul_le_mul hu9 hv9 hv0 (by decide)).trans (by decide)⟩
  refine ⟨Finset.sum_nonneg fun i _ => (hterm ..).1, ?_⟩
  have hcut : cyclicConv n u v k = ∑ i ∈ Finset.range la, u i * v ((k + n - i) % n) := by
    refine (Finset.sum_subset (Finset.range_mono hla) fun i _ hi => ?_).symm
    rw [hshort i (by simpa using hi), zero_mul]
  rw [hcut]
  refine (Finset.sum_le_card_nsmul _ _ 81 fun i _ => (hterm ..).2).trans ?_
  rw [Finset.card_range, nsmul_eq_mul, mul_comm]

/-- Where the operands fit without wrapping around, their convolution stands for their product. -/
theorem sum_cyclicConv (hu : ∀ i, la ≤ i → u i = 0) (hv : ∀ i, lb ≤ i → v i = 0) (hn : la + lb ≤ n) :
    ∑ i ∈ Finset.range n, cyclicConv n u v i * 10 ^ i =
      (∑ i ∈ Finset.range n, u i * 10 ^ i) * ∑ i ∈ Finset.range n, v i * 10 ^ i := by
  simp only [cyclicConv, Finset.sum_mul]
  rw [Finset.sum_comm]
  refine Finset.sum_congr rfl fun j hj => ?_
  rw [sum_range_shift (Finset.mem_range.1 hj) fun l i => u j * v l * 10 ^ i, Finset.mul_sum]
  refine Finset.sum_congr rfl fun l _ => ?_
  obtain h | h := Nat.lt_or_ge (j + l) n
  · rw [Nat.mod_eq_of_lt h, pow_add]
    ring
  · have hzero : u j * v l = 0 := by
      obtain hj | hj := Nat.lt_or_ge j la
      · rw [hv l (by omega), mul_zero]
      · rw [hu j hj, zero_mul]
    calc u j * v l * 10 ^ ((j + l) % n) = 0 := by rw [hzero, zero_mul]
      _ = u j * v l * (10 ^ j * 10 ^ l) := by rw [hzero, zero_mul]
      _ = u j * 10 ^ j * (v l * 10 ^ l) := by ring

end

/-- The convolution of two digit lists stands for the product of what they stand for. -/
theorem digitsValue_cyclicConv {as bs : List Int} {n : Nat} (h : as.length + bs.length ≤ n) :
    digitsValue ((List.range n).map (cyclicConv n (as.getD · 0) (bs.getD · 0))) =
      digitsValue as * digitsValue bs := by
  rw [digitsValue_eq_sum (n := n) (by simp), digitsValue_eq_sum (n := n) (by omega : as.length ≤ n),
    digitsValue_eq_sum (n := n) (by omega : bs.length ≤ n),
    ← sum_cyclicConv (fun _ h => List.getD_eq_default _ _ h) (fun _ h => List.getD_eq_default _ _ h) h]
  refine Finset.sum_congr rfl fun i hi => ?_
  simp [Finset.mem_range.1 hi]

/-! ### The raw product of canonical operands -/

theorem getD_digit {ds : List Int} (h : ∀ d ∈ ds, 0 ≤ d ∧ d ≤ 9) (i : Nat) : 0 ≤ ds.getD i 0 ∧ ds.getD i 0 ≤ 9 := by
  obtain hi | hi := Nat.lt_or_ge i ds.length
  · rw [List.getD_eq_getElem _ _ hi]
    exact h _ (List.getElem_mem hi)
  · rw [List.getD_eq_default _ _ hi]
    decide

theorem toField_toSeq {p : Params} (hp : p.Legal) (d : Int) : (toSeq p .m d).toField p = (d : ZMod p.nttP) := by
  have h2 := hp.two_lt
  have hres := residue_toSeq (p := p) d (by omega) hp.lt_pow
  have hcast := congrArg (Int.cast (R := ZMod p.nttP)) hres
  rw [Int.cast_natCast] at hcast
  rw [Elem.toField, hcast]
  exact ((ZMod.intCast_eq_intCast_iff ..).2 (Int.mod_modEq _ _))

theorem toField_loadedElem {p : Params} (hp : p.Legal) {ds : List Int} {len : Nat} (hlen : ds.length = len) (i : Nat) :
    (loadedElem p .m (ds.getD · 0) len i).toField p = (ds.getD i 0 : ZMod p.nttP) := by
  rw [loadedElem, toField_toSeq hp]
  split_ifs with hi
  · rfl
  · rw [List.getD_eq_default _ _ (by omega)]

/-- With small digits the product sequence leaves their convolution over the integers. -/
theorem residue_productElem {p : Params} (hp : p.Legal) {k : Nat} (hk : k ≤ nttLog2Max p) {as bs : List Int}
    (ha : ∀ d ∈ as, 0 ≤ d ∧ d ≤ 9) (hb : ∀ d ∈ bs, 0 ≤ d ∧ d ≤ 9) (hfit : as.length + bs.length ≤ 2 ^ k)
    (hsmall : 81 * min as.length bs.length < p.nttP) {i : Nat} (hi : i < 2 ^ k) :
    ((productElem p .m k (as.getD · 0) (bs.getD · 0) as.length bs.length i).residue : Int) =
      cyclicConv (2 ^ k) (as.getD · 0) (bs.getD · 0) i := by
  have hconvA := cyclicConv_bounds (getD_digit ha) (getD_digit hb) (by omega : as.length ≤ 2 ^ k)
    (fun _ h => List.getD_eq_default _ _ h) i
  have hconvB := cyclicConv_bounds (getD_digit hb) (getD_digit ha) (by omega : bs.length ≤ 2 ^ k)
    (fun _ h => List.getD_eq_default _ _ h) i
  rw [cyclicConv_comm hi] at hconvB
  obtain ⟨hlt, hval⟩ := toField_convElem hp hk (loadedElem p .m (as.getD · 0) as.length)
    (loadedElem p .m (bs.getD · 0) bs.length) hi
  simp only [toField_loadedElem hp rfl] at hval
  have hmod : ((productElem p .m k (as.getD · 0) (bs.getD · 0) as.length bs.length i).residue : ZMod p.nttP) =
      ((cyclicConv (2 ^ k) (as.getD · 0) (bs.getD · 0) i : Int) : ZMod p.nttP) := by
    refine hval.trans ?_
    simp only [cyclicConv, Int.cast_sum, Int.cast_mul]
  rw [← Int.cast_natCast, ZMod.intCast_eq_intCast_iff'] at hmod
  have hltP : (productElem p .m k (as.getD · 0) (bs.getD · 0) as.length bs.length i).residue < p.nttP := hlt
  rwa [Int.emod_eq_of_lt (by omega) (by omega), Int.emod_eq_of_lt (by omega) (by omega)] at hmod

/-! ### NORM of a raw product -/

/-- Small nonnegative digits, last of all ones that leave the top entry to the carries, pass NORM without error. -/
theorem exec_norm_of_raw {x : BufIx} {s : State} {raw : List Int} (hlen : raw.length = s.len x)
    (hfit : s.len x ≤ s.cfg.nMax) (hone : 1 ≤ s.len x) (hds : s.digits x (s.len x) = some raw)
    (hraw : ∀ d ∈ raw, 0 ≤ d ∧ d < 2 ^ 32) (hval : digitsValue raw < 10 ^ (s.len x - 1)) :
    ∃ t, exec (.norm x) s = .next t ∧ t.err = .none := by
  have hd : ∀ i, 0 ≤ raw.getD i 0 ∧ raw.getD i 0 < 2 ^ 32 := fun i => by
    obtain hi | hi := Nat.lt_or_ge i raw.length
    · rw [List.getD_eq_getElem _ _ hi]
      exact hraw _ (List.getElem_mem hi)
    · rw [List.getD_eq_default _ _ hi]
      decide
  obtain ⟨t, ht, -, hcode, hover, hcap, -⟩ := normCompletes x s (raw.getD · 0) hfit fun i hi => by
    rw [List.getD_eq_getElem _ _ (by omega)]
    exact (State.digits_eq_some_iff.1 hds).2 i (by omega)
  refine ⟨t, ht, hcode.resolve_right ?_⟩
  rintro ⟨herr | herr, -⟩
  · obtain ⟨i, -, hout⟩ := hover.1 herr
    refine hout (sumInInt64_of_small fun j _ => ?_)
    have := hd j
    rw [abs_of_nonneg this.1]
    omega
  · obtain ⟨-, -, hbig⟩ := hcap.1 herr
    obtain ⟨hpos, hsum⟩ := carrySum_bounds (fun i => (hd i).1) (s.len x - 1)
    rw [Nat.sub_add_cancel hone, ← digitsValue_eq_sum hlen.le] at hsum
    have hpow : (0 : Int) < 10 ^ (s.len x - 1) := by positivity
    have hroom : (1 : Int) ≤ 10 ^ (s.cfg.nMax - s.len x + 1) := one_le_pow₀ (by decide)
    rw [abs_of_nonneg hpos] at hbig
    have hle : 1 * (10 : Int) ^ (s.len x - 1) ≤ carrySum (raw.getD · 0) (s.len x - 1) * 10 ^ (s.len x - 1) :=
      mul_le_mul_of_nonneg_right (hroom.trans hbig) hpow.le
    omega

/-- Settles O36: the raw digits are the convolution of the operands, whose value is the product. -/
theorem mulModularIsExact : Obligations.MulModularIsExact := by
  rintro x y z k s a b hp ⟨as, has, -, -, hy, hda, -, -⟩ ⟨bs, hbs, -, -, hz, hdb, -, -⟩ ha hb hsmall hn hk
  obtain ⟨hla, hgetA⟩ := State.digits_eq_some_iff.1 has
  obtain ⟨hlb, hgetB⟩ := State.digits_eq_some_iff.1 hbs
  have hfit : as.length + bs.length + 1 ≤ 2 ^ k := by
    rw [hla, hlb]
    exact hn.2.1
  obtain ⟨u, es, heff, rfl, -, -, hsome⟩ := exec_mul_of_digits (dom := .m) (x := x) (a := (as.getD · 0))
    (b := (bs.getD · 0)) hp hy hz hn hk
    (fun i hi => by rw [List.getD_eq_getElem _ _ (by omega)]; exact hgetA i (by omega))
    fun i hi => by rw [List.getD_eq_getElem _ _ (by omega)]; exact hgetB i (by omega)
  set c := productElem s.cfg .m k (as.getD · 0) (bs.getD · 0) (s.len y) (s.len z)
  set raw := (List.range (2 ^ k)).map fun i => ((c i).residue : Int)
  obtain ⟨hlen, hvds, hexec⟩ := hsome raw (storedDigits_lowElems fun _ _ => rfl)
  have hsmallRaw : ∀ d ∈ raw, 0 ≤ d ∧ d < 2 ^ 32 := fun d hd => by
    obtain ⟨i, hi, rfl⟩ := List.mem_map.1 hd
    have hlt : (c i).residue < s.cfg.nttP :=
      (toField_convElem hp (le_nttLog2Max_of_limit hk) _ _ (List.mem_range.1 hi)).1
    have := hp.lt_pow
    omega
  have hvalue : digitsValue raw = digitsValue as * digitsValue bs := by
    rw [← digitsValue_cyclicConv (n := 2 ^ k) (by omega)]
    refine congrArg digitsValue (List.map_congr_left fun i hi => ?_)
    rw [← residue_productElem hp (le_nttLog2Max_of_limit hk) hda hdb (by omega) (by rwa [hla, hlb])
      (List.mem_range.1 hi), hla, hlb]
  set v := storedProduct x k raw (s.sign y ^^ s.sign z) u
  have hvlen : v.len x = 2 ^ k := len_storedProduct (lt_of_limit hp hk)
  have hvcfg : v.cfg = s.cfg := heff.cfg_eq
  rw [← hvlen] at hvds
  have hltA : digitsValue as < 10 ^ as.length := digitsValue_lt_pow fun d hd => (hda d hd).2
  have hltB : digitsValue bs < 10 ^ bs.length := digitsValue_lt_pow fun d hd => (hdb d hd).2
  have hbound : digitsValue raw < 10 ^ (v.len x - 1) := by
    rw [hvalue, hvlen]
    calc digitsValue as * digitsValue bs < 10 ^ as.length * 10 ^ bs.length :=
          mul_lt_mul'' hltA hltB (digitsValue_nonneg fun d hd => (hda d hd).1)
            (digitsValue_nonneg fun d hd => (hdb d hd).1)
      _ ≤ 10 ^ (2 ^ k - 1) := by
          rw [← pow_add]
          exact pow_le_pow_right₀ (by decide) (by omega)
  obtain ⟨t, ht, herr⟩ := exec_norm_of_raw (hlen.trans hvlen.symm)
    (by rw [hvlen, hvcfg]; exact two_pow_le_nMax hk) (by rw [hvlen]; exact Nat.one_le_two_pow) hvds hsmallRaw hbound
  obtain ⟨hcanonical, ⟨w, hv, hw⟩, -⟩ := normLeavesCanonicalSameValue x v t (hvcfg ▸ hp.log2Nmax_le) ht herr
  rw [← hexec] at ht
  obtain ⟨hdone, hother⟩ := mul_keeps ht
  refine ⟨t, ht, herr ▸ hdone, hother, hcanonical, hw.trans (hv.symm.trans ?_)⟩
  have hvsign : v.sign x = (s.sign y ^^ s.sign z) := sign_storedProduct
  rw [State.value, has, Option.map_some, Option.some.injEq] at ha
  rw [State.value, hbs, Option.map_some, Option.some.injEq] at hb
  rw [State.value, hvds, Option.map_some, hvsign, hvalue, ← ha, ← hb]
  cases s.sign y <;> cases s.sign z <;> simp

end Sys2Proof.Machine
end

section
/-! PROOF. binary64 arithmetic: correct rounding, signs and NaNs (spec/00_scope.md R13). -/

namespace Sys2Proof.Machine

/-! ### Finite patterns as signed units -/

/-- The units of `2^-1074` a finite pattern stands for, under its sign. -/
def floatUnits (w : Word) : Int := signedUnits (floatSign w) (magnitudeUnits (magnitude w))

theorem floatValue_eq_signed (w : Word) : (floatValue w : ℝ) =
    (if floatSign w then -1 else 1) * ((magnitudeUnits (magnitude w) : ℝ) / unitsPerOne) := by
  rw [floatValue_eq]
  generalize unitsPerOne = c
  cases floatSign w <;> simp

theorem floatValue_eq_floatUnits (w : Word) : floatValue w = (floatUnits w : ℚ) / unitsPerOne := by
  rw [floatValue_eq, floatUnits, signedUnits]
  generalize unitsPerOne = c
  cases floatSign w <;> simp [neg_div]

theorem unitsPerOne_ne_zero : (unitsPerOne : ℚ) ≠ 0 :=
  Nat.cast_ne_zero.2 (Nat.cast_pos.1 unitsPerOne_pos).ne'

theorem floatValue_eq_zero_iff {w : Word} : floatValue w = 0 ↔ magnitudeUnits (magnitude w) = 0 := by
  have hsign : (if floatSign w = true then -1 else 1 : ℚ) ≠ 0 := by cases floatSign w <;> simp
  rw [floatValue_eq, mul_eq_zero, or_iff_right hsign, div_eq_zero_iff,
    or_iff_left unitsPerOne_ne_zero, Nat.cast_eq_zero]

/-- The sign bit of a product or quotient is the sign of it. -/
theorem sign_xor (s t : Bool) :
    (if (s ^^ t) = true then -1 else 1 : ℝ) = (if s = true then -1 else 1) * (if t = true then -1 else 1) := by
  cases s <;> cases t <;> simp

/-- Rounding a signed number of units is correct. -/
theorem roundsTo_signed (n : Int) :
    RoundsTo ((n : ℝ) / unitsPerOne) (roundUnits (decide (n < 0)) n.natAbs 1) := by
  have h := roundsTo_roundUnits (decide (n < 0)) n.natAbs one_pos
  have hval : (if decide (n < 0) = true then -1 else 1) * ((n.natAbs : ℝ) / (1 : ℕ) / unitsPerOne) =
      n / unitsPerOne := by
    rw [Nat.cast_one, div_one, Nat.cast_natAbs, ← mul_div_assoc]
    congr 1
    split_ifs with hn
    · rw [abs_of_neg (of_decide_eq_true hn), Int.cast_neg, neg_one_mul, neg_neg]
    · rw [abs_of_nonneg (not_lt.1 fun h => hn (decide_eq_true h)), one_mul]
  rwa [hval] at h

theorem packMagnitude_zero (neg : Bool) : packMagnitude neg 0 = if neg then 0x8000000000000000 else 0 := by
  cases neg <;> rfl

/-- Either zero is zero rounded. -/
theorem roundsTo_zero (neg : Bool) : RoundsTo 0 (packMagnitude neg 0) := by
  have hround : roundUnits neg 0 1 = packMagnitude neg 0 := by cases neg <;> decide +kernel
  have h := roundsTo_roundUnits neg 0 one_pos
  rwa [Nat.cast_zero, zero_div, zero_div, mul_zero, hround] at h

theorem floatSign_roundUnits (neg : Bool) (num den : Nat) : floatSign (roundUnits neg num den) = neg :=
  floatSign_packMagnitude neg ((min_le_right ..).trans_lt (by decide))

/-! ### Negation -/

theorem floatSign_fneg (b : Word) : floatSign (fneg b) = !floatSign b := by
  simp [floatSign, fneg]

theorem magnitude_fneg (b : Word) : magnitude (fneg b) = magnitude b := by
  rw [magnitude, fneg, BitVec.toNat_xor, Nat.xor_mod_two_pow]
  exact Nat.xor_zero _

theorem isFiniteFloat_fneg {b : Word} : isFiniteFloat (fneg b) ↔ isFiniteFloat b := by
  rw [isFiniteFloat_iff, isFiniteFloat_iff, magnitude_fneg]

theorem floatValue_fneg (b : Word) : floatValue (fneg b) = -floatValue b := by
  rw [floatValue_eq, floatValue_eq, floatSign_fneg, magnitude_fneg]
  generalize unitsPerOne = c
  cases floatSign b <;> simp

/-! ### Sums of finite values -/

theorem floatValue_add (a b : Word) :
    floatValue a + floatValue b = ((floatUnits a + floatUnits b : Int) : ℚ) / unitsPerOne := by
  rw [floatValue_eq_floatUnits, floatValue_eq_floatUnits, Int.cast_add, add_div]

section
variable {a b : Word} (ha : isFiniteFloat a) (hb : isFiniteFloat b)
include ha hb

theorem fadd_of_finite : fadd a b = if floatUnits a + floatUnits b = 0 then packMagnitude (floatSign a && floatSign b) 0
    else roundUnits (decide (floatUnits a + floatUnits b < 0)) (floatUnits a + floatUnits b).natAbs 1 := by
  rw [fadd, unpack_of_finite ha, unpack_of_finite hb]
  rfl

/-- `+f` rounds the exact sum. -/
theorem roundsTo_fadd : RoundsTo ((floatValue a + floatValue b : ℚ) : ℝ) (fadd a b) := by
  rw [floatValue_add, fadd_of_finite ha hb, Rat.cast_div, Rat.cast_intCast, Rat.cast_natCast]
  split_ifs with h
  · rw [h, Int.cast_zero, zero_div]
    exact roundsTo_zero _
  · exact roundsTo_signed _

/-- An exact zero is negative only as the sum of negative zeros. -/
theorem fadd_of_sum_zero (h : floatValue a + floatValue b = 0) :
    fadd a b = if floatSign a && floatSign b then 0x8000000000000000 else 0 := by
  rw [floatValue_add, div_eq_zero_iff, or_iff_left unitsPerOne_ne_zero, Int.cast_eq_zero] at h
  rw [fadd_of_finite ha hb, if_pos h, packMagnitude_zero]

end

/-- Settles O58: `+f` rounds the sum of the units once, and `-f` adds the negation. -/
theorem floatSumsAreCorrectlyRounded : Obligations.FloatSumsAreCorrectlyRounded := by
  intro a b ha hb
  have hneg := isFiniteFloat_fneg.2 hb
  rw [sub_eq_add_neg, ← floatValue_fneg, ← floatSign_fneg]
  exact ⟨roundsTo_fadd ha hb, fadd_of_sum_zero ha hb, roundsTo_fadd ha hneg, fadd_of_sum_zero ha hneg⟩

/-! ### Products and quotients of finite values -/

section
variable {a b : Word} (ha : isFiniteFloat a) (hb : isFiniteFloat b)
include ha hb

theorem fmul_of_finite : fmul a b = roundUnits (floatSign a ^^ floatSign b)
    (magnitudeUnits (magnitude a) * magnitudeUnits (magnitude b)) unitsPerOne := by
  simp only [fmul, unpack_of_finite ha, unpack_of_finite hb]

theorem fdiv_of_finite (hne : floatValue b ≠ 0) : fdiv a b = roundUnits (floatSign a ^^ floatSign b)
    (magnitudeUnits (magnitude a) * unitsPerOne) (magnitudeUnits (magnitude b)) := by
  simp only [fdiv, unpack_of_finite ha, unpack_of_finite hb, if_neg (floatValue_eq_zero_iff.not.1 hne)]

theorem roundsTo_fmul : RoundsTo ((floatValue a * floatValue b : ℚ) : ℝ) (fmul a b) := by
  have h := roundsTo_roundUnits (floatSign a ^^ floatSign b)
    (magnitudeUnits (magnitude a) * magnitudeUnits (magnitude b)) (Nat.cast_pos.1 unitsPerOne_pos)
  rw [fmul_of_finite ha hb, Rat.cast_mul, floatValue_eq_signed, floatValue_eq_signed]
  convert h using 1
  rw [sign_xor, Nat.cast_mul]
  ring

theorem roundsTo_fdiv (hne : floatValue b ≠ 0) : RoundsTo ((floatValue a / floatValue b : ℚ) : ℝ) (fdiv a b) := by
  have hpos := Nat.pos_of_ne_zero (floatValue_eq_zero_iff.not.1 hne)
  have h := roundsTo_roundUnits (floatSign a ^^ floatSign b) (magnitudeUnits (magnitude a) * unitsPerOne) hpos
  rw [fdiv_of_finite ha hb hne, Rat.cast_div, floatValue_eq_signed, floatValue_eq_signed]
  convert h using 1
  have hone := unitsPerOne_pos.ne'
  have hb0 : (magnitudeUnits (magnitude b) : ℝ) ≠ 0 := Nat.cast_ne_zero.2 hpos.ne'
  have hsq : (if floatSign b = true then -1 else 1 : ℝ) ^ 2 = 1 := by cases floatSign b <;> simp
  have hsign : (if floatSign b = true then -1 else 1 : ℝ) ≠ 0 := fun h0 => by simp [h0] at hsq
  rw [sign_xor, Nat.cast_mul]
  generalize (if floatSign b = true then -1 else 1 : ℝ) = t at *
  generalize (unitsPerOne : ℝ) = c at *
  field_simp
  rw [hsq, mul_one]

end

/-- Settles O59: both round an exact quotient of units once, under the exclusive or of the signs. -/
theorem floatProductsAreCorrectlyRounded : Obligations.FloatProductsAreCorrectlyRounded := by
  intro a b ha hb
  refine ⟨roundsTo_fmul ha hb, ?_, fun hne => ⟨roundsTo_fdiv ha hb hne, ?_⟩⟩
  · rw [fmul_of_finite ha hb, floatSign_roundUnits]
  · rw [fdiv_of_finite ha hb hne, floatSign_roundUnits]

/-! ### Infinities and NaNs (log 12) -/

theorem unpack_infinity (s : Bool) : unpack (infinity s) = .inf s := by cases s <;> decide

theorem unpack_nan {w : Word} (h : isNaNFloat w) : unpack w = .nan := by
  obtain ⟨hexp, hfrac⟩ := h
  simp only [unpack, hexp, hfrac, if_true, if_false]

theorem packMagnitude_infMagnitude (s : Bool) : packMagnitude s infMagnitude = infinity s := by cases s <;> decide

theorem fneg_infinity (s : Bool) : fneg (infinity s) = infinity (!s) := by cases s <;> decide

theorem isNaNFloat_iff {w : Word} : isNaNFloat w ↔ infMagnitude < magnitude w := by
  unfold isNaNFloat magnitude infMagnitude
  omega

theorem isNaNFloat_fneg {b : Word} : isNaNFloat (fneg b) ↔ isNaNFloat b := by
  rw [isNaNFloat_iff, isNaNFloat_iff, magnitude_fneg]

/-- A result that is a NaN only as the canonical NaN (R13). -/
def NaNCanonical (w : Word) : Prop := isNaNFloat w → w = canonicalNaN

theorem nanCanonical_canonicalNaN : NaNCanonical canonicalNaN := fun _ => rfl

theorem nanCanonical_packMagnitude (neg : Bool) {m : Nat} (h : m ≤ infMagnitude) :
    NaNCanonical (packMagnitude neg m) := fun hnan => by
  rw [isNaNFloat_iff, magnitude_packMagnitude neg (h.trans_lt (by decide))] at hnan
  exact absurd hnan h.not_gt

theorem nanCanonical_infinity (neg : Bool) : NaNCanonical (packMagnitude neg infMagnitude) :=
  nanCanonical_packMagnitude neg le_rfl

theorem nanCanonical_zero (neg : Bool) : NaNCanonical (packMagnitude neg 0) :=
  nanCanonical_packMagnitude neg (Nat.zero_le _)

theorem nanCanonical_roundUnits (neg : Bool) (num den : Nat) : NaNCanonical (roundUnits neg num den) :=
  nanCanonical_packMagnitude neg (min_le_right ..)

theorem nanCanonical_fadd (a b : Word) : NaNCanonical (fadd a b) := by
  unfold fadd
  split
  · exact nanCanonical_canonicalNaN
  · exact nanCanonical_canonicalNaN
  · split_ifs
    · exact nanCanonical_infinity _
    · exact nanCanonical_canonicalNaN
  · exact nanCanonical_infinity _
  · exact nanCanonical_infinity _
  · dsimp only
    split_ifs
    · exact nanCanonical_zero _
    · exact nanCanonical_roundUnits _ _ _

theorem nanCanonical_fmul (a b : Word) : NaNCanonical (fmul a b) := by
  unfold fmul
  split
  · exact nanCanonical_canonicalNaN
  · exact nanCanonical_canonicalNaN
  · exact nanCanonical_infinity _
  · split_ifs
    · exact nanCanonical_canonicalNaN
    · exact nanCanonical_infinity _
  · split_ifs
    · exact nanCanonical_canonicalNaN
    · exact nanCanonical_infinity _
  · exact nanCanonical_roundUnits _ _ _

theorem nanCanonical_fdiv (a b : Word) : NaNCanonical (fdiv a b) := by
  unfold fdiv
  split
  · exact nanCanonical_canonicalNaN
  · exact nanCanonical_canonicalNaN
  · exact nanCanonical_canonicalNaN
  · exact nanCanonical_infinity _
  · exact nanCanonical_zero _
  · split_ifs
    · exact nanCanonical_canonicalNaN
    · exact nanCanonical_infinity _
    · exact nanCanonical_roundUnits _ _ _

/-- A NaN operand gives the canonical NaN. -/
theorem nan_operand {a b : Word} (h : isNaNFloat a ∨ isNaNFloat b) :
    fadd a b = canonicalNaN ∧ fmul a b = canonicalNaN ∧ fdiv a b = canonicalNaN := by
  rcases h with h | h
  · simp only [fadd, fmul, fdiv, unpack_nan h, and_self]
  · simp only [fadd, fmul, fdiv, unpack_nan h]
    cases unpack a <;> exact ⟨rfl, rfl, rfl⟩

section
variable (s t : Bool)

theorem fadd_infinities : fadd (infinity s) (infinity t) = if s = t then infinity s else canonicalNaN := by
  simp only [fadd, unpack_infinity, packMagnitude_infMagnitude]

theorem fmul_infinities : fmul (infinity s) (infinity t) = infinity (s ^^ t) := by
  simp only [fmul, unpack_infinity, packMagnitude_infMagnitude]

theorem fdiv_infinities : fdiv (infinity s) (infinity t) = canonicalNaN := by
  simp only [fdiv, unpack_infinity]

end

section
variable (s : Bool) {x : Word} (hx : isFiniteFloat x)
include hx

theorem fadd_infinity_left : fadd (infinity s) x = infinity s := by
  simp only [fadd, unpack_infinity, unpack_of_finite hx, packMagnitude_infMagnitude]

theorem fadd_infinity_right : fadd x (infinity s) = infinity s := by
  rw [fadd_comm, fadd_infinity_left s hx]

theorem fmul_infinity_left : fmul (infinity s) x =
    if floatValue x = 0 then canonicalNaN else infinity (s ^^ floatSign x) := by
  simp only [fmul, unpack_infinity, unpack_of_finite hx, packMagnitude_infMagnitude, floatValue_eq_zero_iff]

theorem fmul_infinity_right : fmul x (infinity s) =
    if floatValue x = 0 then canonicalNaN else infinity (floatSign x ^^ s) := by
  rw [fmul_comm, fmul_infinity_left s hx, Bool.xor_comm]

theorem fdiv_infinity_left : fdiv (infinity s) x = infinity (s ^^ floatSign x) := by
  simp only [fdiv, unpack_infinity, unpack_of_finite hx, packMagnitude_infMagnitude]

theorem fdiv_infinity_right : fdiv x (infinity s) = signedZero (floatSign x ^^ s) := by
  simp only [fdiv, unpack_infinity, unpack_of_finite hx, packMagnitude_zero, signedZero]

theorem fdiv_of_zero {y : Word} (hy : isFiniteFloat y) (hzero : floatValue y = 0) : fdiv x y =
    if floatValue x = 0 then canonicalNaN else infinity (floatSign x ^^ floatSign y) := by
  simp only [fdiv, unpack_of_finite hx, unpack_of_finite hy, if_pos (floatValue_eq_zero_iff.1 hzero),
    packMagnitude_infMagnitude, floatValue_eq_zero_iff]

end

/-- Settles O60: the results of each operation, case by case; `-f` is `+f` of the negation. -/
theorem naNResultsAreCanonical : Obligations.NaNResultsAreCanonical := by
  refine ⟨fun a b => ⟨?_, fun h => ?_⟩, fun s t => ?_, fun s x hx => ?_, fun x y hx hy => fdiv_of_zero hx hy⟩
  · rintro r (rfl | rfl | rfl | rfl)
    · exact nanCanonical_fadd a b
    · exact nanCanonical_fadd a (fneg b)
    · exact nanCanonical_fmul a b
    · exact nanCanonical_fdiv a b
  · obtain ⟨hadd, hmul, hdiv⟩ := nan_operand h
    obtain ⟨hsub, -, -⟩ := nan_operand (h.imp_right isNaNFloat_fneg.2)
    exact ⟨hadd, hsub, hmul, hdiv⟩
  · refine ⟨fadd_infinities s t, ?_, fmul_infinities s t, fdiv_infinities s t⟩
    rw [fsub, fneg_infinity, fadd_infinities]
    cases s <;> cases t <;> rfl
  · have hneg := isFiniteFloat_fneg.2 hx
    refine ⟨fadd_infinity_left s hx, fadd_infinity_right s hx, fadd_infinity_left s hneg, ?_,
      fmul_infinity_left s hx, fmul_infinity_right s hx, fdiv_infinity_left s hx, fdiv_infinity_right s hx⟩
    rw [fsub, fneg_infinity, fadd_infinity_right _ hx]

end Sys2Proof.Machine
end
